-- ==== Sys2Proof/Word.lean ====
section
/-! DEFINITION. The word types of the codec core (spec/00_scope.md R10, R11): bytes, codes, and the one
list form of its private memories (spec/20_memory.md R60). -/

namespace Sys2Proof

/-- A stream byte (R65). -/
abbrev Byte := BitVec 8

/-- A code value, `0 .. 65535` (R10). -/
abbrev Code := BitVec 16

/-- A memory of entries of `w` bits: (address, entry) pairs, addresses strictly rising. An address
that is not listed has no value (spec/93_implementation_defined.md U10; log entry 2). `Mem 8` is a list of
`Host.Cell`. -/
abbrev Mem (w : Nat) := List (Nat × BitVec w)

end Sys2Proof
end

