-- ==== Sys2Proof/Config.lean ====
section
/-! DEFINITION. The constants the spec fixes (spec/00_scope.md R7, R8, R9), the default flush policy's
numbers (spec/43_encoder.md R198), and the free values and open parameters of the model, each an opaque
constant with no body. -/

namespace Sys2Proof.Config

/-- The token that resets the dictionary (R7). -/
def clear : Nat := 256

/-- The final token of a stream (R7). -/
def endOfStream : Nat := 257

/-- `FIRST_STRING`, the first assignable string code; also the number of codes assigned after a
dictionary reset (R7, spec/42_dictionary.md R160). -/
def firstString : Nat := 258

/-- The least legal `maxbits` (R8). -/
def minBits : Nat := 9

/-- The greatest legal `maxbits`, `MAXBITS_CAP` (R8, R9). -/
def maxBits : Nat := 16

/-- `MON_WINDOW` of the default flush policy, in bytes (R198). -/
def monWindow : Nat := 4096

/-- `MON_HYST` of the default flush policy, in bits (R198). -/
def monHyst : Nat := 256

/-- FREE VALUE (spec/93_implementation_defined.md U3; log entry 6): did the sink keep the byte it refused?
The arguments are the port's number and its counter of such draws. Nothing is known of its values. -/
opaque refusedByteKept : Nat → Nat → Bool

/-- OPEN PARAMETER `FlushPolicy` (spec/43_encoder.md R199; log entry 7): the reset value of the monitor state of the
policy with this number. A monitor state is coded as a number, so that none is left out. Nothing is known of it. -/
opaque otherPolicyReset : Nat → Nat

/-- OPEN PARAMETER `FlushPolicy` (spec/43_encoder.md R199; log entry 7): the policy with this number, any function at
all of the monitor state, `mlen`, `wd` and `full`; it answers the new monitor state and whether it asks for a flush.
Nothing is known of its values. -/
opaque otherPolicy : Nat → Nat → Nat → Nat → Bool → Nat × Bool

/-! FREE VALUES of an operand outside the range its rule states (log entry 13), one constant for each operation, at the
operands and at what the operation reads. Nothing is known of their values; each meaning keeps the limits that its rule
sets on the result. -/

/-- The value and the width of the field of `PUTBITS(val, wd)` (R122), at `acc`, `nbits`, `val`, `wd`. -/
opaque freeField : BitVec 32 → BitVec 6 → Nat → Nat → Nat × Nat

/-- The value and the width of the field of `GETBITS(wd)` (R124), at `acc`, `nbits`, `wd`. -/
opaque freeBits : BitVec 32 → BitVec 6 → Nat → Nat × Nat

/-- The pair `(k, t)` of `AB_PARAMS(n)` (R140). -/
opaque freeParams : Nat → Nat × Nat

/-- The code whose codeword `AB_ENC(v, n)` writes where `v` is not below `n` (R141), at `acc`, `nbits`, `v`, `n`. -/
opaque freeCode : BitVec 32 → BitVec 6 → Nat → Nat → Nat

/-- The value and the width of the field of `AB_ENC(v, n)` where `n` is no alphabet size, at `acc`, `nbits`, `v`, `n`. -/
opaque freeCodeword : BitVec 32 → BitVec 6 → Nat → Nat → Nat × Nat

/-- The value and the width of the codeword of `AB_DEC(n)` (R142) where `n` is no alphabet size, at `acc`, `nbits`,
`n`. -/
opaque freeSymbol : BitVec 32 → BitVec 6 → Nat → Nat × Nat

/-- The answer of `DICT_LOOKUP(p, b)` (R162) where `p` is 256 or 257, at the index, `p`, `b`. -/
opaque freeLookup : Mem 16 → Code → Byte → Option Code

/-- The answer of `DICT_ISLEAF(c)` (R165) where `c` is no assigned string code, at `prefix`, `next_free`, `c`. -/
opaque freeLeaf : Mem 16 → BitVec 17 → Code → Bool

/-- The answer of `SUCC(c)` (R166) where `c` is not in `258 .. MAX - 1`, at `MAX`, `c`. -/
opaque freeSucc : BitVec 17 → Code → Code

/-- The answer of `DICT_VICTIM(excl)` (R167) where `excl` is 256 or 257, at `prefix`, `next_free`, `MAX`, `cursor`,
`excl`. -/
opaque freeVictim : Mem 16 → BitVec 17 → BitVec 17 → BitVec 16 → Code → Option Code

/-- The code that `EMIT_DATA(c)` (R196) emits where `c` is 256 or 257, at `acc`, `nbits`, `n`, `c`. -/
opaque freeData : BitVec 32 → BitVec 6 → BitVec 17 → Code → Code

end Sys2Proof.Config
end

