-- ==== Sys2Proof/Syntax.lean ====
section
/-! DEFINITION. The instructions of the codec core: the commands, tokens, codeword formats and operations of
spec/opcode_table.json, one constructor per row (spec/00_scope.md R5). An operation that both kinds of instance
have takes the `Side` that executes it. -/

namespace Sys2Proof

/-- Which kind of instance executes an operation (R6): the encoder or the decoder at the block's focus. -/
inductive Side where
  | enc
  | dec
  deriving DecidableEq, Repr

/-- The four failure causes (spec/60_exceptions.md R270). -/
inductive Cause where
  | badHeader
  | badCode
  | truncated
  | sinkFail
  deriving DecidableEq, Repr

/-- One constructor per row of spec/opcode_table.json, in the table's order. -/
inductive Instr where
  /-- `COMPRESS maxbits` (R250); `ignored` is `CMD[7:6]`. -/
  | compress (maxbits : BitVec 5) (ignored : BitVec 2)
  /-- `DECOMPRESS` (R251); `ignored` is `CMD[7:1]`. -/
  | decompress (ignored : BitVec 7)
  /-- The header token, the whole byte (R91, R221). -/
  | hdr (b : Byte)
  /-- A literal token (R226). -/
  | lit (b : Byte)
  /-- The `CLEAR` token (R224). -/
  | clear
  /-- The `END` token (R223). -/
  | endTok
  /-- A string token whose code is not the pending one (R227). -/
  | str (c : Code)
  /-- A string token whose code is the pending one (R228). -/
  | strKwKwK (c : Code)
  /-- `j` padding bits after `END` (R96, R232). -/
  | pad (j : BitVec 3)
  /-- A short codeword (R92): written by an encoder, its operand assembled by a decoder (R94). -/
  | abs (side : Side) (p : Code)
  /-- A long codeword (R93): written by an encoder, its operand assembled by a decoder (R94). -/
  | abl (side : Side) (p : Code) (e : BitVec 1)
  | srcPull (side : Side)
  | sinkPush (side : Side) (b : Byte)
  | putBits (val : BitVec 16) (wd : BitVec 5)
  | flushBits
  | getBits (wd : BitVec 5)
  | abParams (n : BitVec 17)
  | abEnc (v : Code) (n : BitVec 17)
  | abDec (n : BitVec 17)
  | dictReset (side : Side)
  | dictAssigned (side : Side) (c : Code)
  | dictLookup (p : Code) (b : Byte)
  | indexAdd (p : Code) (b : Byte) (c : Code)
  | indexRemove (p : Code) (b : Byte)
  | dictIsLeaf (side : Side) (c : Code)
  | succ (side : Side) (c : Code)
  | dictVictim (side : Side) (excl : Code)
  | dictPending (side : Side) (excl : Code)
  | dictInsertGrowing (side : Side) (p : Code) (b : Byte)
  | dictInsertRecycling (side : Side) (p : Code) (b : Byte)
  | dictInsertNoVictim (side : Side) (p : Code) (b : Byte)
  | alphaStep (side : Side)
  | encStart (maxbits : BitVec 5)
  | eFirst
  | eNext
  | encExtend (c : Code)
  | encMiss (b : Byte)
  | emitData (c : Code)
  | monReset
  | monUpdate (mlen : BitVec 16) (wd : BitVec 5)
  | encFlushDict
  | encFinish
  | decStart
  | dHdr
  | dSymbol
  | data (c : Code)
  | expand (c : Code)
  | decInsert (fb : Byte)
  | decNext (c : Code)
  | raiseFail (side : Side) (cause : Cause)
  | finish (side : Side)
  deriving DecidableEq, Repr

end Sys2Proof
end

