-- ==== Sys2Proof/Machine/State.lean ====
section
/-! DEFINITION. The state of the block (spec/10_state.md): every register, array and flag of an encoder and of a
decoder instance, the ports the host wires to them (R44), and the model's own fields (the schedule, the result of
the operation executed last, the value of `STATUS` read last). Plain data. The named reset values are those of
R47 and R310, and log entry 1 where these leave a register unspecified. -/

namespace Sys2Proof.Machine

/-- The control state of an instance (R40); its 3-bit code is `Phase.code` in Flags. -/
inductive Phase where
  | idle
  | eFirst
  | eNext
  | dHdr
  | dSymbol
  | done
  | failed
  deriving DecidableEq, Repr

/-- Configuration, dictionary arrays and dictionary registers of one instance (R21 to R27). -/
structure Dict where
  /-- `maxbits`, legal values `9 .. 16` (R21). -/
  maxbits : BitVec 5
  /-- `MAX = 1 << maxbits` (R21). -/
  max : BitVec 17
  /-- The array `prefix[]` (R22). -/
  pfx : Mem 16
  /-- The array `term[]` (R23), a list of `Host.Cell`. -/
  term : Mem 8
  /-- `next_free`, the head of the free list (R24). -/
  nextFree : BitVec 17
  /-- `full` (R25). -/
  full : Bool
  /-- `cursor`, where the next victim scan starts (R26). -/
  cursor : BitVec 16
  /-- `n`, the alphabet size (R27). -/
  n : BitVec 17
  deriving DecidableEq, Repr

/-- The bit packer of an encoder (R35) or the bit unpacker of a decoder (R38). -/
structure BitBuf where
  acc : BitVec 32
  nbits : BitVec 6
  deriving DecidableEq, Repr

/-- The parameter `SINK_STATUS` (spec/92_eei_decisions.md D13). -/
inductive SinkStatus where
  | neverRefuses
  | mayRefuse
  deriving DecidableEq, Repr

/-- What a sink that may refuse answers to one push (R121). -/
inductive SinkAnswer where
  | ok
  | refuse
  deriving DecidableEq, Repr

/-- What the host has wired to one instance (R44, R256): not read back by the instance, and no state of it. -/
structure Port where
  /-- The bytes the source will still answer; after them `EOI` for ever (R66, R315). -/
  source : List Byte
  /-- The bytes the sink holds, oldest first (R316). -/
  sink : List Byte
  status : SinkStatus
  /-- The answers of a sink that may refuse to the coming pushes; past the end it accepts (log entry 6). -/
  answers : List SinkAnswer
  /-- The model's own number of the port and counter of refused bytes, for `Config.refusedByteKept` (log entry 6). -/
  number : Nat
  draws : Nat
  deriving DecidableEq, Repr

/-- What an encoder and a decoder instance both hold (R20). -/
structure Codec where
  dict : Dict
  buf : BitBuf
  phase : Phase
  /-- `STATUS.cause` (R42, R275). -/
  cause : BitVec 3
  /-- The `CMD` register: the byte of the last accepted write (R41). -/
  cmd : Byte
  port : Port
  deriving DecidableEq, Repr

/-- The parameter `FlushPolicy` (R199): the policy of R198 with its window in bytes and its hysteresis in bits,
or any other policy, by number (`Config.otherPolicy`). -/
inductive FlushPolicy where
  | window (bytes bits : Nat)
  | other (number : Nat)
  deriving DecidableEq, Repr

/-- An encoder instance (R20). -/
structure Encoder where
  codec : Codec
  /-- The lookup index (R28): entry `p * 256 + b` holds `index(p, b)`; not listed is absent. -/
  index : Mem 16
  /-- `w_code`; `none` is its valid bit 0 (R32). -/
  wCode : Option Code
  /-- `mlen` (R33). -/
  mlen : BitVec 16
  /-- `mon_in` (R34). -/
  monIn : BitVec 32
  /-- `mon_out` (R34). -/
  monOut : BitVec 32
  /-- The monitor state of a policy that is not the default's kind, coded as a number (R34, R199; log entry 7). -/
  monOther : Nat
  policy : FlushPolicy
  deriving DecidableEq, Repr

/-- A decoder instance (R20). -/
structure Decoder where
  codec : Codec
  /-- `prev`; `none` is its valid bit 0 (R36). -/
  prev : Option Code
  /-- The expansion stack (R37), a list of `Host.Cell`. -/
  stk : Mem 8
  /-- `sp`, the number of stack entries in use (R37). -/
  sp : BitVec 17
  deriving DecidableEq, Repr

/-- What an operation returned (spec/00_scope.md R13): the model's own record of the scratch values of R39. -/
inductive Result where
  | unit
  /-- The operation raised a failure. -/
  | failed
  | eoi
  | byte (b : Byte)
  | value (v : Nat)
  | params (k t : Nat)
  | flag (b : Bool)
  | code (c : Code)
  /-- The absent code: a failed lookup, a failed victim search, an insertion without a victim. -/
  | noCode
  deriving DecidableEq, Repr

/-- What the host or an instance does next (R256; spec/20_memory.md R70; log entry 9). -/
inductive Event where
  /-- The host writes the `CMD` register of the instance at the focus. -/
  | writeCmd (side : Side) (b : Byte)
  /-- The instance at the focus takes one step (R40). -/
  | run (side : Side)
  /-- The host reads `STATUS`. -/
  | readStatus (side : Side)
  /-- The host asserts the reset input (R310). -/
  | assertReset (side : Side)
  /-- The host wires a source and an empty sink to an instance that is not running (R314). -/
  | connect (side : Side) (source : List Byte) (status : SinkStatus) (answers : List SinkAnswer)
  /-- The focus goes to the `k`-th of the other instances of that kind (R290). -/
  | focus (side : Side) (k : Nat)
  deriving DecidableEq, Repr

/-- The block: `NUM_ENC` encoders, `NUM_DEC` decoders (R290), and the model's own fields. -/
structure State where
  /-- The encoder at the focus. -/
  enc : Encoder
  /-- The decoder at the focus. -/
  dec : Decoder
  encRest : List Encoder
  decRest : List Decoder
  sched : List Event
  result : Result
  /-- The `STATUS` value the host read last. -/
  hostStatus : BitVec 8
  deriving DecidableEq, Repr

/-- Why the model stops. No failure of the hardware is one of these: `raise Fail` is a next state (R276). -/
inductive Fault where
  /-- A rule read the pair of a string code that is not assigned, or an entry of `prefix`, `term` or `stk` that nothing
  has written (spec/93 U10; log entry 2). Raised by the operations that expand a string or read a victim's pair. Safe:
  the model stops where hardware goes on. -/
  | unspecifiedRead
  /-- A rule used `w_code` while it is none (R32). Raised by `E_NEXT` and `ENC_MISS`. Safe. -/
  | noMatch
  /-- A step of an encoder in a decoder's phase or of a decoder in an encoder's phase, values no rule writes
  (R40). Raised by the step. Safe. -/
  | wrongPhase
  deriving DecidableEq, Repr

/-- Why an instruction or a host action has no effect in the model. -/
inductive Refusal where
  /-- The instruction has no meaning yet; raised by `exec`'s refused arms only. Safe. -/
  | notModelled (mnemonic : String)
  /-- The fields of a codeword format are outside the format's range at the alphabet size in force, so no such
  codeword exists (R92, R93, R144). Raised by `ABS` and `ABL`. Safe. -/
  | notACodeword
  /-- The host names an instance the block does not have (R290). Raised by the step. Safe. -/
  | noSuchInstance
  /-- The host rewires a running instance (R314, spec/93 U13). Raised by the step. Safe. -/
  | portInUse
  deriving DecidableEq, Repr

/-! ### Reset (R47, R310; log entries 1 and 2) -/

/-- The dictionary after reset: `full = 0`; every other register at the value log entry 1 names. -/
def Dict.reset : Dict where
  maxbits := 9
  max := 512
  pfx := []
  term := []
  nextFree := 258
  full := false
  cursor := 258
  n := 258

/-- The port of this number, with nothing to read, nothing received and the default sink (log entries 5 and 6). -/
def Port.reset (number : Nat) : Port where
  source := []
  sink := []
  status := .neverRefuses
  answers := []
  number := number
  draws := 0

/-- The common part after reset, the host's wiring aside: `phase = IDLE`, `STATUS = 0`. -/
def Codec.reset (port : Port) : Codec where
  dict := Dict.reset
  buf := { acc := 0, nbits := 0 }
  phase := .idle
  cause := 0
  cmd := 0
  port := port

/-- An encoder after reset: `w_code` none; its policy is no state of the instance and stays. -/
def Encoder.reset (port : Port) (policy : FlushPolicy) : Encoder where
  codec := Codec.reset port
  index := []
  wCode := none
  mlen := 1
  monIn := 0
  monOut := 0
  monOther := 0
  policy := policy

/-- A decoder after reset: `prev` none. -/
def Decoder.reset (port : Port) : Decoder where
  codec := Codec.reset port
  prev := none
  stk := []
  sp := 0

/-- The block after reset: one encoder and one decoder (D2), the default policy, nothing scheduled. -/
def State.reset : State where
  enc := Encoder.reset (Port.reset 0) (.window Config.monWindow Config.monHyst)
  dec := Decoder.reset (Port.reset 1)
  encRest := []
  decRest := []
  sched := []
  result := .unit
  hostStatus := 0

end Sys2Proof.Machine
end

