-- ==== Sys2Proof/Machine/Flags.lean ====
section
/-! DEFINITION. The flags of the hardware (spec/10_state.md R40, R42, R43; spec/60_exceptions.md R275): the code of
a phase, the code of a cause, `busy`, `done`, `failed`, the `STATUS` register as the host reads it, and the
rule of `full`. -/

namespace Sys2Proof.Machine

/-- The 3-bit code of a phase (R40); 5 is no phase's code. -/
def Phase.code : Phase → BitVec 3
  | .idle => 0
  | .eFirst => 1
  | .eNext => 2
  | .dHdr => 3
  | .dSymbol => 4
  | .done => 6
  | .failed => 7

/-- The code of a cause in `STATUS.cause` (R275); 0 is no failure, 5 to 7 are no cause's code. -/
def causeCode : Cause → BitVec 3
  | .badHeader => 1
  | .badCode => 2
  | .truncated => 3
  | .sinkFail => 4

/-- `busy`: the phase is not `IDLE`, `DONE` or `FAILED` (R42). -/
def Phase.busy : Phase → Bool
  | .idle => false
  | .eFirst => true
  | .eNext => true
  | .dHdr => true
  | .dSymbol => true
  | .done => false
  | .failed => false

/-- `STATUS.busy` of an instance. -/
def Codec.busy (c : Codec) : Bool := c.phase.busy

/-- `STATUS.done`: the phase is `DONE` (R42). -/
def Codec.done (c : Codec) : Bool := c.phase == .done

/-- `STATUS.failed`: the phase is `FAILED` (R42). -/
def Codec.failed (c : Codec) : Bool := c.phase == .failed

/-- The `STATUS` register as the host reads it (R42): bit 0 `busy`, bit 1 `done`, bit 2 `failed`, bits 5:3 `cause`
(0 unless `failed`), bits 7:6 zero. -/
def Codec.statusReg (c : Codec) : BitVec 8 :=
  0#2 ++ (if c.failed then c.cause else 0#3) ++ BitVec.ofBool c.failed ++ BitVec.ofBool c.done ++ BitVec.ofBool c.busy

/-- The value of `full` after an insertion took a free code and left `nextFree` (R168): set when the free list
becomes empty, and never cleared by an insertion (R43). -/
def fullAfter (full : Bool) (nextFree max : BitVec 17) : Bool := full || nextFree == max

end Sys2Proof.Machine
end

