-- ==== Sys2Proof/WellFormed.lean ====
section
/-! DEFINITION. Which operands are within the range their rule states, as far as the instruction alone shows it.
Outside it the instruction runs all the same: a result that its rule does not state there is a free value, and every
other effect is the rule's (log entry 13). Where the rule states no range (`INDEX_ADD`, `ENC_EXTEND`, `DEC_NEXT`), or
gives every operand an effect (a header byte or a command's `maxbits` out of `9 .. 16` fails with `BAD_HEADER`,
`EXPAND` of 256 or 257 fails with `BAD_CODE`), every operand is well formed. The range of `EXPAND` depends on the state,
so every operand of it is well formed too; a code that is not assigned makes it fault (log entry 2). -/

namespace Sys2Proof

/-- A data code is neither `CLEAR` nor `END` (spec/00_scope.md R14). -/
def isDataCode (c : Code) : Bool := c.toNat != Config.clear && c.toNat != Config.endOfStream

/-- A string code, `258 ..` (spec/20_memory.md R67). -/
def isStringCode (c : Code) : Bool := Config.firstString ≤ c.toNat

/-- An alphabet size, `258 .. 65536` (R140). -/
def isAlphabet (n : BitVec 17) : Bool := Config.firstString ≤ n.toNat && n.toNat ≤ 2 ^ Config.maxBits

/-- A field width, `1 .. 16` (R122, R124). -/
def isFieldWidth (wd : BitVec 5) : Bool := 1 ≤ wd.toNat && wd.toNat ≤ 16

/-- A field value that fits its width (R122). -/
def fitsField (val : BitVec 16) (wd : BitVec 5) : Bool := decide (val.toNat < 2 ^ wd.toNat)

/-- The eight legal values of `maxbits` (R8). -/
def isLegalMaxbits (m : Nat) : Bool := Config.minBits ≤ m && m ≤ Config.maxBits

/-- The operands are in the range the instruction's rule states. A range that depends on the state is not looked at
here: what the model does outside of such a one is log entry 13 for `DICT_ISLEAF` of a code that is not assigned and
`SUCC` of a code from `MAX` on, log entry 2 for `EXPAND` of a code that is not assigned, and log entry 30 for the
others. -/
def Instr.wf : Instr → Bool
  | .compress _ _ => true
  | .decompress _ => true
  | .hdr _ => true
  | .lit _ => true
  | .clear => true
  | .endTok => true
  | .str c => isStringCode c
  | .strKwKwK c => isStringCode c
  | .pad _ => true
  | .abs _ _ => true
  | .abl _ _ _ => true
  | .srcPull _ => true
  | .sinkPush _ _ => true
  | .putBits val wd => isFieldWidth wd && fitsField val wd
  | .flushBits => true
  | .getBits wd => isFieldWidth wd
  | .abParams n => isAlphabet n
  | .abEnc v n => isAlphabet n && decide (v.toNat < n.toNat)
  | .abDec n => isAlphabet n
  | .dictReset _ => true
  | .dictAssigned _ _ => true
  | .dictLookup p _ => isDataCode p
  | .indexAdd _ _ _ => true
  | .indexRemove _ _ => true
  | .dictIsLeaf _ c => isStringCode c
  | .succ _ c => isStringCode c
  | .dictVictim _ excl => isDataCode excl
  | .dictPending _ excl => isDataCode excl
  | .dictInsertGrowing _ p _ => isDataCode p
  | .dictInsertRecycling _ p _ => isDataCode p
  | .dictInsertNoVictim _ p _ => isDataCode p
  | .alphaStep _ => true
  | .encStart _ => true
  | .eFirst => true
  | .eNext => true
  | .encExtend _ => true
  | .encMiss _ => true
  | .emitData c => isDataCode c
  | .monReset => true
  | .monUpdate _ _ => true
  | .encFlushDict => true
  | .encFinish => true
  | .decStart => true
  | .dHdr => true
  | .dSymbol => true
  | .data c => isDataCode c
  | .expand _ => true
  | .decInsert _ => true
  | .decNext _ => true
  | .raiseFail _ _ => true
  | .finish _ => true

end Sys2Proof
end

