-- ==== Sys2Proof/Decode.lean ====
section
/-! DEFINITION. The encodings (spec/30_encoding.md) and the adjusted-binary code as a code on bits
(spec/41_abcode.md R140 to R144): the decoder, total on any bytes and rejecting by name, and after it the
encoder. -/

namespace Sys2Proof

/-- Why the decoder refuses a stream (spec/60_exceptions.md R271, R273). -/
inductive Reject where
  /-- The bytes end before an `END` token does. -/
  | truncated
  /-- Stream byte 0 is none of `0x09 .. 0x10` (R97). -/
  | badHeader
  deriving DecidableEq, Repr

/-- One encoded instruction outside a codeword's bits (R91, R95, R96, R99). -/
inductive Wire where
  /-- A write of the `CMD` register. -/
  | cmd (b : Byte)
  /-- Stream byte 0. -/
  | hdr (b : Byte)
  /-- The code value a codeword carries. -/
  | code (v : Code)
  /-- The number of padding bits after `END`. -/
  | pad (j : BitVec 3)
  deriving DecidableEq, Repr

/-! ### Bits -/

/-- The number whose bits, least significant first, are the list (R12). -/
def ofBits : List Bool → Nat
  | [] => 0
  | b :: bs => b.toNat + 2 * ofBits bs

/-- The `w` low bits of `v`, least significant first (R12). -/
def bitsOf : Nat → Nat → List Bool
  | 0, _ => []
  | w + 1, v => (v % 2 == 1) :: bitsOf w (v / 2)

/-- The bits of a byte string in stream order (spec/20_memory.md R62). -/
def bytesBits : List Byte → List Bool
  | [] => []
  | b :: bs => bitsOf 8 b.toNat ++ bytesBits bs

/-! ### The adjusted-binary code -/

/-- `AB_PARAMS(n)`: `k = floor_log2(n)` and `t = (1 << (k+1)) - n` (R140). `floor_log2` is stated for `n >= 1`
(log entry 18). -/
def abParams (n : Nat) : Nat × Nat := (n.log2, 2 ^ (n.log2 + 1) - n)

/-- `v = 2*p + e - t`, the value of a long codeword (R93, R94). -/
def longValue (t p e : Nat) : Nat := 2 * p + e - t

/-- Reads one codeword for alphabet size `n` at the head of the bits (R94): its value and the bits after it. -/
def readCodeword (n : Nat) (bs : List Bool) : Option (Nat × List Bool) :=
  let k := (abParams n).1
  let t := (abParams n).2
  if bs.length < k then none
  else
    let p := ofBits (bs.take k)
    if p < t then some (p, bs.drop k)
    else
      match bs.drop k with
      | [] => none
      | e :: rest => some (longValue t p e.toNat, rest)

/-- The format of the codeword at the head of the bits, as the decoder's operand assembly (R92 to R94). -/
def decodeFormat (n : Nat) (bs : List Bool) : Except Reject (Instr × List Bool) :=
  let k := (abParams n).1
  let t := (abParams n).2
  if bs.length < k then .error .truncated
  else
    let p := ofBits (bs.take k)
    if p < t then .ok (.abs .dec (BitVec.ofNat 16 p), bs.drop k)
    else
      match bs.drop k with
      | [] => .error .truncated
      | e :: rest => .ok (.abl .dec (BitVec.ofNat 16 p) (BitVec.ofBool e), rest)

/-! ### Tokens and commands -/

/-- The token a code value selects (R95), `pend` being the decoder's pending code if it has one; the order of
the tests is that of `D_SYMBOL` and `DATA` (spec/44_decoder.md R222, R225). -/
def decodeToken (pend : Option Code) (v : Code) : Instr :=
  if v.toNat = Config.endOfStream then .endTok
  else if v.toNat = Config.clear then .clear
  else if pend = some v then .strKwKwK v
  else if v.toNat ≤ 255 then .lit (v.setWidth 8)
  else .str v

/-- The command a write of `CMD` asks for (R99). -/
def decodeCmd (b : Byte) : Instr :=
  if b.getLsbD 0 then .decompress (b.extractLsb' 1 7)
  else .compress (b.extractLsb' 1 5) (b.extractLsb' 6 2)

/-- The instruction an encoded word stands for, `pend` as in `decodeToken`. -/
def decode (pend : Option Code) : Wire → Instr
  | .cmd b => decodeCmd b
  | .hdr b => .hdr b
  | .code v => decodeToken pend v
  | .pad j => .pad j

/-! ### Whole streams (R90) -/

/-- The alphabet size after a token: 258 after `CLEAR`, one more, up to `MAX`, after a data symbol
(spec/42_dictionary.md R176). -/
def alphaAfter (maxN n : Nat) : Instr → Nat
  | .clear => Config.firstString
  | .endTok => n
  | _ => min (n + 1) maxN

/-- Reads tokens up to and including `END`; what follows is not read (R96). The fuel bounds the number of
codewords. A string token is read as `STR` whether or not it is pending: no bit tells the two apart. -/
def readTokens : Nat → Nat → Nat → List Bool → Except Reject (List Instr)
  | 0, _, _, _ => .error .truncated
  | fuel + 1, maxN, n, bs =>
    match readCodeword n bs with
    | none => .error .truncated
    | some (v, rest) =>
      let tok := decodeToken none (BitVec.ofNat 16 v)
      if tok = .endTok then .ok [.endTok]
      else (readTokens fuel maxN (alphaAfter maxN n tok) rest).map (tok :: ·)

/-- Reads a whole stream: the header, then the tokens up to `END`. -/
def decodeStream : List Byte → Except Reject (List Instr)
  | [] => .error .truncated
  | b :: bs =>
    if isLegalMaxbits b.toNat then
      (readTokens (8 * bs.length + 1) (2 ^ b.toNat) Config.firstString (bytesBits bs)).map (.hdr b :: ·)
    else .error .badHeader

/-- The host's question on an opcode-table word (log entry 16). One byte is stream byte 0 where it is a legal
header byte, and a write of `CMD` otherwise; two bytes are a decoded code value. -/
def decodeTableWord (nbits w : Nat) : Option Instr :=
  if nbits = 8 then
    if isLegalMaxbits (w % 256) then some (.hdr (BitVec.ofNat 8 w)) else some (decodeCmd (BitVec.ofNat 8 w))
  else if nbits = 16 then some (decodeToken none (BitVec.ofNat 16 w))
  else none

/-! ### The encoder -/

/-- The bits of the codeword of value `v` for alphabet size `n`, in stream order (R92, R93). -/
def codewordBits (n v : Nat) : List Bool :=
  let k := (abParams n).1
  let t := (abParams n).2
  if v < t then bitsOf k v
  else bitsOf k ((v + t) / 2) ++ bitsOf 1 ((v + t) % 2)

/-- The code value of a token (R95). -/
def tokenValue : Instr → Option Nat
  | .lit b => some b.toNat
  | .clear => some Config.clear
  | .endTok => some Config.endOfStream
  | .str c => some c.toNat
  | .strKwKwK c => some c.toNat
  | _ => none

/-- The bits of a codeword of the given format and fields (R92, R93). -/
def encodeFormat (n : Nat) : Instr → Option (List Bool)
  | .abs _ p => some (bitsOf (abParams n).1 p.toNat)
  | .abl _ p e => some (bitsOf (abParams n).1 p.toNat ++ bitsOf 1 e.toNat)
  | _ => none

/-- The encoded word of a command or token; `none` for a format (see `encodeFormat`) and for an internal
operation, which has no encoding (spec/00_scope.md R5). -/
def encode : Instr → Option Wire
  | .compress m ig => some (.cmd (ig ++ m ++ 0#1))
  | .decompress ig => some (.cmd (ig ++ 1#1))
  | .hdr b => some (.hdr b)
  | .pad j => some (.pad j)
  | i => (tokenValue i).map fun v => .code (BitVec.ofNat 16 v)

/-- The bits of a list of tokens, each written with the alphabet size in force (R145). -/
def writeTokens (maxN : Nat) : Nat → List Instr → List Bool
  | _, [] => []
  | n, tok :: toks =>
    (match tokenValue tok with
     | some v => codewordBits n v
     | none => []) ++ writeTokens maxN (alphaAfter maxN n tok) toks

/-- Packs bits into bytes, least significant first, the last byte padded with 0 bits (R62, R96). -/
def packBytes : List Bool → List Byte
  | b0 :: b1 :: b2 :: b3 :: b4 :: b5 :: b6 :: b7 :: bs =>
    BitVec.ofNat 8 (ofBits [b0, b1, b2, b3, b4, b5, b6, b7]) :: packBytes bs
  | [] => []
  | bs => [BitVec.ofNat 8 (ofBits bs)]

/-- The bytes of a stream given as its header byte and its tokens (R90). -/
def encodeStream (b : Byte) (toks : List Instr) : List Byte :=
  b :: packBytes (writeTokens (2 ^ b.toNat) Config.firstString toks)

end Sys2Proof
end

