-- ==== Sys2Proof/Machine/Operands.lean ====
section
/-! DEFINITION. Operand forms: which codes denote strings, the key of an index pair, the instance a side names, and
the operand assembly of the two codeword formats (spec/30_encoding.md R92 to R94). -/

namespace Sys2Proof.Machine

/-- The key of the pair `(p, b)` in the index: 16 + 8 bits (spec/20_memory.md R60). -/
def pairKey (p : Code) (b : Byte) : Nat := p.toNat * 256 + b.toNat

/-- `ABS` exists for this `p` at alphabet size `n`: `0 <= p < t` (R92). -/
def shortInRange (n : Nat) (p : Code) : Bool := p.toNat < (abParams n).2

/-- `ABL` exists for this `p` at alphabet size `n`: `t <= p < (1 << k)` (R93). -/
def longInRange (n : Nat) (p : Code) : Bool := (abParams n).2 ≤ p.toNat && p.toNat < 2 ^ (abParams n).1

/-- The common part of the instance a side names. -/
def State.codec (s : State) : Side → Codec
  | .enc => s.enc.codec
  | .dec => s.dec.codec

/-- Puts back the common part of the instance a side names. -/
def State.setCodec (s : State) (side : Side) (c : Codec) : State :=
  match side with
  | .enc => { s with enc := { s.enc with codec := c } }
  | .dec => { s with dec := { s.dec with codec := c } }

end Sys2Proof.Machine
end

