-- ==== Sys2Proof/Machine/Ops.lean ====
section
/-! DEFINITION. The named operations over memories, ports and control that the families share: reading and writing an
entry, one source and one sink transaction, `raise Fail` (the exception of this hardware) and `finish`, and how an
operation on one instance becomes a step of the block. -/

namespace Sys2Proof.Machine

/-! ### Memories -/

/-- The entry at address `a`; none where nothing is listed. -/
def readMem {w : Nat} : Mem w → Nat → Option (BitVec w)
  | [], _ => none
  | (x, v) :: m, a => if x = a then some v else readMem m a

/-- Writes the entry at address `a`, keeping addresses strictly rising. -/
def writeMem {w : Nat} : Mem w → Nat → BitVec w → Mem w
  | [], a, v => [(a, v)]
  | (x, u) :: m, a, v =>
    if a < x then (a, v) :: (x, u) :: m
    else if a = x then (a, v) :: m
    else (x, u) :: writeMem m a v

/-- Takes the entry at address `a` off the list. -/
def eraseMem {w : Nat} : Mem w → Nat → Mem w
  | [], _ => []
  | (x, u) :: m, a => if x = a then m else (x, u) :: eraseMem m a

/-- The canonical form of a memory: addresses strictly rising. -/
abbrev Mem.wf {w : Nat} (m : Mem w) : Prop := m.Pairwise (fun x y => x.1 < y.1)

/-! ### Ports -/

/-- One transaction on the source port (R120): the next byte, or none for `EOI`. -/
def Port.pull (p : Port) : Option Byte × Port :=
  match p.source with
  | [] => (none, p)
  | b :: bs => (some b, { p with source := bs })

/-- The port after the sink accepted `b`. -/
def Port.accept (p : Port) (b : Byte) : Port := { p with sink := p.sink ++ [b] }

/-- The port after the sink refused `b`: whether it kept the byte is a free value (U3), drawn at the port's number and
count of refusals; two ports of one number and one count would draw alike (log entry 6). -/
def Port.refuse (p : Port) (b : Byte) : Port :=
  { p with
    sink := if Config.refusedByteKept p.number p.draws then p.sink ++ [b] else p.sink
    draws := p.draws + 1 }

/-- One transaction on the sink port (R121): whether the answer was `ok`, and the port after it. -/
def Port.push (p : Port) (b : Byte) : Bool × Port :=
  match p.status, p.answers with
  | .neverRefuses, _ => (true, p.accept b)
  | .mayRefuse, [] => (true, p.accept b)
  | .mayRefuse, .ok :: as => (true, { p with answers := as }.accept b)
  | .mayRefuse, .refuse :: as => (false, { p with answers := as }.refuse b)

/-! ### The answer of an operation on an instance -/

/-- How an operation on an instance of type `σ` ends. -/
inductive Ans (σ α : Type) where
  /-- It returned, leaving the instance so. -/
  | ok (a : α) (s : σ)
  /-- It executed `raise Fail`: the rule is abandoned, the instance is left so. -/
  | failed (s : σ)
  /-- The model stops. -/
  | fault (f : Fault)
  deriving DecidableEq, Repr

/-- The statement after another (R13): it runs only if the first returned. -/
def Ans.bind {σ α β : Type} (x : Ans σ α) (f : α → σ → Ans σ β) : Ans σ β :=
  match x with
  | .ok a s => f a s
  | .failed s => .failed s
  | .fault e => .fault e

/-- An operation on a part of an instance, put back into the whole. -/
def Ans.within {σ τ α : Type} (x : Ans σ α) (put : σ → τ) : Ans τ α :=
  match x with
  | .ok a s => .ok a (put s)
  | .failed s => .failed (put s)
  | .fault e => .fault e

/-! ### Failure and end (R276, R277) -/

/-- `raise Fail(cause)` (R276): `STATUS.cause` is written, `phase` becomes `FAILED`, nothing else changes. -/
def Codec.raiseFail (cause : Cause) (c : Codec) : Codec :=
  { c with cause := causeCode cause, phase := .failed }

/-- `finish(success)` (R277): `phase` becomes `DONE`. There is no return from a failure; a run is left by the next
accepted command (R280). -/
def Codec.finish (c : Codec) : Codec := { c with phase := .done }

/-- An accepted `CMD` write (R252): the register is written and `cause` cleared; `done` and `failed` go with the
phase the start operation writes. -/
def Codec.acceptCmd (b : Byte) (c : Codec) : Codec := { c with cmd := b, cause := 0 }

/-- `SinkPush(b)` with the failure of every use (R121). -/
def Codec.sinkPush (b : Byte) (c : Codec) : Ans Codec Unit :=
  match c.port.push b with
  | (true, p) => .ok () { c with port := p }
  | (false, p) => .failed ({ c with port := p }.raiseFail .sinkFail)

/-- `SrcPull()` (R120). -/
def Codec.srcPull (c : Codec) : Option Byte × Codec :=
  let (b, p) := c.port.pull
  (b, { c with port := p })

/-! ### From an instance to the block -/

/-- The step of the block in which one operation ran on an instance: the instance is put back with `put` and the
result recorded; a raised failure is a next state. -/
def Ans.toStep {σ α : Type} (x : Ans σ α) (put : σ → State) (res : α → Result) :
    Host.Outcome State Fault Refusal :=
  match x with
  | .ok a c => .next { put c with result := res a }
  | .failed c => .next { put c with result := .failed }
  | .fault f => .fault f

/-- An operation on the common part of the instance a side names. -/
def onCodec {α : Type} (side : Side) (s : State) (f : Codec → Ans Codec α) (res : α → Result) :
    Host.Outcome State Fault Refusal :=
  (f (s.codec side)).toStep (s.setCodec side) res

/-- An operation on the encoder at the focus. -/
def onEnc {α : Type} (s : State) (f : Encoder → Ans Encoder α) (res : α → Result) :
    Host.Outcome State Fault Refusal :=
  (f s.enc).toStep (fun e => { s with enc := e }) res

/-- An operation on the decoder at the focus. -/
def onDec {α : Type} (s : State) (f : Decoder → Ans Decoder α) (res : α → Result) :
    Host.Outcome State Fault Refusal :=
  (f s.dec).toStep (fun d => { s with dec := d }) res

/-- An operation that only reads: its result is recorded. -/
def report (s : State) (r : Result) : Host.Outcome State Fault Refusal := .next { s with result := r }

/-- The result that is a code or the absent code. -/
def codeResult : Option Code → Result
  | some c => .code c
  | none => .noCode

end Sys2Proof.Machine
end

