-- ==== Sys2Proof/Machine/BitIo.lean ====
section
/-! DEFINITION. Byte ports and the bit packer and unpacker (spec/40_bitio.md R120 to R124): the shared operations
on an instance's common part, and the meanings of `SRC_PULL`, `SINK_PUSH`, `PUTBITS`, `FLUSHBITS`, `GETBITS`. -/

namespace Sys2Proof.Machine

/-- The packer after `acc <- acc | (val << nbits)`, `nbits <- nbits + wd` (R122). -/
def BitBuf.append (val wd : Nat) (u : BitBuf) : BitBuf where
  acc := u.acc ||| BitVec.ofNat 32 (val <<< u.nbits.toNat)
  nbits := BitVec.ofNat 6 (u.nbits.toNat + wd)

/-- The buffer after its `wd` oldest bits went: `acc >> wd`, `nbits - wd` (R122, R124). -/
def BitBuf.drop (wd : Nat) (u : BitBuf) : BitBuf where
  acc := u.acc >>> wd
  nbits := BitVec.ofNat 6 (u.nbits.toNat - wd)

/-- The value of the `wd` oldest bits, `acc[wd-1:0]` (R124). -/
def BitBuf.low (wd : Nat) (u : BitBuf) : Nat := u.acc.toNat % 2 ^ wd

/-- `while nbits >= 8: SinkPush(acc[7:0]); acc <- acc >> 8; nbits <- nbits - 8` (R122). The fuel bounds the
iterations. -/
def Codec.drain : Nat → Codec → Ans Codec Unit
  | 0, c => .ok () c
  | fuel + 1, c =>
    if 8 ≤ c.buf.nbits.toNat then
      (c.sinkPush (c.buf.acc.setWidth 8)).bind fun _ c => Codec.drain fuel { c with buf := c.buf.drop 8 }
    else .ok () c

/-- `PUTBITS(val, wd)` (R122). Eight iterations cover every value of the 6-bit `nbits`. -/
def Codec.putBits (val wd : Nat) (c : Codec) : Ans Codec Unit :=
  Codec.drain 8 { c with buf := c.buf.append val wd }

/-- A field a codec appends or takes, from free numbers: its width, one of `1 .. 16` (R122, R124), and a value below
`2 ^ wd`. -/
def freeFieldOf (x wd : Nat) : Nat × Nat := (x % 2 ^ (wd % 16 + 1), wd % 16 + 1)

/-- The value and the width of the field that `PUTBITS(val, wd)` appends: the operands in the range of R122, a free field
outside it, of width `wd` if only the value is out of range (log entry 13). -/
def BitBuf.field (val : BitVec 16) (wd : BitVec 5) (u : BitBuf) : Nat × Nat :=
  if isFieldWidth wd then
    if fitsField val wd then (val.toNat, wd.toNat)
    else ((Config.freeField u.acc u.nbits val.toNat wd.toNat).1 % 2 ^ wd.toNat, wd.toNat)
  else freeFieldOf (Config.freeField u.acc u.nbits val.toNat wd.toNat).1 (Config.freeField u.acc u.nbits val.toNat wd.toNat).2

/-- `PUTBITS` of the field its operands stand for. -/
def Codec.putField (val : BitVec 16) (wd : BitVec 5) (c : Codec) : Ans Codec Unit :=
  c.putBits (c.buf.field val wd).1 (c.buf.field val wd).2

/-- `FLUSHBITS` (R123). -/
def Codec.flushBits (c : Codec) : Ans Codec Unit :=
  if 0 < c.buf.nbits.toNat then
    (c.sinkPush (c.buf.acc.setWidth 8)).bind fun _ c => .ok () { c with buf := { acc := 0, nbits := 0 } }
  else .ok () c

/-- `while nbits < wd: b <- SrcPull(); if b == EOI: return EOI; acc <- acc | (b << nbits); nbits <- nbits + 8`
(R124): whether `wd` bits are in hand, and the instance. The fuel bounds the iterations. -/
def Codec.fill (wd : Nat) : Nat → Codec → Bool × Codec
  | 0, c => (decide (wd ≤ c.buf.nbits.toNat), c)
  | fuel + 1, c =>
    if c.buf.nbits.toNat < wd then
      match c.srcPull with
      | (none, c) => (false, c)
      | (some b, c) => Codec.fill wd fuel { c with buf := c.buf.append b.toNat 8 }
    else (true, c)

/-- `GETBITS(wd)` (R124): the value, or none for the sentinel `EOI`. Each iteration adds 8 bits, so `wd` of them
suffice. -/
def Codec.getBits (wd : Nat) (c : Codec) : Option Nat × Codec :=
  match c.fill wd wd with
  | (false, c) => (none, c)
  | (true, c) => (some (c.buf.low wd), { c with buf := c.buf.drop wd })

/-- A free field: `wd % 16 + 1` bits are consumed as R124 says, and the value is `x`. -/
def Codec.getFree (x wd : Nat) (c : Codec) : Option Nat × Codec :=
  ((c.getBits (wd % 16 + 1)).1.map fun _ => x, (c.getBits (wd % 16 + 1)).2)

/-- `GETBITS(wd)` with `wd` in the range of R124; outside it a free field whose value is below `2 ^ wd`
(log entry 13). -/
def Codec.getField (wd : BitVec 5) (c : Codec) : Option Nat × Codec :=
  if isFieldWidth wd then c.getBits wd.toNat
  else
    c.getFree ((Config.freeBits c.buf.acc c.buf.nbits wd.toNat).1 % 2 ^ wd.toNat)
      (Config.freeBits c.buf.acc c.buf.nbits wd.toNat).2

/-! ### Meanings -/

/-- The result of `SrcPull`. -/
def pullResult : Option Byte → Result
  | some b => .byte b
  | none => .eoi

/-- The result of `GETBITS`. -/
def bitsResult : Option Nat → Result
  | some v => .value v
  | none => .eoi

/-- `SRC_PULL` (R120): one byte leaves the source, or `EOI`. -/
def execSrcPull (side : Side) (s : State) : Host.Outcome State Fault Refusal :=
  onCodec side s (fun c => let (b, c) := c.srcPull; .ok b c) pullResult

/-- `SINK_PUSH(b)` (R121): the sink gets the byte, or refuses it and the run fails with `SINK_FAIL`. -/
def execSinkPush (side : Side) (b : Byte) (s : State) : Host.Outcome State Fault Refusal :=
  onCodec side s (fun c => c.sinkPush b) fun _ => .unit

/-- `PUTBITS(val, wd)` (R122), on the encoder's packer. -/
def execPutBits (val : BitVec 16) (wd : BitVec 5) (s : State) : Host.Outcome State Fault Refusal :=
  onCodec .enc s (fun c => c.putField val wd) fun _ => .unit

/-- `FLUSHBITS` (R123), on the encoder's packer. -/
def execFlushBits (s : State) : Host.Outcome State Fault Refusal :=
  onCodec .enc s (fun c => c.flushBits) fun _ => .unit

/-- `GETBITS(wd)` (R124), on the decoder's unpacker: the value or the sentinel; no failure by itself. -/
def execGetBits (wd : BitVec 5) (s : State) : Host.Outcome State Fault Refusal :=
  onCodec .dec s (fun c => .ok (c.getField wd).1 (c.getField wd).2) bitsResult

end Sys2Proof.Machine
end

