-- ==== Sys2Proof/Machine/AbCode.lean ====
section
/-! DEFINITION. The adjusted-binary code as operations (spec/41_abcode.md R140 to R142) and the two codeword formats
(spec/30_encoding.md R92 to R94): the meanings of `AB_PARAMS`, `AB_ENC`, `AB_DEC`, `ABS`, `ABL`. -/

namespace Sys2Proof.Machine

/-- `n` is an alphabet size, `258 .. 65536` (R140). -/
def alphabetSize (n : Nat) : Bool := Config.firstString ≤ n && n ≤ 2 ^ Config.maxBits

/-- The codeword of `v < n` (R141): it goes to the packer; the answer is its width. -/
def Codec.writeCode (v n : Nat) (c : Codec) : Ans Codec Nat :=
  let k := (abParams n).1
  let t := (abParams n).2
  if v < t then (c.putBits v k).bind fun _ c => .ok k c
  else
    let x := v + t
    (c.putBits (x >>> 1) k).bind fun _ c =>
    (c.putBits (x &&& 1) 1).bind fun _ c => .ok (k + 1) c

/-- `AB_ENC(v, n)` (R141): writes one codeword; the answer is its width. Outside the range of R141 (log entry 13): where
`v` is not below `n`, the codeword of a free code below `n`; where `n` is no alphabet size, a free field. -/
def Codec.abEnc (v n : Nat) (c : Codec) : Ans Codec Nat :=
  if alphabetSize n then
    if v < n then c.writeCode v n else c.writeCode (Config.freeCode c.buf.acc c.buf.nbits v n % n) n
  else
    let free := Config.freeCodeword c.buf.acc c.buf.nbits v n
    let field := freeFieldOf free.1 free.2
    (c.putBits field.1 field.2).bind fun _ c => .ok field.2 c

/-- Reading a codeword at alphabet size `n` (R142): the answer is its value; `TRUNCATED` where the source ends first. -/
def Codec.readCode (n : Nat) (c : Codec) : Ans Codec Nat :=
  let k := (abParams n).1
  let t := (abParams n).2
  match c.getBits k with
  | (none, c) => .failed (c.raiseFail .truncated)
  | (some p, c) =>
    if p < t then .ok p c
    else
      match c.getBits 1 with
      | (none, c) => .failed (c.raiseFail .truncated)
      | (some e, c) => .ok (longValue t p e) c

/-- `AB_DEC(n)` (R142): reads one codeword. Where `n` is no alphabet size, a free number of bits is consumed and the value
is free (log entry 13). -/
def Codec.abDec (n : Nat) (c : Codec) : Ans Codec Nat :=
  if alphabetSize n then c.readCode n
  else
    let free := Config.freeSymbol c.buf.acc c.buf.nbits n
    match c.getFree free.1 free.2 with
    | (none, c) => .failed (c.raiseFail .truncated)
    | (some v, c) => .ok v c

/-- `AB_PARAMS(n)` (R140); a free pair where `n` is no alphabet size (log entry 13). -/
def abParamsOf (n : Nat) : Nat × Nat := if alphabetSize n then abParams n else Config.freeParams n

/-! ### Meanings -/

/-- `AB_PARAMS(n)` (R140): the pair `(k, t)`. -/
def execAbParams (n : BitVec 17) (s : State) : Host.Outcome State Fault Refusal :=
  report s (.params (abParamsOf n.toNat).1 (abParamsOf n.toNat).2)

/-- `AB_ENC(v, n)` (R141), on the encoder: the codeword goes to the packer, the result is its width. -/
def execAbEnc (v : Code) (n : BitVec 17) (s : State) : Host.Outcome State Fault Refusal :=
  onCodec .enc s (fun c => c.abEnc v.toNat n.toNat) fun wd => .value wd

/-- `AB_DEC(n)` (R142), on the decoder: the result is the code value; `TRUNCATED` is taken. -/
def execAbDec (n : BitVec 17) (s : State) : Host.Outcome State Fault Refusal :=
  onCodec .dec s (fun c => c.abDec n.toNat) fun v => .code (BitVec.ofNat 16 v)

/-- `ABS` with field `p` (R92) at the alphabet size in force. An encoder writes the `k` bits of the codeword, the
result is its width; a decoder, which `GETBITS` has given the field, assembles the operand `v = p` (R94). -/
def execAbs (side : Side) (p : Code) (s : State) : Host.Outcome State Fault Refusal :=
  let n := (s.codec side).dict.n.toNat
  if shortInRange n p then
    match side with
    | .enc =>
      onCodec .enc s (fun c => (c.putBits p.toNat (abParams n).1).bind fun _ c => .ok (abParams n).1 c) fun wd => .value wd
    | .dec => report s (.code p)
  else .refused .notACodeword

/-- `ABL` with fields `p`, `e` (R93) at the alphabet size in force. An encoder writes `p` in `k` bits and then `e`,
the result is the width; a decoder assembles the operand `v = 2*p + e - t` (R94). -/
def execAbl (side : Side) (p : Code) (e : BitVec 1) (s : State) : Host.Outcome State Fault Refusal :=
  let n := (s.codec side).dict.n.toNat
  if longInRange n p then
    match side with
    | .enc =>
      onCodec .enc s
        (fun c => (c.putBits p.toNat (abParams n).1).bind fun _ c =>
          (c.putBits e.toNat 1).bind fun _ c => .ok ((abParams n).1 + 1) c) fun wd => .value wd
    | .dec => report s (.code (BitVec.ofNat 16 (longValue (abParams n).2 p.toNat e.toNat)))
  else .refused .notACodeword

end Sys2Proof.Machine
end

