-- ==== Sys2Proof/Machine/Dictionary.lean ====
section
/-! DEFINITION. The dictionary (spec/42_dictionary.md): reset, queries, victim selection, insertion and the alphabet
size, as operations on the registers and arrays of one instance; the encoder's index beside them; and the meanings
of the dictionary rows. -/

namespace Sys2Proof.Machine

/-! ### Queries -/

/-- `DICT_ASSIGNED(c)` (R161; spec/10_state.md R29). -/
def Dict.assigned (d : Dict) (c : Code) : Bool := c.toNat < Config.firstString || c.toNat < d.nextFree.toNat

/-- The pair of the string code `c`: none where it is not assigned or nothing has written it (U10). -/
def Dict.pair (d : Dict) (c : Code) : Option (Code × Byte) :=
  if d.assigned c then
    match readMem d.pfx c.toNat, readMem d.term c.toNat with
    | some p, some b => some (p, b)
    | _, _ => none
  else none

/-- `c` is an assigned string code. -/
def Dict.isAssignedString (d : Dict) (c : Code) : Bool :=
  isStringCode c && decide (c.toNat < d.nextFree.toNat)

/-- A code that denotes a string: assigned, and neither 256 nor 257 (R29). -/
def Dict.denotes (d : Dict) (c : Code) : Bool := d.assigned c && isDataCode c

/-- `DICT_ISLEAF(c)` (R165): no assigned string code other than `c` has prefix `c`. The codes looked at are those
with a listed prefix (log entry 3). -/
def Dict.isLeaf (d : Dict) (c : Code) : Bool :=
  d.pfx.all fun cell =>
    !(Config.firstString ≤ cell.1 && cell.1 < d.nextFree.toNat && cell.1 != c.toNat && cell.2 == c)

/-- `SUCC(c)` (R166): the next string code, 258 after the last. -/
def Dict.succ (d : Dict) (c : Code) : Code :=
  if c.toNat + 1 < d.max.toNat then BitVec.ofNat 16 (c.toNat + 1) else BitVec.ofNat 16 Config.firstString

/-- The scan of `DICT_VICTIM` (R167), the fuel being the codes not tried yet. -/
def Dict.scan (d : Dict) (excl : Code) : Nat → Code → Option Code
  | 0, _ => none
  | fuel + 1, c => if c != excl && d.isLeaf c then some c else Dict.scan d excl fuel (d.succ c)

/-- The code is a string code below `MAX`, `258 .. MAX - 1` (R166, R167). -/
def Dict.inScan (d : Dict) (c : Code) : Bool := isStringCode c && decide (c.toNat < d.max.toNat)

/-- `DICT_VICTIM(excl)` (R167). Where `excl` is 256 or 257, which is no prefix of an entry, the answer is free within the
codes R167 allows (log entry 13). -/
def Dict.victim (d : Dict) (excl : Code) : Option Code :=
  if isDataCode excl then d.scan excl (d.max.toNat - Config.firstString) d.cursor
  else (Config.freeVictim d.pfx d.nextFree d.max d.cursor excl).filter d.inScan

/-- `next_free < MAX`: the free list is not empty (R24). -/
def Dict.hasFree (d : Dict) : Bool := d.nextFree.toNat < d.max.toNat

/-- The head of the free list, as a code (R24). -/
def Dict.freeHead (d : Dict) : Code := d.nextFree.setWidth 16

/-- `DICT_PENDING(excl)` (R172). -/
def Dict.pending (d : Dict) (excl : Code) : Option Code :=
  if d.hasFree then some d.freeHead else d.victim excl

/-- The answer of `DICT_ISLEAF(c)`: R165 for an assigned string code, free for any other (log entry 13). -/
def Dict.leafAnswer (d : Dict) (c : Code) : Bool :=
  if d.isAssignedString c then d.isLeaf c else Config.freeLeaf d.pfx d.nextFree c

/-- The answer of `SUCC(c)`: R166 for `258 <= c < MAX`, free for any other (log entry 13). -/
def Dict.succAnswer (d : Dict) (c : Code) : Code :=
  if d.inScan c then d.succ c else Config.freeSucc d.max c

/-! ### Changes -/

/-- `DICT_RESET` on the registers (R160); `prefix` and `term` are not cleared. Their entries are then those of codes that
are not assigned, and a rule that expands such a code faults (log entry 2). -/
def Dict.clear (d : Dict) : Dict :=
  { d with
    nextFree := BitVec.ofNat 17 Config.firstString
    full := false
    cursor := BitVec.ofNat 16 Config.firstString
    n := BitVec.ofNat 17 Config.firstString }

/-- `maxbits <- m ; MAX <- 1 << m` (R21). -/
def Dict.configure (d : Dict) (m : Nat) : Dict :=
  { d with maxbits := BitVec.ofNat 5 m, max := BitVec.ofNat 17 (1 <<< m) }

/-- Writes the pair `(p, b)` into slot `c` (spec/20_memory.md R65). -/
def Dict.store (d : Dict) (c p : Code) (b : Byte) : Dict :=
  { d with pfx := writeMem d.pfx c.toNat p, term := writeMem d.term c.toNat b }

/-- The growing insertion on the arrays and registers (R168): the head of the free list gets the pair. -/
def Dict.grow (d : Dict) (p : Code) (b : Byte) : Dict :=
  let nextFree := BitVec.ofNat 17 (d.nextFree.toNat + 1)
  { d.store d.freeHead p b with
    nextFree := nextFree
    full := fullAfter d.full nextFree d.max }

/-- The recycling insertion on the arrays and registers (R169): the victim `v` gets the pair, the cursor goes to
the code after it. -/
def Dict.recycle (d : Dict) (v p : Code) (b : Byte) : Dict :=
  { d.store v p b with cursor := d.succ v }

/-- `DICT_INSERT(p, b)` where there is no index (R168 to R170): the code given to the string, if any. -/
def Dict.insert (d : Dict) (p : Code) (b : Byte) : Option Code × Dict :=
  if d.hasFree then (some d.freeHead, d.grow p b)
  else
    match d.victim p with
    | some v => (some v, d.recycle v p b)
    | none => (none, d)

/-- `ALPHA_STEP` (R176): `n <- min(n + 1, MAX)`. -/
def Dict.alphaStep (d : Dict) : Dict := { d with n := BitVec.ofNat 17 (min (d.n.toNat + 1) d.max.toNat) }

/-! ### The dictionary of an instance -/

/-- An instance with another dictionary. -/
def Codec.setDict (c : Codec) (d : Dict) : Codec := { c with dict := d }

/-- An encoder with another dictionary. -/
def Encoder.setDict (e : Encoder) (d : Dict) : Encoder := { e with codec := e.codec.setDict d }

/-- A decoder with another dictionary. -/
def Decoder.setDict (d : Decoder) (t : Dict) : Decoder := { d with codec := d.codec.setDict t }

/-- `DICT_RESET` of an encoder, the index included (R160). -/
def Encoder.dictReset (e : Encoder) : Encoder := { e.setDict e.codec.dict.clear with index := [] }

/-- `DICT_RESET` of a decoder (R160). -/
def Decoder.dictReset (d : Decoder) : Decoder := d.setDict d.codec.dict.clear

/-- `DICT_LOOKUP(p, b)` (R162). -/
def Encoder.lookup (e : Encoder) (p : Code) (b : Byte) : Option Code := readMem e.index (pairKey p b)

/-- The answer of `DICT_LOOKUP(p, b)`: R162 for a data code, free for 256 and 257 (log entry 13). -/
def Encoder.lookupAnswer (e : Encoder) (p : Code) (b : Byte) : Option Code :=
  if isDataCode p then e.lookup p b else Config.freeLookup e.index p b

/-- `INDEX_ADD(p, b, c)` (R163). -/
def Encoder.indexAdd (e : Encoder) (p : Code) (b : Byte) (c : Code) : Encoder :=
  { e with index := writeMem e.index (pairKey p b) c }

/-- `INDEX_REMOVE(p, b)` (R164). -/
def Encoder.indexRemove (e : Encoder) (p : Code) (b : Byte) : Encoder :=
  { e with index := eraseMem e.index (pairKey p b) }

/-- `DICT_INSERT(p, b)` of an encoder, growing (R168). -/
def Encoder.insertGrowing (e : Encoder) (p : Code) (b : Byte) : Encoder :=
  (e.setDict (e.codec.dict.grow p b)).indexAdd p b e.codec.dict.freeHead

/-- `DICT_INSERT(p, b)` of an encoder, recycling the victim `v` (R169): its own old pair leaves the index first. -/
def Encoder.insertRecycling (e : Encoder) (v p : Code) (b : Byte) : Ans Encoder (Option Code) :=
  match readMem e.codec.dict.pfx v.toNat, readMem e.codec.dict.term v.toNat with
  | some oldP, some oldB =>
    let e' := e.indexRemove oldP oldB
    .ok (some v) ((e'.setDict (e.codec.dict.recycle v p b)).indexAdd p b v)
  | _, _ => .fault .unspecifiedRead

/-- `DICT_INSERT(p, b)` of an encoder (R168 to R170): the state of the dictionary selects the case. -/
def Encoder.dictInsert (e : Encoder) (p : Code) (b : Byte) : Ans Encoder (Option Code) :=
  if e.codec.dict.hasFree then .ok (some e.codec.dict.freeHead) (e.insertGrowing p b)
  else
    match e.codec.dict.victim p with
    | some v => e.insertRecycling v p b
    | none => .ok none e

/-- `DICT_INSERT(p, b)` of a decoder (R168 to R170). -/
def Decoder.dictInsert (d : Decoder) (p : Code) (b : Byte) : Ans Decoder (Option Code) :=
  .ok (d.codec.dict.insert p b).1 (d.setDict (d.codec.dict.insert p b).2)

/-- `DICT_INSERT(p, b)` on the instance a side names. -/
def dictInsertOn (side : Side) (p : Code) (b : Byte) (s : State) : Host.Outcome State Fault Refusal :=
  match side with
  | .enc => onEnc s (fun e => e.dictInsert p b) codeResult
  | .dec => onDec s (fun d => d.dictInsert p b) codeResult

/-! ### Meanings -/

/-- `DICT_RESET` (R160). -/
def execDictReset (side : Side) (s : State) : Host.Outcome State Fault Refusal :=
  match side with
  | .enc => onEnc s (fun e => .ok () e.dictReset) fun _ => .unit
  | .dec => onDec s (fun d => .ok () d.dictReset) fun _ => .unit

/-- `DICT_ASSIGNED(c)` (R161). -/
def execDictAssigned (side : Side) (c : Code) (s : State) : Host.Outcome State Fault Refusal :=
  report s (.flag ((s.codec side).dict.assigned c))

/-- `DICT_LOOKUP(p, b)` (R162), on the encoder. -/
def execDictLookup (p : Code) (b : Byte) (s : State) : Host.Outcome State Fault Refusal :=
  report s (codeResult (s.enc.lookupAnswer p b))

/-- `INDEX_ADD(p, b, c)` (R163), on the encoder. -/
def execIndexAdd (p : Code) (b : Byte) (c : Code) (s : State) : Host.Outcome State Fault Refusal :=
  onEnc s (fun e => .ok () (e.indexAdd p b c)) fun _ => .unit

/-- `INDEX_REMOVE(p, b)` (R164), on the encoder. -/
def execIndexRemove (p : Code) (b : Byte) (s : State) : Host.Outcome State Fault Refusal :=
  onEnc s (fun e => .ok () (e.indexRemove p b)) fun _ => .unit

/-- `DICT_ISLEAF(c)` (R165). -/
def execDictIsLeaf (side : Side) (c : Code) (s : State) : Host.Outcome State Fault Refusal :=
  report s (.flag ((s.codec side).dict.leafAnswer c))

/-- `SUCC(c)` (R166). -/
def execSucc (side : Side) (c : Code) (s : State) : Host.Outcome State Fault Refusal :=
  report s (.code ((s.codec side).dict.succAnswer c))

/-- `DICT_VICTIM(excl)` (R167). -/
def execDictVictim (side : Side) (excl : Code) (s : State) : Host.Outcome State Fault Refusal :=
  report s (codeResult ((s.codec side).dict.victim excl))

/-- `DICT_PENDING(excl)` (R172). -/
def execDictPending (side : Side) (excl : Code) (s : State) : Host.Outcome State Fault Refusal :=
  report s (codeResult ((s.codec side).dict.pending excl))

/-- `DICT_INSERT(p, b)`, the row of the growing case (R168). The three rows are one operation whose case the
dictionary selects (log entry 12). -/
def execDictInsertGrowing (side : Side) (p : Code) (b : Byte) (s : State) : Host.Outcome State Fault Refusal :=
  dictInsertOn side p b s

/-- `DICT_INSERT(p, b)`, the row of the recycling case (R169). -/
def execDictInsertRecycling (side : Side) (p : Code) (b : Byte) (s : State) : Host.Outcome State Fault Refusal :=
  dictInsertOn side p b s

/-- `DICT_INSERT(p, b)`, the row of the case without a victim (R170). -/
def execDictInsertNoVictim (side : Side) (p : Code) (b : Byte) (s : State) : Host.Outcome State Fault Refusal :=
  dictInsertOn side p b s

/-- `ALPHA_STEP` (R176). -/
def execAlphaStep (side : Side) (s : State) : Host.Outcome State Fault Refusal :=
  onCodec side s (fun c => .ok () (c.setDict c.dict.alphaStep)) fun _ => .unit

end Sys2Proof.Machine
end

