-- ==== Sys2Proof/Machine/Decoder.lean ====
section
/-! DEFINITION. The decoder (spec/44_decoder.md R220 to R232): start, header, one symbol, expansion, dictionary growth,
and the meanings of the tokens and of the decoder's rows. -/

namespace Sys2Proof.Machine

/-- A decoder with another common part. -/
def Decoder.setCodec (d : Decoder) (c : Codec) : Decoder := { d with codec := c }

/-- An operation on the decoder's common part. -/
def Decoder.onCodec {α : Type} (d : Decoder) (f : Codec → Ans Codec α) : Ans Decoder α :=
  (f d.codec).within d.setCodec

/-- `raise Fail(cause)` in a decoder's rule (R276). -/
def Decoder.raiseFail (cause : Cause) (d : Decoder) : Decoder := d.setCodec (d.codec.raiseFail cause)

/-- `SinkPush(b)` in a decoder's rule (R121). -/
def Decoder.sinkPush (b : Byte) (d : Decoder) : Ans Decoder Unit := d.onCodec fun c => c.sinkPush b

/-- `phase <- X`. -/
def Decoder.goto (ph : Phase) (d : Decoder) : Decoder := d.setCodec { d.codec with phase := ph }

/-! ### Start and header -/

/-- `DEC_START` (R220). -/
def Decoder.start (d : Decoder) : Decoder :=
  { d with
    codec := { d.codec with buf := { acc := 0, nbits := 0 }, phase := .dHdr }
    prev := none
    sp := 0 }

/-- The `HDR` token with byte `b` (R221): the whole byte is compared. -/
def Decoder.header (b : Byte) (d : Decoder) : Ans Decoder Unit :=
  if isLegalMaxbits b.toNat then
    .ok () (((d.setDict (d.codec.dict.configure b.toNat)).dictReset).goto .dSymbol)
  else .failed (d.raiseFail .badHeader)

/-- `D_HDR` (R221): the header byte is pulled; without one, `TRUNCATED`. -/
def Decoder.hdr (d : Decoder) : Ans Decoder Unit :=
  match d.codec.srcPull with
  | (none, c) => .failed ((d.setCodec c).raiseFail .truncated)
  | (some b, c) => (d.setCodec c).header b

/-! ### Expansion (R229) -/

/-- `while c >= 258`: the walk to the root, each `term[c]` onto the stack; the answer is the code the chain ends in.
The guard `sp == MAX - 258` is the rule's; the fuel is one more than the iterations it allows. The pair of a code that is
not assigned is unspecified, also where a `DICT_RESET` or an earlier run left one in the slot (R47, R160, U10): a read of
it is the fault (log entry 2). -/
def Decoder.walk : Nat → Code → Decoder → Ans Decoder Code
  | 0, c, d => if Config.firstString ≤ c.toNat then .failed (d.raiseFail .badCode) else .ok c d
  | fuel + 1, c, d =>
    if Config.firstString ≤ c.toNat then
      if d.sp.toNat = d.codec.dict.max.toNat - Config.firstString then .failed (d.raiseFail .badCode)
      else
        match d.codec.dict.pair c with
        | some (p, b) =>
          Decoder.walk fuel p
            { d with
              stk := writeMem d.stk d.sp.toNat b
              sp := BitVec.ofNat 17 (d.sp.toNat + 1) }
        | none => .fault .unspecifiedRead
    else .ok c d

/-- `while sp > 0: sp <- sp - 1; SinkPush(stk[sp])`, the argument being `sp`. -/
def Decoder.popAll : Nat → Decoder → Ans Decoder Unit
  | 0, d => .ok () d
  | k + 1, d =>
    match readMem d.stk k with
    | some b => (({ d with sp := BitVec.ofNat 17 k } : Decoder).sinkPush b).bind fun _ d => Decoder.popAll k d
    | none => .fault .unspecifiedRead

/-- `EXPAND(c)` (R229): pushes `string(c)`; the answer is its first byte. -/
def Decoder.expand (c : Code) (d : Decoder) : Ans Decoder Byte :=
  (Decoder.walk (d.codec.dict.max.toNat - Config.firstString + 1) c { d with sp := 0 }).bind fun root d =>
  if isDataCode root then
    (d.sinkPush (root.setWidth 8)).bind fun _ d =>
    (Decoder.popAll d.sp.toNat d).bind fun _ d => .ok (root.setWidth 8) d
  else .failed (d.raiseFail .badCode)

/-! ### Tokens -/

/-- `LIT(c)` (R226). -/
def Decoder.lit (b : Byte) (d : Decoder) : Ans Decoder Byte := (d.sinkPush b).bind fun _ d => .ok b d

/-- `STR(c)`, ordinary (R227). -/
def Decoder.str (c : Code) (d : Decoder) : Ans Decoder Byte :=
  if d.codec.dict.assigned c then d.expand c else .failed (d.raiseFail .badCode)

/-- `c` is the pending code (R225): the slot the insertion with prefix `prev` will take. There is none while
`prev` is none. -/
def Decoder.isPending (c : Code) (d : Decoder) : Bool :=
  match d.prev with
  | some p => d.codec.dict.pending p == some c
  | none => false

/-- `KWKWK` (R228): `string(prev)` and then its own first byte. With `prev` none no code is pending, and a code that
is neither assigned nor pending fails with `BAD_CODE` (spec/30_encoding.md R97). -/
def Decoder.kwkwk (d : Decoder) : Ans Decoder Byte :=
  match d.prev with
  | some p => (d.expand p).bind fun fb d => (d.sinkPush fb).bind fun _ d => .ok fb d
  | none => .failed (d.raiseFail .badCode)

/-- A string token: KwKwK if its code is the pending one, ordinary if not (spec/30_encoding.md R95). -/
def Decoder.strToken (c : Code) (d : Decoder) : Ans Decoder Byte :=
  if d.isPending c then d.kwkwk else d.str c

/-- `CLEAR` (R224). -/
def Decoder.clear (d : Decoder) : Decoder := { d.dictReset with prev := none }

/-! ### One symbol -/

/-- `DEC_INSERT(fb)` (R230). -/
def Decoder.decInsert (fb : Byte) (d : Decoder) : Ans Decoder (Option Code) :=
  match d.prev with
  | some p => d.dictInsert p fb
  | none => .ok none d

/-- `DEC_NEXT(c)` (R231). -/
def Decoder.decNext (c : Code) (d : Decoder) : Decoder :=
  { d.setDict d.codec.dict.alphaStep with prev := some c }

/-- The token of a data code (R225): the pending code is tested first, with the dictionary as it stands. -/
def Decoder.dataToken (c : Code) (d : Decoder) : Ans Decoder Byte :=
  if d.isPending c then d.kwkwk
  else if c.toNat ≤ 255 then d.lit (c.setWidth 8)
  else d.str c

/-- `DATA(c)` (R225). -/
def Decoder.data (c : Code) (d : Decoder) : Ans Decoder Unit :=
  (d.dataToken c).bind fun fb d => (d.decInsert fb).bind fun _ d => .ok () (d.decNext c)

/-- What `D_SYMBOL` does with the code it read (R222). -/
def Decoder.symbol (c : Code) (d : Decoder) : Ans Decoder Unit :=
  if c.toNat = Config.endOfStream then .ok () (d.setCodec d.codec.finish)
  else if c.toNat = Config.clear then .ok () (d.clear.goto .dSymbol)
  else (d.data c).bind fun _ d => .ok () (d.goto .dSymbol)

/-- `D_SYMBOL` (R222). -/
def Decoder.dSymbol (d : Decoder) : Ans Decoder Unit :=
  (d.onCodec fun x => x.abDec x.dict.n.toNat).bind fun v d => d.symbol (BitVec.ofNat 16 v)

/-! ### Meanings -/

/-- `HDR` (R221). -/
def execHdr (b : Byte) (s : State) : Host.Outcome State Fault Refusal :=
  onDec s (fun d => d.header b) fun _ => .unit

/-- `LIT` (R226): pushes the byte; the result is `fb`. -/
def execLit (b : Byte) (s : State) : Host.Outcome State Fault Refusal :=
  onDec s (fun d => d.lit b) .byte

/-- `CLEAR` (R224). -/
def execClear (s : State) : Host.Outcome State Fault Refusal :=
  onDec s (fun d => .ok () d.clear) fun _ => .unit

/-- `END` (R223): `finish(success)`. -/
def execEndTok (s : State) : Host.Outcome State Fault Refusal :=
  onDec s (fun d => .ok () (d.setCodec d.codec.finish)) fun _ => .unit

/-- `STR` (R227): the row of the ordinary case. The two string rows are one token whose case the decoder's state
selects (log entry 12); the result is `fb`. -/
def execStr (c : Code) (s : State) : Host.Outcome State Fault Refusal :=
  onDec s (fun d => d.strToken c) .byte

/-- `STR (KwKwK)` (R228): the row of the pending case. -/
def execStrKwKwK (c : Code) (s : State) : Host.Outcome State Fault Refusal :=
  onDec s (fun d => d.strToken c) .byte

/-- `PAD` (R232): the decoder reads nothing after `END`, so the padding has no effect at all. -/
def execPad (_j : BitVec 3) (s : State) : Host.Outcome State Fault Refusal := .next s

/-- `DEC_START` (R220). -/
def execDecStart (s : State) : Host.Outcome State Fault Refusal :=
  onDec s (fun d => .ok () d.start) fun _ => .unit

/-- `D_HDR` (R221). -/
def execDHdr (s : State) : Host.Outcome State Fault Refusal :=
  onDec s (fun d => d.hdr) fun _ => .unit

/-- `D_SYMBOL` (R222). -/
def execDSymbol (s : State) : Host.Outcome State Fault Refusal :=
  onDec s (fun d => d.dSymbol) fun _ => .unit

/-- `DATA(c)` (R225). -/
def execData (c : Code) (s : State) : Host.Outcome State Fault Refusal :=
  onDec s (fun d => d.data c) fun _ => .unit

/-- `EXPAND(c)` (R229): the result is the first byte. -/
def execExpand (c : Code) (s : State) : Host.Outcome State Fault Refusal :=
  onDec s (fun d => d.expand c) .byte

/-- `DEC_INSERT(fb)` (R230): the result is the slot used, if any. -/
def execDecInsert (fb : Byte) (s : State) : Host.Outcome State Fault Refusal :=
  onDec s (fun d => d.decInsert fb) codeResult

/-- `DEC_NEXT(c)` (R231). -/
def execDecNext (c : Code) (s : State) : Host.Outcome State Fault Refusal :=
  onDec s (fun d => .ok () (d.decNext c)) fun _ => .unit

end Sys2Proof.Machine
end

