-- ==== Sys2Proof/Machine/Encoder.lean ====
section
/-! DEFINITION. The encoder (spec/43_encoder.md R191 to R201): start, the matching loop, emission, the performance
monitor and the dictionary flush, and the meanings of the encoder's rows. -/

namespace Sys2Proof.Machine

/-- An encoder with another common part. -/
def Encoder.setCodec (e : Encoder) (c : Codec) : Encoder := { e with codec := c }

/-- An operation on the encoder's common part. -/
def Encoder.onCodec {α : Type} (e : Encoder) (f : Codec → Ans Codec α) : Ans Encoder α :=
  (f e.codec).within e.setCodec

/-! ### Emission (R196) -/

/-- `EMIT_CTRL(c)` for `CLEAR` and `END`: `AB_ENC(c, n)`; `n` is not stepped. -/
def Encoder.emitCtrl (c : Nat) (e : Encoder) : Ans Encoder Nat :=
  e.onCodec fun x => x.abEnc c x.dict.n.toNat

/-- `EMIT_DATA(c)`: `AB_ENC(c, n)`, then `ALPHA_STEP`; the answer is the width. What a code that is not below `n` writes
is `AB_ENC`'s free value (log entry 13). -/
def Encoder.emitData (c : Code) (e : Encoder) : Ans Encoder Nat :=
  e.onCodec fun x => (x.abEnc c.toNat x.dict.n.toNat).bind fun wd x => .ok wd (x.setDict x.dict.alphaStep)

/-- The code that `EMIT_DATA(c)` emits: `c`, or a free code where `c` is 256 or 257, no data code (R196; log entry 13). -/
def Encoder.dataCode (c : Code) (e : Encoder) : Code :=
  if isDataCode c then c else Config.freeData e.codec.buf.acc e.codec.buf.nbits e.codec.dict.n c

/-! ### Performance monitor (R197 to R199) -/

/-- The reset value of a policy's own monitor state (R199); the default's kind has none but its two counters. -/
def FlushPolicy.resetState : FlushPolicy → Nat
  | .window _ _ => 0
  | .other number => Config.otherPolicyReset number

/-- `MON_RESET` (R197). -/
def Encoder.monReset (e : Encoder) : Encoder := { e with monIn := 0, monOut := 0, monOther := e.policy.resetState }

/-- `MON_UPDATE(mlen, wd)`: whether to flush, and the encoder. The window policy is R198; any other policy is a
function of the monitor state, `mlen`, `wd` and `full`, and its flush counts only when `full = 1` (R199). -/
def Encoder.monUpdate (mlen wd : Nat) (e : Encoder) : Bool × Encoder :=
  let full := e.codec.dict.full
  match e.policy with
  | .window bytes bits =>
    let monIn := BitVec.ofNat 32 (e.monIn.toNat + mlen)
    let monOut := BitVec.ofNat 32 (e.monOut.toNat + wd)
    if bytes ≤ monIn.toNat then
      (full && decide (8 * monIn.toNat + bits < monOut.toNat), { e with monIn := 0, monOut := 0 })
    else (false, { e with monIn := monIn, monOut := monOut })
  | .other number =>
    let (state, flush) := Config.otherPolicy number e.monOther mlen wd full
    (full && flush, { e with monOther := state })

/-- `ENC_FLUSHDICT` (R200): `CLEAR` with the current `n`, then both resets; the packer is not flushed. -/
def Encoder.flushDict (e : Encoder) : Ans Encoder Unit :=
  (e.emitCtrl Config.clear).bind fun _ e => .ok () e.dictReset.monReset

/-! ### Start and finish -/

/-- What `ENC_START(maxbits)` initialises before the header is pushed (R191; spec/70_reset_and_hazards.md R311). `mlen`,
which R47 leaves unspecified until `w_code` is set, keeps the value it had (log entry 29). -/
def Encoder.initialise (m : Nat) (e : Encoder) : Encoder :=
  ({ e with
      codec := { e.codec with dict := e.codec.dict.configure m, buf := { acc := 0, nbits := 0 } }
      wCode := none } : Encoder).dictReset.monReset

/-- `phase <- X`. -/
def Encoder.goto (ph : Phase) (e : Encoder) : Encoder := e.setCodec { e.codec with phase := ph }

/-- `ENC_START(maxbits)` (R191). -/
def Encoder.start (m : Nat) (e : Encoder) : Ans Encoder Unit :=
  if isLegalMaxbits m then
    ((e.initialise m).onCodec fun c => c.sinkPush (BitVec.ofNat 8 m)).bind fun _ e => .ok () (e.goto .eFirst)
  else .failed (e.setCodec (e.codec.raiseFail .badHeader))

/-- `ENC_FINISH` (R201): `FLUSHBITS ; finish(success)`. -/
def Encoder.encFinish (e : Encoder) : Ans Encoder Unit :=
  (e.onCodec Codec.flushBits).bind fun _ e => .ok () (e.setCodec e.codec.finish)

/-! ### The matching loop -/

/-- `w_code <- c ; mlen <- len`. -/
def Encoder.setMatch (c : Code) (len : Nat) (e : Encoder) : Encoder :=
  { e with wCode := some c, mlen := BitVec.ofNat 16 len }

/-- `ENC_EXTEND(c)` (R194). -/
def Encoder.extend (c : Code) (e : Encoder) : Encoder := e.setMatch c (e.mlen.toNat + 1)

/-- The flush after a miss, if the monitor asks for it (R195). -/
def Encoder.flushIf (flush : Bool) (e : Encoder) : Ans Encoder Unit :=
  if flush then e.flushDict else .ok () e

/-- `ENC_MISS(b)` (R195). -/
def Encoder.miss (b : Byte) (e : Encoder) : Ans Encoder Unit :=
  match e.wCode with
  | none => .fault .noMatch
  | some w =>
    (e.emitData w).bind fun wd e =>
    (e.dictInsert w b).bind fun _ e =>
    let (flush, e) := e.monUpdate e.mlen.toNat wd
    (e.flushIf flush).bind fun _ e => .ok () (e.setMatch (b.setWidth 16) 1)

/-- `E_FIRST` (R192). -/
def Encoder.first (e : Encoder) : Ans Encoder Unit :=
  match e.codec.srcPull with
  | (none, c) => ((e.setCodec c).emitCtrl Config.endOfStream).bind fun _ e => e.encFinish
  | (some b, c) => .ok () (((e.setCodec c).setMatch (b.setWidth 16) 1).goto .eNext)

/-- `E_NEXT` (R193). -/
def Encoder.next (e : Encoder) : Ans Encoder Unit :=
  match e.wCode, e.codec.srcPull with
  | none, _ => .fault .noMatch
  | some w, (none, c) =>
    ((e.setCodec c).emitData w).bind fun _ e =>
    (e.emitCtrl Config.endOfStream).bind fun _ e => e.encFinish
  | some w, (some b, c) =>
    let e := e.setCodec c
    match e.lookup w b with
    | some x => .ok () ((e.extend x).goto .eNext)
    | none => (e.miss b).bind fun _ e => .ok () (e.goto .eNext)

/-! ### Meanings -/

/-- `ENC_START(maxbits)` (R191): an illegal `maxbits` fails with `BAD_HEADER` and pushes nothing. -/
def execEncStart (m : BitVec 5) (s : State) : Host.Outcome State Fault Refusal :=
  onEnc s (fun e => e.start m.toNat) fun _ => .unit

/-- `E_FIRST` (R192). -/
def execEFirst (s : State) : Host.Outcome State Fault Refusal :=
  onEnc s (fun e => e.first) fun _ => .unit

/-- `E_NEXT` (R193). -/
def execENext (s : State) : Host.Outcome State Fault Refusal :=
  onEnc s (fun e => e.next) fun _ => .unit

/-- `ENC_EXTEND(c)` (R194). -/
def execEncExtend (c : Code) (s : State) : Host.Outcome State Fault Refusal :=
  onEnc s (fun e => .ok () (e.extend c)) fun _ => .unit

/-- `ENC_MISS(b)` (R195). -/
def execEncMiss (b : Byte) (s : State) : Host.Outcome State Fault Refusal :=
  onEnc s (fun e => e.miss b) fun _ => .unit

/-- `EMIT_DATA(c)` (R196): the result is the codeword's width. -/
def execEmitData (c : Code) (s : State) : Host.Outcome State Fault Refusal :=
  onEnc s (fun e => e.emitData (e.dataCode c)) fun wd => .value wd

/-- `MON_RESET` (R197). -/
def execMonReset (s : State) : Host.Outcome State Fault Refusal :=
  onEnc s (fun e => .ok () e.monReset) fun _ => .unit

/-- `MON_UPDATE(mlen, wd)` (R198, R199): the result is whether to flush. -/
def execMonUpdate (mlen : BitVec 16) (wd : BitVec 5) (s : State) : Host.Outcome State Fault Refusal :=
  onEnc s (fun e => let (flush, e) := e.monUpdate mlen.toNat wd.toNat; .ok flush e) fun flush => .flag flush

/-- `ENC_FLUSHDICT` (R200). -/
def execEncFlushDict (s : State) : Host.Outcome State Fault Refusal :=
  onEnc s (fun e => e.flushDict) fun _ => .unit

/-- `ENC_FINISH` (R201). -/
def execEncFinish (s : State) : Host.Outcome State Fault Refusal :=
  onEnc s (fun e => e.encFinish) fun _ => .unit

end Sys2Proof.Machine
end

