-- ==== Sys2Proof/Machine/Commands.lean ====
section
/-! DEFINITION. The host commands (spec/45_commands.md R250 to R252), the failure and the end of a run as operations of
their own (spec/60_exceptions.md R276, R277), the reset input (spec/70_reset_and_hazards.md R310): the meanings of
`COMPRESS`, `DECOMPRESS`, `raise Fail`, `finish`. -/

namespace Sys2Proof.Machine

/-- `STATUS <- busy`, then `ENC_START(maxbits)` (R250). -/
def Encoder.compress (m : BitVec 5) (ignored : BitVec 2) (e : Encoder) : Ans Encoder Unit :=
  (e.setCodec (e.codec.acceptCmd (ignored ++ m ++ 0#1))).start m.toNat

/-- `STATUS <- busy`, then `DEC_START` (R251). -/
def Decoder.decompress (ignored : BitVec 7) (d : Decoder) : Decoder :=
  (d.setCodec (d.codec.acceptCmd (ignored ++ 1#1))).start

/-- The reset input of an encoder (R310; log entry 10): the host's wiring and the policy are no state of it. -/
def Encoder.assertReset (e : Encoder) : Encoder := Encoder.reset e.codec.port e.policy

/-- The reset input of a decoder (R310; log entry 10). -/
def Decoder.assertReset (d : Decoder) : Decoder := Decoder.reset d.codec.port

/-! ### Meanings -/

/-- `COMPRESS maxbits` (R250), a write to the encoder's `CMD`: ignored while busy (R252). -/
def execCompress (m : BitVec 5) (ignored : BitVec 2) (s : State) : Host.Outcome State Fault Refusal :=
  if s.enc.codec.busy then .next s else onEnc s (fun e => e.compress m ignored) fun _ => .unit

/-- `DECOMPRESS` (R251), a write to the decoder's `CMD`: ignored while busy (R252). -/
def execDecompress (ignored : BitVec 7) (s : State) : Host.Outcome State Fault Refusal :=
  if s.dec.codec.busy then .next s else onDec s (fun d => .ok () (d.decompress ignored)) fun _ => .unit

/-- `raise Fail(cause)` (R276). -/
def execRaiseFail (side : Side) (cause : Cause) (s : State) : Host.Outcome State Fault Refusal :=
  onCodec side s (fun c => (.failed (c.raiseFail cause) : Ans Codec Unit)) fun _ => .unit

/-- `finish(success)` (R277). -/
def execFinish (side : Side) (s : State) : Host.Outcome State Fault Refusal :=
  onCodec side s (fun c => .ok () c.finish) fun _ => .unit

end Sys2Proof.Machine
end

