-- ==== Sys2Proof/Machine/Dispatch.lean ====
section
/-! DEFINITION. What each instruction does: one arm per constructor of `Instr`, each one call of its meaning. -/

namespace Sys2Proof.Machine

/-- Executes one instruction on the block. -/
def exec (i : Instr) (s : State) : Host.Outcome State Fault Refusal :=
  match i with
  | .compress maxbits ignored => Sys2Proof.Machine.execCompress maxbits ignored s
  | .decompress ignored => Sys2Proof.Machine.execDecompress ignored s
  | .hdr b => Sys2Proof.Machine.execHdr b s
  | .lit b => Sys2Proof.Machine.execLit b s
  | .clear => Sys2Proof.Machine.execClear s
  | .endTok => Sys2Proof.Machine.execEndTok s
  | .str c => Sys2Proof.Machine.execStr c s
  | .strKwKwK c => Sys2Proof.Machine.execStrKwKwK c s
  | .pad j => Sys2Proof.Machine.execPad j s
  | .abs side p => Sys2Proof.Machine.execAbs side p s
  | .abl side p e => Sys2Proof.Machine.execAbl side p e s
  | .srcPull side => Sys2Proof.Machine.execSrcPull side s
  | .sinkPush side b => Sys2Proof.Machine.execSinkPush side b s
  | .putBits val wd => Sys2Proof.Machine.execPutBits val wd s
  | .flushBits => Sys2Proof.Machine.execFlushBits s
  | .getBits wd => Sys2Proof.Machine.execGetBits wd s
  | .abParams n => Sys2Proof.Machine.execAbParams n s
  | .abEnc v n => Sys2Proof.Machine.execAbEnc v n s
  | .abDec n => Sys2Proof.Machine.execAbDec n s
  | .dictReset side => Sys2Proof.Machine.execDictReset side s
  | .dictAssigned side c => Sys2Proof.Machine.execDictAssigned side c s
  | .dictLookup p b => Sys2Proof.Machine.execDictLookup p b s
  | .indexAdd p b c => Sys2Proof.Machine.execIndexAdd p b c s
  | .indexRemove p b => Sys2Proof.Machine.execIndexRemove p b s
  | .dictIsLeaf side c => Sys2Proof.Machine.execDictIsLeaf side c s
  | .succ side c => Sys2Proof.Machine.execSucc side c s
  | .dictVictim side excl => Sys2Proof.Machine.execDictVictim side excl s
  | .dictPending side excl => Sys2Proof.Machine.execDictPending side excl s
  | .dictInsertGrowing side p b => Sys2Proof.Machine.execDictInsertGrowing side p b s
  | .dictInsertRecycling side p b => Sys2Proof.Machine.execDictInsertRecycling side p b s
  | .dictInsertNoVictim side p b => Sys2Proof.Machine.execDictInsertNoVictim side p b s
  | .alphaStep side => Sys2Proof.Machine.execAlphaStep side s
  | .encStart maxbits => Sys2Proof.Machine.execEncStart maxbits s
  | .eFirst => Sys2Proof.Machine.execEFirst s
  | .eNext => Sys2Proof.Machine.execENext s
  | .encExtend c => Sys2Proof.Machine.execEncExtend c s
  | .encMiss b => Sys2Proof.Machine.execEncMiss b s
  | .emitData c => Sys2Proof.Machine.execEmitData c s
  | .monReset => Sys2Proof.Machine.execMonReset s
  | .monUpdate mlen wd => Sys2Proof.Machine.execMonUpdate mlen wd s
  | .encFlushDict => Sys2Proof.Machine.execEncFlushDict s
  | .encFinish => Sys2Proof.Machine.execEncFinish s
  | .decStart => Sys2Proof.Machine.execDecStart s
  | .dHdr => Sys2Proof.Machine.execDHdr s
  | .dSymbol => Sys2Proof.Machine.execDSymbol s
  | .data c => Sys2Proof.Machine.execData c s
  | .expand c => Sys2Proof.Machine.execExpand c s
  | .decInsert fb => Sys2Proof.Machine.execDecInsert fb s
  | .decNext c => Sys2Proof.Machine.execDecNext c s
  | .raiseFail side cause => Sys2Proof.Machine.execRaiseFail side cause s
  | .finish side => Sys2Proof.Machine.execFinish side s

end Sys2Proof.Machine
end

