-- ==== Sys2Proof/Machine/Agents.lean ====
section
/-! DEFINITION. Who acts next and what it does (spec/00_scope.md R6; spec/45_commands.md R252, R256; spec/10_state.md
R40): the schedule, the rule a phase selects, `CMD` writes, `STATUS` reads, the reset input, the host's wiring; and
the placing of one instruction where the machine takes its next one. -/

namespace Sys2Proof.Machine

/-! ### What the next instruction is -/

/-- The rule the phase of an instance selects (R40); `IDLE`, `DONE`, `FAILED` have no step, and neither kind of
instance has the other's phases. -/
def phaseInstr : Side → Phase → Option Instr
  | .enc, .eFirst => some .eFirst
  | .enc, .eNext => some .eNext
  | .dec, .dHdr => some .dHdr
  | .dec, .dSymbol => some .dSymbol
  | _, _ => none

/-- The command a write of `CMD` starts: a byte for the other kind of instance is ignored (R252). -/
def cmdInstr (side : Side) (b : Byte) : Option Instr :=
  match side, decodeCmd b with
  | .enc, .compress m ig => some (.compress m ig)
  | .dec, .decompress ig => some (.decompress ig)
  | _, _ => none

/-- Who steps when nothing is scheduled: the encoder while it is busy, else the decoder (log entry 9). -/
def State.turn (s : State) : Option Side :=
  if s.enc.codec.busy then some .enc
  else if s.dec.codec.busy then some .dec
  else none

/-- The instruction the next step executes, if the next event is a command or a step of an instance. -/
def State.nextInstr (s : State) : Option Instr :=
  match s.sched with
  | [] => s.turn.bind fun side => phaseInstr side (s.codec side).phase
  | .run side :: _ => phaseInstr side (s.codec side).phase
  | .writeCmd side b :: _ => cmdInstr side b
  | .readStatus _ :: _ => none
  | .assertReset _ :: _ => none
  | .connect _ _ _ _ :: _ => none
  | .focus _ _ :: _ => none

/-- The state with the next event taken off the schedule. -/
def State.popped (s : State) : State := { s with sched := s.sched.tail }

/-! ### Host actions -/

/-- A step asked of an instance whose phase has none: it waits, unless the phase is one it cannot be in. -/
def waitStep (side : Side) (s : State) : Host.Outcome State Fault Refusal :=
  if (s.codec side).busy then .fault .wrongPhase else .next s

/-- The host reads `STATUS` (R256). -/
def readStatusStep (side : Side) (s : State) : Host.Outcome State Fault Refusal :=
  .next { s with hostStatus := (s.codec side).statusReg }

/-- The host asserts reset (R310). -/
def resetStep (side : Side) (s : State) : Host.Outcome State Fault Refusal :=
  match side with
  | .enc => .next { s with enc := s.enc.assertReset }
  | .dec => .next { s with dec := s.dec.assertReset }

/-- A port with a new source and a new, empty sink. -/
def Port.connect (source : List Byte) (status : SinkStatus) (answers : List SinkAnswer) (p : Port) : Port where
  source := source
  sink := []
  status := status
  answers := answers
  number := p.number
  draws := p.draws

/-- The host wires an instance that is not running (R314; log entry 20). -/
def connectStep (side : Side) (source : List Byte) (status : SinkStatus) (answers : List SinkAnswer) (s : State) :
    Host.Outcome State Fault Refusal :=
  let c := s.codec side
  if c.busy then .refused .portInUse
  else .next (s.setCodec side { c with port := c.port.connect source status answers })

/-- The focus goes to another instance of the block (R290; log entry 8). -/
def focusStep (side : Side) (k : Nat) (s : State) : Host.Outcome State Fault Refusal :=
  match side with
  | .enc =>
    match s.encRest[k]? with
    | some e => .next { s with enc := e, encRest := s.encRest.set k s.enc }
    | none => .refused .noSuchInstance
  | .dec =>
    match s.decRest[k]? with
    | some d => .next { s with dec := d, decRest := s.decRest.set k s.dec }
    | none => .refused .noSuchInstance

/-- A step that executes no instruction: a host action, an ignored command, an instance with nothing to do. -/
def State.hostStep (s : State) : Host.Outcome State Fault Refusal :=
  match s.sched with
  | [] =>
    match s.turn with
    | some side => waitStep side s
    | none => .next s
  | .run side :: _ => waitStep side s.popped
  | .writeCmd _ _ :: _ => .next s.popped
  | .readStatus side :: _ => readStatusStep side s.popped
  | .assertReset side :: _ => resetStep side s.popped
  | .connect side source status answers :: _ => connectStep side source status answers s.popped
  | .focus side k :: _ => focusStep side k s.popped

/-- One step of the block: the next instruction, or a host action. A reset (R310) is an event like the others, so it is
taken between two whole steps and never inside one, whose pulls and pushes happen all or not at all (log entry 10). -/
def State.advance (s : State) : Host.Outcome State Fault Refusal :=
  match s.nextInstr with
  | some i => exec i s.popped
  | none => s.hostStep

/-! ### Placing an instruction (log entry 17) -/

/-- An instance that is not running. -/
def Codec.atRest (c : Codec) : Codec := if c.busy then { c with phase := .idle } else c

/-- A `CMD` write as the next event, to an instance that will obey it. -/
def State.placeCmd (s : State) (b : Byte) : State :=
  let side := if b.getLsbD 0 then Side.dec else Side.enc
  { s.setCodec side (s.codec side).atRest with sched := [.writeCmd side b] }

/-- A decoder about to read its header byte. -/
def State.placeHdr (s : State) (b : Byte) : State :=
  let c := s.dec.codec
  { s.setCodec .dec { c with phase := .dHdr, port := { c.port with source := [b] } } with sched := [.run .dec] }

/-- A dictionary in which `v` is below the alphabet size, and assigned if it is a string code. -/
def Dict.withToken (d : Dict) (v : Code) : Dict :=
  if d.denotes v && decide (v.toNat < d.n.toNat) && (readMem d.pfx v.toNat).isSome && (readMem d.term v.toNat).isSome
  then d
  else if v.toNat < Config.firstString then d.clear
  else
    { d with
      maxbits := 16
      max := 65536
      pfx := [(v.toNat, 0)]
      term := [(v.toNat, 0)]
      nextFree := BitVec.ofNat 17 (v.toNat + 1)
      full := v.toNat + 1 == 65536
      n := BitVec.ofNat 17 (min (v.toNat + 2) 65536) }

/-- A decoder about to read a token whose code value is `v`. -/
def State.placeToken (s : State) (v : Code) : State :=
  let c := s.dec.codec
  let d := c.dict.withToken v
  let source := packBytes (codewordBits d.n.toNat v.toNat)
  { s with
    dec :=
      { s.dec with
        codec := { c with dict := d, buf := { acc := 0, nbits := 0 }, phase := .dSymbol, port := { c.port with source := source } }
        prev := if v.toNat < Config.firstString then s.dec.prev else some 0 }
    sched := [.run .dec] }

/-- The state in which the next step takes the instruction with these bits. -/
def State.place (s : State) (nbits w : Nat) : State :=
  if nbits = 8 then
    if isLegalMaxbits (w % 256) then s.placeHdr (BitVec.ofNat 8 w) else s.placeCmd (BitVec.ofNat 8 w)
  else if nbits = 16 then s.placeToken (BitVec.ofNat 16 w)
  else s

end Sys2Proof.Machine
end

