-- ==== Sys2Proof/Machine/Step.lean ====
section
/-! DEFINITION. One step of the block, and the placing of one instruction where the step takes its next one. -/

namespace Sys2Proof.Machine

/-- One step: one execution of one instance's rule, one command, or one host action (spec/10_state.md R40). -/
def step (s : State) : Host.Outcome State Fault Refusal := s.advance

/-- The state whose very next step runs the instruction with these bits (log entry 17). -/
def State.withFetchWord (s : State) (nbits w : Nat) : State := s.place nbits w

end Sys2Proof.Machine
end

