-- ==== Sys2Proof/Safety.lean ====
section
/-! DEFINITION. The terms in which claims about runs are stated: the bits an instance holds and has ahead, a sink that
never refuses, the string a code denotes (spec/10_state.md R30), the well-founded prefix forest (R46 item 1), and the
invariants of an encoder, of a decoder and of the block (R21 to R38, R46; spec/42_dictionary.md R174). -/

namespace Sys2Proof.Machine

/-! ### Bits -/

/-- The bits in hand, oldest first (R35, R38). -/
def BitBuf.bits (u : BitBuf) : List Bool := bitsOf u.nbits.toNat u.acc.toNat

/-- The buffer at an operation boundary: at most 7 bits in hand, no bit set above them (R35, R38). -/
def BitBuf.settled (u : BitBuf) : Bool := u.nbits.toNat ≤ 7 && decide (u.acc.toNat < 2 ^ u.nbits.toNat)

/-- Every bit an encoder has produced so far: those its sink holds, then those in hand. -/
def Codec.written (c : Codec) : List Bool := bytesBits c.port.sink ++ c.buf.bits

/-- Every bit a decoder has ahead of it: those in hand, then those of its source. -/
def Codec.ahead (c : Codec) : List Bool := c.buf.bits ++ bytesBits c.port.source

/-- A sink with `SINK_STATUS = never_refuses` (spec/40_bitio.md R121). -/
def Codec.neverRefused (c : Codec) : Bool := c.port.status == .neverRefuses

/-- The instance after bytes more reached its sink. -/
def Codec.pushed (c : Codec) (bytes : List Byte) : Codec :=
  { c with port := { c.port with sink := c.port.sink ++ bytes } }

/-! ### Strings (R30) -/

/-- `string(c)`, following at most `fuel` prefixes; none where the chain is longer, leaves the assigned codes or does
not end in a literal. -/
def Dict.stringIn (d : Dict) : Nat → Code → Option (List Byte)
  | 0, c => if c.toNat ≤ 255 then some [c.setWidth 8] else none
  | fuel + 1, c =>
    if c.toNat ≤ 255 then some [c.setWidth 8]
    else if d.denotes c then
      match readMem d.pfx c.toNat, readMem d.term c.toNat with
      | some p, some b => (Dict.stringIn d fuel p).map (· ++ [b])
      | _, _ => none
    else none

/-- `string(c)` (R30): no chain follows more than `MAX - 258` prefixes (R46 item 1). -/
def Dict.string (d : Dict) (c : Code) : Option (List Byte) := d.stringIn (d.max.toNat - Config.firstString) c

/-- The prefix forest is well founded (R46 item 1; spec/42_dictionary.md R173): every code that denotes a string has
one, found within as many prefixes as there are assigned string codes. -/
def Dict.Forest (d : Dict) : Prop :=
  ∀ c, d.denotes c = true → (d.stringIn (d.nextFree.toNat - Config.firstString) c).isSome = true

/-! ### Invariants -/

/-- What holds of the dictionary of every instance at every step (R21, R22, R24 to R27). -/
structure Dict.Inv (d : Dict) : Prop where
  legal : isLegalMaxbits d.maxbits.toNat = true
  max_eq : d.max.toNat = 2 ^ d.maxbits.toNat
  free_lo : Config.firstString ≤ d.nextFree.toNat
  free_hi : d.nextFree.toNat ≤ d.max.toNat
  full_iff : d.full = (d.nextFree == d.max)
  cursor_lo : Config.firstString ≤ d.cursor.toNat
  cursor_hi : d.cursor.toNat < d.max.toNat
  n_lo : Config.firstString ≤ d.n.toNat
  n_hi : d.n.toNat ≤ d.max.toNat
  pfx_wf : Mem.wf d.pfx
  term_wf : Mem.wf d.term
  /-- The pair of every assigned string code is there, and its prefix denotes a string. -/
  closed : ∀ c, d.isAssignedString c = true →
    ∃ p b, readMem d.pfx c.toNat = some p ∧ readMem d.term c.toNat = some b ∧ d.denotes p = true

/-- The index holds exactly the pairs of the assigned string codes (R28, R46 item 2). -/
def Encoder.IndexExact (e : Encoder) : Prop :=
  ∀ p b c, e.lookup p b = some c ↔
    (e.codec.dict.isAssignedString c = true ∧ readMem e.codec.dict.pfx c.toNat = some p ∧
      readMem e.codec.dict.term c.toNat = some b)

/-- What holds of an encoder at every step. -/
structure Encoder.Inv (e : Encoder) : Prop where
  dict : e.codec.dict.Inv
  index_wf : Mem.wf e.index
  index_exact : e.IndexExact
  phase : e.codec.phase ≠ .dHdr ∧ e.codec.phase ≠ .dSymbol
  packer : e.codec.busy = true → e.codec.buf.settled = true
  first : e.codec.phase = .eFirst → e.codec.dict.n = 258 ∧ e.codec.dict.nextFree = 258 ∧ e.wCode = none
  /-- The current match denotes a string, and `n = next_free` (R174). -/
  matching : e.codec.phase = .eNext →
    (∃ w, e.wCode = some w ∧ e.codec.dict.denotes w = true) ∧ e.codec.dict.n = e.codec.dict.nextFree

/-- `prev` and the relation of `n` and `next_free` at a symbol boundary of a decoder (R36, R174). -/
def Decoder.SymbolInv (d : Decoder) : Prop :=
  match d.prev with
  | none => d.codec.dict.n = 258 ∧ d.codec.dict.nextFree = 258
  | some p =>
    d.codec.dict.denotes p = true ∧
      d.codec.dict.n.toNat = min (d.codec.dict.nextFree.toNat + 1) d.codec.dict.max.toNat

/-- What holds of a decoder at every step. -/
structure Decoder.Inv (d : Decoder) : Prop where
  dict : d.codec.dict.Inv
  stk_wf : Mem.wf d.stk
  phase : d.codec.phase ≠ .eFirst ∧ d.codec.phase ≠ .eNext
  unpacker : d.codec.busy = true → d.codec.buf.settled = true
  stack : d.codec.busy = true → d.sp = 0
  header : d.codec.phase = .dHdr → d.prev = none ∧ d.codec.buf.nbits = 0
  symbol : d.codec.phase = .dSymbol → d.SymbolInv

/-- What holds of the block at every step. -/
structure State.Inv (s : State) : Prop where
  enc : s.enc.Inv
  dec : s.dec.Inv
  encRest : ∀ e ∈ s.encRest, Encoder.Inv e
  decRest : ∀ d ∈ s.decRest, Decoder.Inv d

/-- The memories of an instance pair are in canonical form. -/
structure State.MemWf (s : State) : Prop where
  encPfx : Mem.wf s.enc.codec.dict.pfx
  encTerm : Mem.wf s.enc.codec.dict.term
  index : Mem.wf s.enc.index
  decPfx : Mem.wf s.dec.codec.dict.pfx
  decTerm : Mem.wf s.dec.codec.dict.term
  stk : Mem.wf s.dec.stk

/-- The next event is none of the host's actions that are outside the model (log entries 8 and 20). -/
def State.hostInModel (s : State) : Bool :=
  match s.sched with
  | .connect side _ _ _ :: _ => !(s.codec side).busy
  | .focus .enc k :: _ => decide (k < s.encRest.length)
  | .focus .dec k :: _ => decide (k < s.decRest.length)
  | _ => true

/-! ### What the statements about runs speak of -/

/-- The encoder `ENC_START(m)` leaves when the header was accepted (R191), `port` being its port then. -/
def Encoder.started (e : Encoder) (m : BitVec 5) (port : Port) : Encoder :=
  { e with
    codec :=
      { e.codec with
        dict :=
          { e.codec.dict with
            maxbits := m, max := BitVec.ofNat 17 (2 ^ m.toNat), nextFree := 258, full := false, cursor := 258, n := 258 }
        buf := { acc := 0, nbits := 0 }
        phase := .eFirst
        port := port }
    index := []
    wCode := none
    monIn := 0
    monOut := 0
    monOther := e.policy.resetState }

/-- The decoder `DEC_START` leaves (R220). -/
def Decoder.started (d : Decoder) : Decoder :=
  { d with
    codec := { d.codec with buf := { acc := 0, nbits := 0 }, phase := .dHdr }
    prev := none
    sp := 0 }

/-- The last bytes of a run: the bits are those in hand, the codewords given, and fewer than 8 zero bits. -/
def endsPadded (bytes : List Byte) (bits : List Bool) : Prop :=
  ∃ pad, pad < 8 ∧ bytesBits bytes = bits ++ List.replicate pad false

/-- The token of a data code in a decoder (R225): the pending code first. -/
def Decoder.dataTokenOf (d : Decoder) (c : Code) : Instr :=
  if d.prev.bind d.codec.dict.pending = some c then .strKwKwK c
  else if c.toNat ≤ 255 then .lit (c.setWidth 8)
  else .str c

/-- Which kind of instance executes an instruction. -/
def runsOn : Instr → Side
  | .abs side _ => side
  | .abl side _ _ => side
  | .srcPull side => side
  | .sinkPush side _ => side
  | .dictReset side => side
  | .dictAssigned side _ => side
  | .dictIsLeaf side _ => side
  | .succ side _ => side
  | .dictVictim side _ => side
  | .dictPending side _ => side
  | .dictInsertGrowing side _ _ => side
  | .dictInsertRecycling side _ _ => side
  | .dictInsertNoVictim side _ _ => side
  | .alphaStep side => side
  | .raiseFail side _ => side
  | .finish side => side
  | .compress _ _ => .enc
  | .putBits _ _ => .enc
  | .flushBits => .enc
  | .abParams _ => .enc
  | .abEnc _ _ => .enc
  | .dictLookup _ _ => .enc
  | .indexAdd _ _ _ => .enc
  | .indexRemove _ _ => .enc
  | .encStart _ => .enc
  | .eFirst => .enc
  | .eNext => .enc
  | .encExtend _ => .enc
  | .encMiss _ => .enc
  | .emitData _ => .enc
  | .monReset => .enc
  | .monUpdate _ _ => .enc
  | .encFlushDict => .enc
  | .encFinish => .enc
  | .decompress _ => .dec
  | .hdr _ => .dec
  | .lit _ => .dec
  | .clear => .dec
  | .endTok => .dec
  | .str _ => .dec
  | .strKwKwK _ => .dec
  | .pad _ => .dec
  | .getBits _ => .dec
  | .abDec _ => .dec
  | .decStart => .dec
  | .dHdr => .dec
  | .dSymbol => .dec
  | .data _ => .dec
  | .expand _ => .dec
  | .decInsert _ => .dec
  | .decNext _ => .dec

/-- A list of tokens a stream may hold before its `END`, read from alphabet size `n` (R90, R95): every code is below
the alphabet size in force when it is written. -/
def writable (maxN : Nat) : Nat → List Instr → Prop
  | _, [] => True
  | n, tok :: toks =>
    (match tok with
     | .lit _ => True
     | .clear => True
     | .str c => isStringCode c = true ∧ c.toNat < n
     | _ => False) ∧ writable maxN (alphaAfter maxN n tok) toks

/-- The result of running the encoder's rules on their own, `fuel` steps at most, until the run ends. -/
def runEncoder : Nat → State → Option State
  | 0, _ => none
  | fuel + 1, s =>
    if s.enc.codec.busy then
      match exec (if s.enc.codec.phase = .eFirst then .eFirst else .eNext) s with
      | .next t => runEncoder fuel t
      | _ => none
    else some s

/-- The result of running the decoder's rules on their own, `fuel` steps at most, until the run ends. -/
def runDecoder : Nat → State → Option State
  | 0, _ => none
  | fuel + 1, s =>
    if s.dec.codec.busy then
      match exec (if s.dec.codec.phase = .dHdr then .dHdr else .dSymbol) s with
      | .next t => runDecoder fuel t
      | _ => none
    else some s

end Sys2Proof.Machine
end

