-- ==== Sys2Proof/Certificates/Slice0/Obligations.lean ====
section
/-! DEFINITION. The statements about the model, each from the rules of spec/ its docstring names. Where a statement
asks for a sink that never refuses, the refusing sink is the subject of `SinkPushDeliversOrFails` (the one place a
refusal enters), of `RefusalEndsTheRun` and of `NeverRefusingSinkNeverFails`. Where a docstring says "(log entry 4)", what
the statement says of a failed or finished instance's registers beyond `phase`, `STATUS` and the bytes pushed is the
model's choice: the spec leaves them open (spec/93 U11). -/

open Sys2Proof Sys2Proof.Machine

/-! ### Reset, status and commands -/

/-- The column "after power-on reset" of R47, where it gives a value. -/
def Obligations.ResetLeavesStatedValues : Prop :=
  State.reset.enc.codec.phase = .idle ∧ State.reset.enc.codec.statusReg = 0 ∧
    State.reset.enc.codec.dict.full = false ∧ State.reset.enc.wCode = none ∧
    State.reset.dec.codec.phase = .idle ∧ State.reset.dec.codec.statusReg = 0 ∧
    State.reset.dec.codec.dict.full = false ∧ State.reset.dec.prev = none

/-- R310: the reset input, asserted in any state: the stated registers, the sink's bytes kept, no status reported, and an
instance that waits for a command. R290: the other instances untouched. The model's choice (log entry 10) is that the
whole port stays, its source, its `SINK_STATUS` and its coming answers too, which R44 makes no state of the instance and
R310 does not speak of, and that the reset comes between two whole steps: of one that comes during a step (R281) this
says nothing. -/
def Obligations.ResetInputAtAnyTime : Prop :=
  ∀ s side rest, s.sched = .assertReset side :: rest →
    ∃ t, step s = .next t ∧ t.sched = rest ∧
      (t.codec side).phase = .idle ∧ (t.codec side).statusReg = 0 ∧ (t.codec side).dict.full = false ∧
      (side = .enc → t.enc.wCode = none ∧ t.dec = s.dec) ∧ (side = .dec → t.dec.prev = none ∧ t.enc = s.enc) ∧
      (t.codec side).port = (s.codec side).port ∧ t.hostStatus = s.hostStatus ∧
      t.encRest = s.encRest ∧ t.decRest = s.decRest ∧ phaseInstr side (t.codec side).phase = none

/-- R42: the fields of `STATUS`, what the host reads, and that `done` and `failed` stay until the next command (or a
reset; a change of focus looks at another instance). -/
def Obligations.StatusRegisterFields : Prop :=
  (∀ c : Codec,
    c.statusReg.getLsbD 0 = decide (c.phase ≠ .idle ∧ c.phase ≠ .done ∧ c.phase ≠ .failed) ∧
    c.statusReg.getLsbD 1 = decide (c.phase = .done) ∧
    c.statusReg.getLsbD 2 = decide (c.phase = .failed) ∧
    c.statusReg.extractLsb' 3 3 = (if c.phase = .failed then c.cause else 0) ∧
    c.statusReg.extractLsb' 6 2 = 0) ∧
  (∀ s side rest, s.sched = .readStatus side :: rest →
    step s = .next { s with sched := rest, hostStatus := (s.codec side).statusReg }) ∧
  (∀ s t side, step s = .next t → (s.codec side).busy = false →
    (∀ ev, s.sched.head? = some ev →
      ev ≠ .assertReset side ∧ (∀ b, ev ≠ .writeCmd side b) ∧ (∀ k, ev ≠ .focus side k)) →
    (t.codec side).statusReg = (s.codec side).statusReg)

/-- R191, R250, R252: `ENC_START` with a legal and with an illegal `maxbits`, and with a sink that refuses the header;
and `COMPRESS` obeyed, which writes the command register and clears the cause before it. With an illegal `maxbits`
nothing is pushed and the run fails with `BAD_HEADER`. That `CMD` then holds the whole byte, its ignored bits 7:6
included, is the model's choice (log entry 19), and so is that `mlen` keeps its value (log entry 29). -/
def Obligations.EncoderStarts : Prop :=
  ∀ s m,
    (isLegalMaxbits m.toNat = true → ∀ port, s.enc.codec.port.push (m.setWidth 8) = (true, port) →
      exec (.encStart m) s = .next { s with enc := Encoder.started s.enc m port, result := .unit } ∧
      (s.enc.codec.busy = false → ∀ ig,
        exec (.compress m ig) s =
          .next { s with
            enc := Encoder.started
              { s.enc with codec := { s.enc.codec with cmd := ig ++ m ++ 0#1, cause := 0 } } m port
            result := .unit })) ∧
    (isLegalMaxbits m.toNat = true → ∀ port, s.enc.codec.port.push (m.setWidth 8) = (false, port) →
      ∃ t, exec (.encStart m) s = .next t ∧ t.enc.codec.phase = .failed ∧ t.enc.codec.cause = 4 ∧
        t.enc.codec.port = port ∧ t.result = .failed) ∧
    (isLegalMaxbits m.toNat = true → ∀ port, s.enc.codec.port.push (m.setWidth 8) = (false, port) →
      s.enc.codec.busy = false → ∀ ig,
      ∃ t, exec (.compress m ig) s = .next t ∧ t.enc.codec.phase = .failed ∧ t.enc.codec.cause = 4 ∧
        t.enc.codec.port = port ∧ t.result = .failed) ∧
    (isLegalMaxbits m.toNat = false →
      (∃ t, exec (.encStart m) s = .next t ∧ t.enc.codec.phase = .failed ∧ t.enc.codec.cause = 1 ∧
        t.enc.codec.port = s.enc.codec.port ∧ t.result = .failed) ∧
      (s.enc.codec.busy = false → ∀ ig,
        ∃ t, exec (.compress m ig) s = .next t ∧ t.enc.codec.phase = .failed ∧ t.enc.codec.cause = 1 ∧
          t.enc.codec.port = s.enc.codec.port ∧ t.result = .failed))

/-- R220, R251, R252: `DEC_START`, and `DECOMPRESS` obeyed, which writes the command register and clears the cause before
it. That `CMD` then holds the whole byte, its ignored bits 7:1 included, is the model's choice (log entry 19). -/
def Obligations.DecompressStartsDecoder : Prop :=
  (∀ s, exec .decStart s = .next { s with dec := Decoder.started s.dec, result := .unit }) ∧
  (∀ s ig, s.dec.codec.busy = false →
    exec (.decompress ig) s =
      .next { s with
        dec := Decoder.started
          { s.dec with codec := { s.dec.codec with cmd := ig ++ 1#1, cause := 0 } }
        result := .unit })

/-- R252: a `CMD` write to a busy instance, or of the other kind's command, changes nothing; any other is obeyed: the
instance takes the byte, and the command runs. That `CMD` then holds the whole byte, its ignored bits included, is the
model's choice (log entry 19). -/
def Obligations.CommandWriteAcceptedWhenNotBusy : Prop :=
  ∀ s side b rest, s.sched = .writeCmd side b :: rest →
    ((s.codec side).busy = true → step s = .next { s with sched := rest }) ∧
    (b.getLsbD 0 = decide (side = .enc) → step s = .next { s with sched := rest }) ∧
    ((s.codec side).busy = false → b.getLsbD 0 = decide (side = .dec) →
      step s = exec (decodeCmd b) { s with sched := rest } ∧ ∃ t, step s = .next t ∧ (t.codec side).cmd = b)

/-! ### Ports and bits -/

/-- R120, R66: `SRC_PULL` takes the next byte off the source; at its end the answer is `EOI`, for ever. -/
def Obligations.SourcePullTakesNextByte : Prop :=
  ∀ s side,
    (∀ b bs, (s.codec side).port.source = b :: bs →
      exec (.srcPull side) s =
        .next { s.setCodec side { s.codec side with port := { (s.codec side).port with source := bs } } with
          result := .byte b }) ∧
    ((s.codec side).port.source = [] → exec (.srcPull side) s = .next { s with result := .eoi })

/-- R121, R274: `SINK_PUSH` appends the byte and answers `ok`, or the sink refuses it and the run fails with
`SINK_FAIL`; whether the refused byte was kept is a free value (spec/93 U3). Which pushes a sink refuses is the
port's script, which accepts past its end (log entry 6, the model's choice). (log entry 4) -/
def Obligations.SinkPushDeliversOrFails : Prop :=
  ∀ s side b,
    ((s.codec side).port.status = .neverRefuses →
      exec (.sinkPush side b) s =
        .next { s.setCodec side ((s.codec side).pushed [b]) with result := .unit }) ∧
    ((s.codec side).port.status = .mayRefuse → (s.codec side).port.answers = [] →
      exec (.sinkPush side b) s =
        .next { s.setCodec side ((s.codec side).pushed [b]) with result := .unit }) ∧
    (∀ as, (s.codec side).port.status = .mayRefuse → (s.codec side).port.answers = .ok :: as →
      exec (.sinkPush side b) s =
        .next { s.setCodec side
            { s.codec side with
              port := { (s.codec side).port with sink := (s.codec side).port.sink ++ [b], answers := as } } with
          result := .unit }) ∧
    (∀ as, (s.codec side).port.status = .mayRefuse → (s.codec side).port.answers = .refuse :: as →
      ∃ kept : List Byte, (kept = [] ∨ kept = [b]) ∧
        exec (.sinkPush side b) s =
          .next { s.setCodec side
              { s.codec side with
                phase := .failed
                cause := 4
                port :=
                  { (s.codec side).port with
                    sink := (s.codec side).port.sink ++ kept
                    answers := as
                    draws := (s.codec side).port.draws + 1 } } with
            result := .failed })

/-- R122: `PUTBITS` appends the field to the bit stream, least significant bit first; whole bytes reach the sink, at
most 7 bits stay in hand. -/
def Obligations.PutBitsAppendsField : Prop :=
  ∀ s val wd, (Instr.putBits val wd).wf = true → s.enc.codec.neverRefused = true → s.enc.codec.buf.settled = true →
    ∃ bytes buf,
      exec (.putBits val wd) s =
        .next { s.setCodec .enc { s.enc.codec.pushed bytes with buf := buf } with result := .unit } ∧
      bytesBits bytes ++ buf.bits = s.enc.codec.buf.bits ++ bitsOf wd.toNat val.toNat ∧ buf.settled = true

/-- R123: `FLUSHBITS` pushes the bits in hand as one byte, if there are any, and empties the packer. -/
def Obligations.FlushBitsPushesLastByte : Prop :=
  ∀ s,
    (s.enc.codec.buf.nbits = 0 → exec .flushBits s = .next { s with result := .unit }) ∧
    (s.enc.codec.buf.nbits ≠ 0 →
      (∀ port, s.enc.codec.port.push (s.enc.codec.buf.acc.setWidth 8) = (true, port) →
        exec .flushBits s =
          .next { s.setCodec .enc { s.enc.codec with port := port, buf := { acc := 0, nbits := 0 } } with
            result := .unit }) ∧
      (∀ port, s.enc.codec.port.push (s.enc.codec.buf.acc.setWidth 8) = (false, port) →
        ∃ t, exec .flushBits s = .next t ∧ t.enc.codec.phase = .failed ∧ t.enc.codec.cause = 4 ∧
          t.enc.codec.port = port ∧ t.result = .failed))

/-- R124: `GETBITS` takes the next `wd` bits, pulling bytes only on demand (at most 7 bits stay in hand); with fewer
bits ahead the answer is `EOI` and the source is at its end. -/
def Obligations.GetBitsTakesFieldOnDemand : Prop :=
  ∀ s wd, (Instr.getBits wd).wf = true → s.dec.codec.buf.settled = true →
    (wd.toNat ≤ s.dec.codec.ahead.length →
      ∃ buf source,
        exec (.getBits wd) s =
          .next { s.setCodec .dec
              { s.dec.codec with buf := buf, port := { s.dec.codec.port with source := source } } with
            result := .value (ofBits (s.dec.codec.ahead.take wd.toNat)) } ∧
        buf.bits ++ bytesBits source = s.dec.codec.ahead.drop wd.toNat ∧ buf.settled = true) ∧
    (s.dec.codec.ahead.length < wd.toNat →
      ∃ buf,
        exec (.getBits wd) s =
          .next { s.setCodec .dec { s.dec.codec with buf := buf, port := { s.dec.codec.port with source := [] } } with
            result := .eoi } ∧
        buf.bits = s.dec.codec.ahead)

/-! ### The adjusted-binary code -/

/-- R140: `k = floor_log2(n)`, `t = (1 << (k+1)) - n`, and their ranges; at a power of two every value is short. -/
def Obligations.AbParamsOfAlphabet : Prop :=
  ∀ s n, isAlphabet n = true →
    ∃ k t, exec (.abParams n) s = .next { s with result := .params k t } ∧
      2 ^ k ≤ n.toNat ∧ n.toNat < 2 ^ (k + 1) ∧ t + n.toNat = 2 ^ (k + 1) ∧ 1 ≤ t ∧ t ≤ 2 ^ k ∧
      8 ≤ k ∧ k ≤ 16 ∧ (n.toNat = 2 ^ k → t = n.toNat)

/-- R141: `AB_ENC` appends the codeword of `v` to the bit stream; the result is its width. -/
def Obligations.AbEncWritesCodeword : Prop :=
  ∀ s v n, (Instr.abEnc v n).wf = true → s.enc.codec.neverRefused = true → s.enc.codec.buf.settled = true →
    ∃ bytes buf,
      exec (.abEnc v n) s =
        .next { s.setCodec .enc { s.enc.codec.pushed bytes with buf := buf } with
          result := .value (codewordBits n.toNat v.toNat).length } ∧
      bytesBits bytes ++ buf.bits = s.enc.codec.buf.bits ++ codewordBits n.toNat v.toNat ∧ buf.settled = true

/-- R142: `AB_DEC` reads the codeword ahead; where the bits ahead end first it fails with `TRUNCATED`. (log entry 4) -/
def Obligations.AbDecReadsCodeword : Prop :=
  ∀ s n, isAlphabet n = true → s.dec.codec.buf.settled = true →
    (∀ v rest, readCodeword n.toNat s.dec.codec.ahead = some (v, rest) →
      ∃ buf source,
        exec (.abDec n) s =
          .next { s.setCodec .dec
              { s.dec.codec with buf := buf, port := { s.dec.codec.port with source := source } } with
            result := .code (BitVec.ofNat 16 v) } ∧
        buf.bits ++ bytesBits source = rest ∧ buf.settled = true) ∧
    (readCodeword n.toNat s.dec.codec.ahead = none →
      ∃ buf,
        exec (.abDec n) s =
          .next { s.setCodec .dec
              { s.dec.codec with
                buf := buf, port := { s.dec.codec.port with source := [] }, phase := .failed, cause := 3 } with
            result := .failed })

/-- R143: reading a codeword gives back the value written and consumes exactly its bits. -/
def Obligations.CodewordInverse : Prop :=
  ∀ n v rest, 258 ≤ n → n ≤ 65536 → v < n → readCodeword n (codewordBits n v ++ rest) = some (v, rest)

/-- R144, R98, R146: whatever the bits, the value read is below `n` and the bits are its codeword, and wherever more than
`k` bits are ahead a value is read: there is no unused pattern. The first `t` values have `k` bits and the others `k + 1`, 8 to 16 in all; at a power of two every codeword is
the value itself in a fixed width. -/
def Obligations.CodewordComplete : Prop :=
  (∀ n bits v rest, 258 ≤ n → n ≤ 65536 → readCodeword n bits = some (v, rest) →
    v < n ∧ bits = codewordBits n v ++ rest) ∧
  (∀ n bits, 258 ≤ n → n ≤ 65536 → (abParams n).1 < bits.length → (readCodeword n bits).isSome = true) ∧
  (∀ n v, 258 ≤ n → n ≤ 65536 → v < n →
    (codewordBits n v).length = (if v < (abParams n).2 then (abParams n).1 else (abParams n).1 + 1) ∧
    8 ≤ (codewordBits n v).length ∧ (codewordBits n v).length ≤ 16) ∧
  (∀ m v, 9 ≤ m → m ≤ 16 → v < 2 ^ m → codewordBits (2 ^ m) v = bitsOf m v)

/-- R92 to R94: the two formats: an encoder writes the fields, a decoder assembles the operand; fields that are no
codeword at the alphabet size in force are refused (log entry 13). -/
def Obligations.CodewordFormats : Prop :=
  ∀ s : State,
    (∀ p, isAlphabet s.enc.codec.dict.n = true → s.enc.codec.neverRefused = true → s.enc.codec.buf.settled = true →
      p.toNat < (abParams s.enc.codec.dict.n.toNat).2 →
      ∃ bytes buf,
        exec (.abs .enc p) s =
          .next { s.setCodec .enc { s.enc.codec.pushed bytes with buf := buf } with
            result := .value (abParams s.enc.codec.dict.n.toNat).1 } ∧
        bytesBits bytes ++ buf.bits =
          s.enc.codec.buf.bits ++ codewordBits s.enc.codec.dict.n.toNat p.toNat) ∧
    (∀ p e, isAlphabet s.enc.codec.dict.n = true → s.enc.codec.neverRefused = true → s.enc.codec.buf.settled = true →
      longInRange s.enc.codec.dict.n.toNat p = true →
      ∃ bytes buf,
        exec (.abl .enc p e) s =
          .next { s.setCodec .enc { s.enc.codec.pushed bytes with buf := buf } with
            result := .value ((abParams s.enc.codec.dict.n.toNat).1 + 1) } ∧
        bytesBits bytes ++ buf.bits =
          s.enc.codec.buf.bits ++ codewordBits s.enc.codec.dict.n.toNat
            (2 * p.toNat + e.toNat - (abParams s.enc.codec.dict.n.toNat).2)) ∧
    (∀ p, p.toNat < (abParams s.dec.codec.dict.n.toNat).2 →
      exec (.abs .dec p) s = .next { s with result := .code p }) ∧
    (∀ p e, longInRange s.dec.codec.dict.n.toNat p = true →
      exec (.abl .dec p e) s =
        .next { s with
          result := .code (BitVec.ofNat 16 (2 * p.toNat + e.toNat - (abParams s.dec.codec.dict.n.toNat).2)) }) ∧
    (∀ side p, shortInRange (s.codec side).dict.n.toNat p = false → exec (.abs side p) s = .refused .notACodeword) ∧
    (∀ side p e, longInRange (s.codec side).dict.n.toNat p = false →
      exec (.abl side p e) s = .refused .notACodeword)

/-! ### The dictionary -/

/-- R160: `DICT_RESET` on each side; arrays, configuration and bit buffers stay. -/
def Obligations.DictResetEmptiesDictionary : Prop :=
  (∀ s, exec (.dictReset .enc) s =
    .next { s with
      enc :=
        { s.enc with
          codec :=
            { s.enc.codec with
              dict := { s.enc.codec.dict with nextFree := 258, full := false, cursor := 258, n := 258 } }
          index := [] }
      result := .unit }) ∧
  (∀ s, exec (.dictReset .dec) s =
    .next { s with
      dec :=
        { s.dec with
          codec :=
            { s.dec.codec with
              dict := { s.dec.codec.dict with nextFree := 258, full := false, cursor := 258, n := 258 } } }
      result := .unit })

/-- R161, R165, R166: the three queries on a code, each of which completes and changes nothing but the result: assigned;
for an assigned string code of a dictionary that meets its invariant, leaf (no assigned string code other than `c` has
prefix `c`); for `258 <= c < MAX`, the cyclic successor. The model's choices: what the last two answer for any other
code is open (log entry 13), and the first answers the predicate of R29 also from `MAX` on, where R161 has no operand
(log entry 30). -/
def Obligations.DictionaryQueries : Prop :=
  ∀ s side c,
    exec (.dictAssigned side c) s =
      .next { s with result := .flag (decide (c.toNat < 258 ∨ c.toNat < (s.codec side).dict.nextFree.toNat)) } ∧
    (∃ leaf, exec (.dictIsLeaf side c) s = .next { s with result := .flag leaf } ∧
      ((s.codec side).dict.Inv → (s.codec side).dict.isAssignedString c = true →
        (leaf = true ↔ ¬ ∃ d : Code, d ≠ c ∧ (s.codec side).dict.isAssignedString d = true ∧
          readMem (s.codec side).dict.pfx d.toNat = some c))) ∧
    (∃ x, exec (.succ side c) s = .next { s with result := .code x } ∧
      (258 ≤ c.toNat → c.toNat < (s.codec side).dict.max.toNat →
        x = if c.toNat + 1 < (s.codec side).dict.max.toNat then c + 1 else 258))

/-- R162 to R164: the index reads back what was added, an addition or a removal touches one pair only, a lookup
changes nothing. -/
def Obligations.IndexOperations : Prop :=
  ∀ s p b, isDataCode p = true →
    exec (.dictLookup p b) s = .next { s with result := codeResult (s.enc.lookup p b) } ∧
    (∀ c, isStringCode c = true →
      ∃ index, exec (.indexAdd p b c) s = .next { s with enc := { s.enc with index := index }, result := .unit } ∧
        ∀ q a, ({ s.enc with index := index } : Encoder).lookup q a =
          if q = p ∧ a = b then some c else s.enc.lookup q a) ∧
    (Mem.wf s.enc.index →
      ∃ index, exec (.indexRemove p b) s = .next { s with enc := { s.enc with index := index }, result := .unit } ∧
        ∀ q a, ({ s.enc with index := index } : Encoder).lookup q a =
          if q = p ∧ a = b then none else s.enc.lookup q a)

/-- R167: with every string code assigned, the victim is the first leaf other than `excl` in cyclic order from the
cursor, and there is none exactly where no string code qualifies; nothing is written. -/
def Obligations.VictimIsFirstLeafFromCursor : Prop :=
  ∀ s side excl, isDataCode excl = true →
    (s.codec side).dict.nextFree = (s.codec side).dict.max → (s.codec side).dict.max.toNat ≤ 65536 →
    258 ≤ (s.codec side).dict.cursor.toNat → (s.codec side).dict.cursor.toNat < (s.codec side).dict.max.toNat →
    ∃ r, exec (.dictVictim side excl) s = .next { s with result := codeResult r } ∧
      (∀ v, r = some v →
        v ≠ excl ∧ (s.codec side).dict.isLeaf v = true ∧ (s.codec side).dict.isAssignedString v = true ∧
        ∃ j, j < (s.codec side).dict.max.toNat - 258 ∧ v = (s.codec side).dict.succ^[j] (s.codec side).dict.cursor ∧
          ∀ i, i < j → (s.codec side).dict.succ^[i] (s.codec side).dict.cursor = excl ∨
            (s.codec side).dict.isLeaf ((s.codec side).dict.succ^[i] (s.codec side).dict.cursor) = false) ∧
      (r = none → ∀ c, (s.codec side).dict.isAssignedString c = true →
        c = excl ∨ (s.codec side).dict.isLeaf c = false)

/-- R172: the pending slot is the head of the free list, or the victim when there is none; it is the slot the
insertion with that prefix then uses; nothing is written. -/
def Obligations.PendingIsNextInsertionSlot : Prop :=
  ∀ s side excl, isDataCode excl = true →
    exec (.dictPending side excl) s =
      .next { s with
        result :=
          if (s.codec side).dict.nextFree.toNat < (s.codec side).dict.max.toNat
          then .code ((s.codec side).dict.nextFree.setWidth 16)
          else codeResult ((s.codec side).dict.victim excl) } ∧
    ∀ b t, exec (.dictInsertGrowing side excl b) s = .next t →
      exec (.dictPending side excl) s = .next { s with result := t.result }

/-- R168: the growing insertion on each side. -/
def Obligations.InsertGrowingTakesFreeHead : Prop :=
  ∀ s p b, isDataCode p = true →
    (s.enc.codec.dict.nextFree.toNat < s.enc.codec.dict.max.toNat →
      exec (.dictInsertGrowing .enc p b) s =
        .next { s with
          enc :=
            { s.enc with
              codec :=
                { s.enc.codec with
                  dict :=
                    { s.enc.codec.dict with
                      pfx := writeMem s.enc.codec.dict.pfx (s.enc.codec.dict.nextFree.setWidth 16).toNat p
                      term := writeMem s.enc.codec.dict.term (s.enc.codec.dict.nextFree.setWidth 16).toNat b
                      nextFree := s.enc.codec.dict.nextFree + 1
                      full := s.enc.codec.dict.full || s.enc.codec.dict.nextFree + 1 == s.enc.codec.dict.max } }
              index := writeMem s.enc.index (p.toNat * 256 + b.toNat) (s.enc.codec.dict.nextFree.setWidth 16) }
          result := .code (s.enc.codec.dict.nextFree.setWidth 16) }) ∧
    (s.dec.codec.dict.nextFree.toNat < s.dec.codec.dict.max.toNat →
      exec (.dictInsertGrowing .dec p b) s =
        .next { s with
          dec :=
            { s.dec with
              codec :=
                { s.dec.codec with
                  dict :=
                    { s.dec.codec.dict with
                      pfx := writeMem s.dec.codec.dict.pfx (s.dec.codec.dict.nextFree.setWidth 16).toNat p
                      term := writeMem s.dec.codec.dict.term (s.dec.codec.dict.nextFree.setWidth 16).toNat b
                      nextFree := s.dec.codec.dict.nextFree + 1
                      full := s.dec.codec.dict.full || s.dec.codec.dict.nextFree + 1 == s.dec.codec.dict.max } } }
          result := .code (s.dec.codec.dict.nextFree.setWidth 16) })

/-- R169: the recycling insertion on each side: the victim's old pair leaves the index, its slot gets the new pair,
the cursor goes to the code after it; `n`, `next_free` and `full` stay. R170: without a victim nothing is written and
the result is `none`. -/
def Obligations.InsertRecyclingOrNothing : Prop :=
  ∀ s p b, isDataCode p = true →
    (s.enc.codec.dict.max.toNat ≤ s.enc.codec.dict.nextFree.toNat → ∀ v, s.enc.codec.dict.victim p = some v →
      ∀ q a, readMem s.enc.codec.dict.pfx v.toNat = some q → readMem s.enc.codec.dict.term v.toNat = some a →
      exec (.dictInsertRecycling .enc p b) s =
        .next { s with
          enc :=
            { s.enc with
              codec :=
                { s.enc.codec with
                  dict :=
                    { s.enc.codec.dict with
                      pfx := writeMem s.enc.codec.dict.pfx v.toNat p
                      term := writeMem s.enc.codec.dict.term v.toNat b
                      cursor := s.enc.codec.dict.succ v } }
              index := writeMem (eraseMem s.enc.index (q.toNat * 256 + a.toNat)) (p.toNat * 256 + b.toNat) v }
          result := .code v }) ∧
    (s.dec.codec.dict.max.toNat ≤ s.dec.codec.dict.nextFree.toNat → ∀ v, s.dec.codec.dict.victim p = some v →
      exec (.dictInsertRecycling .dec p b) s =
        .next { s with
          dec :=
            { s.dec with
              codec :=
                { s.dec.codec with
                  dict :=
                    { s.dec.codec.dict with
                      pfx := writeMem s.dec.codec.dict.pfx v.toNat p
                      term := writeMem s.dec.codec.dict.term v.toNat b
                      cursor := s.dec.codec.dict.succ v } } }
          result := .code v }) ∧
    (∀ side, (s.codec side).dict.max.toNat ≤ (s.codec side).dict.nextFree.toNat →
      (s.codec side).dict.victim p = none →
      exec (.dictInsertNoVictim side p b) s = .next { s with result := .noCode })

/-- R176: `ALPHA_STEP` adds one to `n` up to `MAX`, where it does nothing. -/
def Obligations.AlphaStepSaturates : Prop :=
  ∀ s side,
    exec (.alphaStep side) s =
      .next { s.setCodec side
          { s.codec side with
            dict :=
              { (s.codec side).dict with
                n := BitVec.ofNat 17 (min ((s.codec side).dict.n.toNat + 1) (s.codec side).dict.max.toNat) } } with
        result := .unit }

/-! ### The encoder -/

/-- R192: `E_FIRST` with a byte starts a match; at the end of the source it writes `END`, the padding, and ends the
run with success. (log entry 4) -/
def Obligations.FirstByteStartsMatch : Prop :=
  ∀ s,
    (∀ b bs, s.enc.codec.port.source = b :: bs →
      exec .eFirst s =
        .next { s with
          enc :=
            { s.enc with
              codec := { s.enc.codec with phase := .eNext, port := { s.enc.codec.port with source := bs } }
              wCode := some (b.setWidth 16)
              mlen := 1 }
          result := .unit }) ∧
    (s.enc.codec.port.source = [] → isAlphabet s.enc.codec.dict.n = true → s.enc.codec.neverRefused = true →
      s.enc.codec.buf.settled = true →
      ∃ bytes,
        exec .eFirst s =
          .next { s.setCodec .enc
              { s.enc.codec.pushed bytes with buf := { acc := 0, nbits := 0 }, phase := .done } with
            result := .unit } ∧
        endsPadded bytes (s.enc.codec.buf.bits ++ codewordBits s.enc.codec.dict.n.toNat 257))

/-- R193, R194: `E_NEXT` with a byte that extends the match. -/
def Obligations.NextByteExtendsMatch : Prop :=
  (∀ s c, isStringCode c = true →
    exec (.encExtend c) s =
      .next { s with enc := { s.enc with wCode := some c, mlen := s.enc.mlen + 1 }, result := .unit }) ∧
  (∀ s w b bs c, s.enc.wCode = some w → s.enc.codec.port.source = b :: bs → s.enc.lookup w b = some c →
    exec .eNext s =
      .next { s with
        enc :=
          { s.enc with
            codec := { s.enc.codec with phase := .eNext, port := { s.enc.codec.port with source := bs } }
            wCode := some c
            mlen := s.enc.mlen + 1 }
        result := .unit })

/-- R193: `E_NEXT` at the end of the source: the current match, then `END` with the stepped alphabet size, then the
padding, and success. (log entry 4) -/
def Obligations.EndOfInputFinishesStream : Prop :=
  ∀ s w, s.enc.wCode = some w → s.enc.codec.port.source = [] → s.enc.codec.dict.Inv → w.toNat < s.enc.codec.dict.n.toNat →
    s.enc.codec.neverRefused = true → s.enc.codec.buf.settled = true →
    ∃ bytes n,
      exec .eNext s =
        .next { s.setCodec .enc
            { s.enc.codec.pushed bytes with
              dict := { s.enc.codec.dict with n := n }, buf := { acc := 0, nbits := 0 }, phase := .done } with
          result := .unit } ∧
      n.toNat = min (s.enc.codec.dict.n.toNat + 1) s.enc.codec.dict.max.toNat ∧
      endsPadded bytes
        (s.enc.codec.buf.bits ++ codewordBits s.enc.codec.dict.n.toNat w.toNat ++ codewordBits n.toNat 257)

/-- R193, R195: `E_NEXT` with a byte that does not extend the match is `ENC_MISS` with that byte; and `ENC_MISS` is
its parts in order: emission, insertion, monitor, flush if asked for, and the byte as the new match. With a match that is
not below `n`, which no run reaches, both sides draw the same free codeword: log entry 13, the model's choice. -/
def Obligations.MissIsItsPartsInOrder : Prop :=
  (∀ s w b bs t, s.enc.wCode = some w → s.enc.codec.port.source = b :: bs → s.enc.lookup w b = none →
    exec (.encMiss b)
      (s.setCodec .enc { s.enc.codec with port := { s.enc.codec.port with source := bs } }) = .next t →
    exec .eNext s =
      .next (if t.result = .failed then t else t.setCodec .enc { t.enc.codec with phase := .eNext })) ∧
  (∀ s w b s1 s2 s3 s4 wd flush, s.enc.wCode = some w → isDataCode w = true →
    exec (.emitData w) s = .next s1 → s1.result = .value wd →
    exec (.dictInsertGrowing .enc w b) s1 = .next s2 →
    exec (.monUpdate s2.enc.mlen (BitVec.ofNat 5 wd)) s2 = .next s3 → s3.result = .flag flush →
    (if flush then exec .encFlushDict s3 else .next s3) = .next s4 → s4.result ≠ .failed →
    exec (.encMiss b) s =
      .next { s4 with enc := { s4.enc with wCode := some (b.setWidth 16), mlen := 1 }, result := .unit })

/-- R195, R28: in a running encoder a miss completes: the match becomes the byte, and the invariant holds again. -/
def Obligations.MissCompletes : Prop :=
  ∀ s w b, s.enc.Inv → s.enc.codec.phase = .eNext → s.enc.wCode = some w → s.enc.lookup w b = none →
    s.enc.codec.neverRefused = true →
    ∃ e, exec (.encMiss b) s = .next { s with enc := e, result := .unit } ∧ e.Inv ∧
      e.wCode = some (b.setWidth 16) ∧ e.mlen = 1 ∧ e.codec.phase = .eNext ∧ e.codec.port.source = s.enc.codec.port.source

/-- R196: `EMIT_DATA` writes the codeword of `c` with the current `n`, then steps `n`; the result is the width. -/
def Obligations.EmitDataWritesThenSteps : Prop :=
  ∀ s c, isDataCode c = true → isAlphabet s.enc.codec.dict.n = true → c.toNat < s.enc.codec.dict.n.toNat →
    s.enc.codec.neverRefused = true → s.enc.codec.buf.settled = true →
    ∃ bytes buf,
      exec (.emitData c) s =
        .next { s.setCodec .enc
            { s.enc.codec.pushed bytes with
              buf := buf
              dict :=
                { s.enc.codec.dict with
                  n := BitVec.ofNat 17 (min (s.enc.codec.dict.n.toNat + 1) s.enc.codec.dict.max.toNat) } } with
          result := .value (codewordBits s.enc.codec.dict.n.toNat c.toNat).length } ∧
      bytesBits bytes ++ buf.bits = s.enc.codec.buf.bits ++ codewordBits s.enc.codec.dict.n.toNat c.toNat ∧
      buf.settled = true

/-- R197, R198, R199: `MON_RESET`; `MON_UPDATE` under a window policy, its sums as the 32-bit registers hold them (the
default has 4096 bytes and 256 bits); and under every policy it changes only the monitor and asks for a flush only when
`full = 1`. -/
def Obligations.MonitorCountsAndAsksForFlush : Prop :=
  (∀ s, exec .monReset s =
    .next { s with
      enc := { s.enc with monIn := 0, monOut := 0, monOther := s.enc.policy.resetState }, result := .unit }) ∧
  (∀ s bytes bits mlen wd, s.enc.policy = .window bytes bits →
    exec (.monUpdate mlen wd) s =
      .next
        (if bytes ≤ (s.enc.monIn + mlen.setWidth 32).toNat then
          { s with
            enc := { s.enc with monIn := 0, monOut := 0 }
            result := .flag (decide (s.enc.codec.dict.full = true ∧
              8 * (s.enc.monIn + mlen.setWidth 32).toNat + bits < (s.enc.monOut + wd.setWidth 32).toNat)) }
        else
          { s with
            enc := { s.enc with monIn := s.enc.monIn + mlen.setWidth 32, monOut := s.enc.monOut + wd.setWidth 32 }
            result := .flag false })) ∧
  State.reset.enc.policy = .window 4096 256 ∧
  (∀ s mlen wd, ∃ monIn monOut monOther flush,
    exec (.monUpdate mlen wd) s =
      .next { s with
        enc := { s.enc with monIn := monIn, monOut := monOut, monOther := monOther }, result := .flag flush } ∧
    (flush = true → s.enc.codec.dict.full = true))

/-- R200: `ENC_FLUSHDICT` writes `CLEAR` with the current `n`, then resets the dictionary and the monitor; the packer
is not flushed. -/
def Obligations.FlushDictWritesClear : Prop :=
  ∀ s, isAlphabet s.enc.codec.dict.n = true → s.enc.codec.neverRefused = true → s.enc.codec.buf.settled = true →
    ∃ bytes buf,
      exec .encFlushDict s =
        .next { s with
          enc :=
            { s.enc with
              codec :=
                { s.enc.codec.pushed bytes with
                  buf := buf
                  dict := { s.enc.codec.dict with nextFree := 258, full := false, cursor := 258, n := 258 } }
              index := []
              monIn := 0
              monOut := 0
              monOther := s.enc.policy.resetState }
          result := .unit } ∧
      bytesBits bytes ++ buf.bits = s.enc.codec.buf.bits ++ codewordBits s.enc.codec.dict.n.toNat 256 ∧
      buf.settled = true

/-- R201, R123, R277: `ENC_FINISH` pads, empties the packer and ends with success. (log entry 4) -/
def Obligations.EncFinishPadsAndEnds : Prop :=
  ∀ s, s.enc.codec.neverRefused = true → s.enc.codec.buf.settled = true →
    ∃ bytes,
      exec .encFinish s =
        .next { s.setCodec .enc
            { s.enc.codec.pushed bytes with buf := { acc := 0, nbits := 0 }, phase := .done } with
          result := .unit } ∧
      endsPadded bytes s.enc.codec.buf.bits

/-- R203: in a running encoder the match is a data code below `n`, and its codeword at that `n` is what the encoder
writes next: on a miss, by `ENC_MISS` and by `E_NEXT`, and at the end of the source. -/
def Obligations.EmittedCodeBelowAlphabet : Prop :=
  ∀ s, s.enc.Inv → s.enc.codec.phase = .eNext → s.enc.codec.neverRefused = true →
    ∃ w, s.enc.wCode = some w ∧ isDataCode w = true ∧ w.toNat < s.enc.codec.dict.n.toNat ∧
      (∀ b, s.enc.lookup w b = none →
        ∃ t, exec (.encMiss b) s = .next t ∧
          s.enc.codec.written ++ codewordBits s.enc.codec.dict.n.toNat w.toNat <+: t.enc.codec.written) ∧
      (∀ b bs, s.enc.codec.port.source = b :: bs → s.enc.lookup w b = none →
        ∃ t, exec .eNext s = .next t ∧
          s.enc.codec.written ++ codewordBits s.enc.codec.dict.n.toNat w.toNat <+: t.enc.codec.written) ∧
      (s.enc.codec.port.source = [] →
        ∃ t, exec .eNext s = .next t ∧
          s.enc.codec.written ++ codewordBits s.enc.codec.dict.n.toNat w.toNat <+: t.enc.codec.written)

/-! ### The decoder -/

/-- R221, R97: the header byte: a legal one configures and empties the dictionary, any other fails with `BAD_HEADER`
and pushes nothing; `D_HDR` pulls it, and an empty source is `TRUNCATED`. -/
def Obligations.HeaderByteIsChecked : Prop :=
  (∀ s b, 9 ≤ b.toNat → b.toNat ≤ 16 →
    exec (.hdr b) s =
      .next { s with
        dec :=
          { s.dec with
            codec :=
              { s.dec.codec with
                dict :=
                  { s.dec.codec.dict with
                    maxbits := b.setWidth 5, max := BitVec.ofNat 17 (2 ^ b.toNat), nextFree := 258, full := false,
                    cursor := 258, n := 258 }
                phase := .dSymbol } }
        result := .unit }) ∧
  (∀ s b, b.toNat < 9 ∨ 16 < b.toNat →
    ∃ t, exec (.hdr b) s = .next t ∧ t.dec.codec.phase = .failed ∧ t.dec.codec.cause = 1 ∧
      t.dec.codec.port = s.dec.codec.port ∧ t.result = .failed) ∧
  (∀ s b bs, s.dec.codec.port.source = b :: bs →
    exec .dHdr s =
      exec (.hdr b) (s.setCodec .dec { s.dec.codec with port := { s.dec.codec.port with source := bs } })) ∧
  (∀ s b bs, s.dec.codec.port.source = b :: bs → 9 ≤ b.toNat → b.toNat ≤ 16 →
    ∃ t, exec .dHdr s = .next t ∧ t.dec.codec.phase = .dSymbol ∧ t.dec.codec.dict.maxbits = b.setWidth 5 ∧
      t.dec.codec.dict.max.toNat = 2 ^ b.toNat ∧ t.dec.codec.port.source = bs ∧
      t.dec.codec.port.sink = s.dec.codec.port.sink) ∧
  (∀ s, s.dec.codec.port.source = [] →
    ∃ t, exec .dHdr s = .next t ∧ t.dec.codec.phase = .failed ∧ t.dec.codec.cause = 3 ∧
      t.dec.codec.port = s.dec.codec.port ∧ t.result = .failed)

/-- R223, R224, R232: `END` ends the run and changes nothing else; `CLEAR` empties the dictionary and forgets `prev`,
and touches neither the unpacker nor the sink; the padding has no effect. That `END` leaves every register R223 does not
name is the model's choice (log entry 4), and that a `PAD` executed on its own changes nothing is deduced from R232 (log
entry 25). -/
def Obligations.ControlTokens : Prop :=
  (∀ s, exec .endTok s =
    .next { s with dec := { s.dec with codec := { s.dec.codec with phase := .done } }, result := .unit }) ∧
  (∀ s, exec .clear s =
    .next { s with
      dec :=
        { s.dec with
          codec :=
            { s.dec.codec with
              dict := { s.dec.codec.dict with nextFree := 258, full := false, cursor := 258, n := 258 } }
          prev := none }
      result := .unit }) ∧
  (∀ s j, exec (.pad j) s = .next s)

/-- R229, R30: `EXPAND(c)` pushes `string(c)`, first byte first, and answers its first byte; only the stack is
touched besides, and it is empty again. -/
def Obligations.ExpandPushesString : Prop :=
  ∀ s c string, s.dec.codec.neverRefused = true → s.dec.codec.dict.max.toNat ≤ 65536 →
    s.dec.codec.dict.string c = some string →
    ∃ stk fb,
      exec (.expand c) s =
        .next { s with
          dec := { s.dec with codec := s.dec.codec.pushed string, stk := stk, sp := 0 }, result := .byte fb } ∧
      string.head? = some fb

/-- R229: whatever the dictionary holds, `EXPAND` of 256 or 257 fails with `BAD_CODE` and pushes nothing, and a
completed expansion pushes at most `MAX - 257` bytes (R234). (log entry 4) -/
def Obligations.ExpandIsGuarded : Prop :=
  (∀ s c, c.toNat = 256 ∨ c.toNat = 257 →
    exec (.expand c) s =
      .next { s with
        dec := { s.dec with codec := { s.dec.codec with phase := .failed, cause := 2 }, sp := 0 }
        result := .failed }) ∧
  (∀ s c t, exec (.expand c) s = .next t → 258 ≤ s.dec.codec.dict.max.toNat → s.dec.codec.dict.max.toNat ≤ 65536 →
    t.dec.codec.port.sink.length ≤ s.dec.codec.port.sink.length + (s.dec.codec.dict.max.toNat - 257))

/-- R226: `LIT` pushes its byte; the result is the byte. R227, R228: of the string tokens the pending code pushes
`string(prev)` and its first byte again, an assigned code pushes its own string, and a code that is neither fails with
`BAD_CODE` and pushes nothing. (log entry 4) -/
def Obligations.TokensPushTheirStrings : Prop :=
  (∀ s b, s.dec.codec.neverRefused = true →
    exec (.lit b) s = .next { s.setCodec .dec (s.dec.codec.pushed [b]) with result := .byte b }) ∧
  (∀ s c p string, isStringCode c = true → s.dec.prev = some p → s.dec.codec.dict.pending p = some c →
    s.dec.codec.neverRefused = true → s.dec.codec.dict.max.toNat ≤ 65536 → s.dec.codec.dict.string p = some string →
    ∃ stk fb,
      exec (.strKwKwK c) s =
        .next { s with
          dec := { s.dec with codec := s.dec.codec.pushed (string ++ [fb]), stk := stk, sp := 0 }
          result := .byte fb } ∧
      string.head? = some fb) ∧
  (∀ s c string, isStringCode c = true → (∀ p, s.dec.prev = some p → s.dec.codec.dict.pending p ≠ some c) →
    s.dec.codec.dict.assigned c = true → s.dec.codec.neverRefused = true → s.dec.codec.dict.max.toNat ≤ 65536 →
    s.dec.codec.dict.string c = some string →
    ∃ stk fb,
      exec (.str c) s =
        .next { s with
          dec := { s.dec with codec := s.dec.codec.pushed string, stk := stk, sp := 0 }, result := .byte fb } ∧
      string.head? = some fb) ∧
  (∀ s c, isStringCode c = true → (∀ p, s.dec.prev = some p → s.dec.codec.dict.pending p ≠ some c) →
    s.dec.codec.dict.assigned c = false →
    exec (.str c) s =
      .next { s with
        dec := { s.dec with codec := { s.dec.codec with phase := .failed, cause := 2 } }, result := .failed })

/-- R230, R231: `DEC_INSERT` inserts `(prev, fb)` if there is a `prev`, and otherwise nothing; `DEC_NEXT` steps `n`
and remembers the code. -/
def Obligations.DecoderGrowth : Prop :=
  (∀ s fb, s.dec.prev = none → exec (.decInsert fb) s = .next { s with result := .noCode }) ∧
  (∀ s fb p, s.dec.prev = some p → isDataCode p = true →
    exec (.decInsert fb) s = exec (.dictInsertGrowing .dec p fb) s ∧
    ∃ t, exec (.decInsert fb) s = .next t) ∧
  (∀ s c, isDataCode c = true →
    exec (.decNext c) s =
      .next { s with
        dec :=
          { s.dec with
            codec :=
              { s.dec.codec with
                dict :=
                  { s.dec.codec.dict with
                    n := BitVec.ofNat 17 (min (s.dec.codec.dict.n.toNat + 1) s.dec.codec.dict.max.toNat) } }
            prev := some c }
        result := .unit })

/-- R225: `DATA(c)` is the token, then `DEC_INSERT` of its first byte, then `DEC_NEXT(c)`; the pending code is told
before anything is expanded. With `prev` 256 or 257, which no run reaches, both sides draw the same free victim: log
entry 13, the model's choice. -/
def Obligations.DataIsTokenInsertNext : Prop :=
  ∀ s c fb s1 s2 s3, isDataCode c = true → (s.dec.prev.bind s.dec.codec.dict.pending = some c → isStringCode c = true) →
    exec (Decoder.dataTokenOf s.dec c) s = .next s1 → s1.result = .byte fb →
    exec (.decInsert fb) s1 = .next s2 → exec (.decNext c) s2 = .next s3 →
    exec (.data c) s = .next s3

/-- R225, R36: in a running decoder a data code the code allows completes: its string is pushed, and it is the new
`prev`, which denotes a string. -/
def Obligations.DataCompletes : Prop :=
  ∀ s c, s.dec.Inv → s.dec.codec.dict.Forest → s.dec.codec.phase = .dSymbol → isDataCode c = true →
    c.toNat < s.dec.codec.dict.n.toNat → s.dec.codec.neverRefused = true →
    ∃ d string, exec (.data c) s = .next { s with dec := d, result := .unit } ∧ d.Inv ∧ d.codec.dict.Forest ∧
      d.prev = some c ∧ d.codec.dict.string c = some string ∧
      d.codec.port.sink = s.dec.codec.port.sink ++ string

/-- R275, R276, R277: `raise Fail` writes the cause's code and the phase, `finish` the phase; nothing else changes.
(log entry 4) -/
def Obligations.FailureAndEnd : Prop :=
  ∀ s side,
    (∀ cause, exec (.raiseFail side cause) s =
      .next { s.setCodec side
          { s.codec side with
            phase := .failed
            cause := (match cause with | .badHeader => 1 | .badCode => 2 | .truncated => 3 | .sinkFail => 4) } with
        result := .failed }) ∧
    exec (.finish side) s = .next { s.setCodec side { s.codec side with phase := .done } with result := .unit }

/-- R222, R126: in a running decoder `D_SYMBOL` reads the codeword ahead and nothing more. `END` ends the run; `CLEAR`
empties the dictionary and forgets `prev`; any other code pushes its string and becomes `prev`. Where no codeword is
ahead the run fails with `TRUNCATED` and nothing is pushed. (log entry 4) -/
def Obligations.SymbolRunsCodewordAhead : Prop :=
  ∀ s, s.dec.Inv → s.dec.codec.dict.Forest → s.dec.codec.phase = .dSymbol → s.dec.codec.neverRefused = true →
    (∀ v rest, readCodeword s.dec.codec.dict.n.toNat s.dec.codec.ahead = some (v, rest) →
      ∃ d, exec .dSymbol s = .next { s with dec := d, result := .unit } ∧
        d.codec.ahead = rest ∧ d.codec.buf.nbits.toNat ≤ 7 ∧
        (v = 257 → d.codec.phase = .done ∧ d.codec.dict = s.dec.codec.dict ∧ d.prev = s.dec.prev ∧
          d.codec.port.sink = s.dec.codec.port.sink) ∧
        (v = 256 → d.codec.phase = .dSymbol ∧ d.prev = none ∧ d.codec.port.sink = s.dec.codec.port.sink ∧
          d.codec.dict = { s.dec.codec.dict with nextFree := 258, full := false, cursor := 258, n := 258 }) ∧
        (v ≠ 256 → v ≠ 257 → d.codec.phase = .dSymbol ∧ d.prev = some (BitVec.ofNat 16 v) ∧
          ∃ string, d.codec.dict.string (BitVec.ofNat 16 v) = some string ∧
            d.codec.port.sink = s.dec.codec.port.sink ++ string)) ∧
    (readCodeword s.dec.codec.dict.n.toNat s.dec.codec.ahead = none →
      ∃ d, exec .dSymbol s = .next { s with dec := d, result := .failed } ∧ d.codec.phase = .failed ∧
        d.codec.cause = 3 ∧ d.codec.port.sink = s.dec.codec.port.sink ∧ d.codec.port.source = [])

/-! ### The whole machine -/

/-- R290, R70: no instruction of one instance touches the other, nor any other instance of the block, the schedule or
what the host has read. -/
def Obligations.InstancesShareNothing : Prop :=
  ∀ i s t, exec i s = .next t →
    t.encRest = s.encRest ∧ t.decRest = s.decRest ∧ t.sched = s.sched ∧ t.hostStatus = s.hostStatus ∧
    (runsOn i = .enc → t.dec = s.dec) ∧ (runsOn i = .dec → t.enc = s.enc)

/-- R66, R276, R315, R316: whatever the instruction, the bytes a sink holds stay and stay in front, and a source is
only ever read from its head. -/
def Obligations.StreamsNeverRewind : Prop :=
  ∀ i s t side, exec i s = .next t →
    (s.codec side).port.sink <+: (t.codec side).port.sink ∧
    (t.codec side).port.source <:+ (s.codec side).port.source

/-- R274: with a sink that never refuses no instruction but `raise Fail` itself fails with `SINK_FAIL`. -/
def Obligations.NeverRefusingSinkNeverFails : Prop :=
  ∀ i s t side, exec i s = .next t → (∀ cause, i ≠ .raiseFail side cause) → (s.codec side).neverRefused = true →
    (t.codec side).cause = 4 → (s.codec side).cause = 4

/-- R274, R276: whatever the instruction, the answers of a sink that it uses up are accepted pushes, and where the last
of them is a refusal the run has failed with `SINK_FAIL` and pushed no further. -/
def Obligations.RefusalEndsTheRun : Prop :=
  ∀ i s t side, exec i s = .next t →
    ∃ oks, (∀ a ∈ oks, a = SinkAnswer.ok) ∧
      ((s.codec side).port.answers = oks ++ (t.codec side).port.answers ∨
        ((s.codec side).port.answers = oks ++ .refuse :: (t.codec side).port.answers ∧
          (t.codec side).phase = .failed ∧ (t.codec side).cause = 4 ∧ t.result = .failed))

/-- The stops of the model, each by its name (log entries 2, 8, 13, 14, 15, 20): the only refused instructions are
codeword formats with fields no codeword has, and an instruction with an operand that `Instr.wf` rejects runs. `Instr.wf`
rejects no operand of `EXPAND`, whose range depends on the state: there the stop is the fault of log entry 2. The others:
a match that is none, the pair of a code that is not assigned, an array entry nothing has written, a phase of the other
kind of instance, a running instance rewired, an instance the block does not have. -/
def Obligations.StopsAreNamed : Prop :=
  (∀ i s r, exec i s = .refused r →
    r = .notACodeword ∧ ((∃ side p, i = .abs side p) ∨ ∃ side p e, i = .abl side p e)) ∧
  (∀ i s, s.Inv → i.wf = false → ∃ t, exec i s = .next t) ∧
  (∀ s b, s.enc.wCode = none → exec .eNext s = .fault .noMatch ∧ exec (.encMiss b) s = .fault .noMatch) ∧
  (∀ s c, isStringCode c = true → 258 < s.dec.codec.dict.max.toNat →
    readMem s.dec.codec.dict.term c.toNat = none → exec (.expand c) s = .fault .unspecifiedRead) ∧
  (∀ s c, 258 < s.dec.codec.dict.max.toNat → s.dec.codec.dict.assigned c = false →
    exec (.expand c) s = .fault .unspecifiedRead) ∧
  (∀ s side rest, s.sched = .run side :: rest → (s.codec side).busy = true →
    phaseInstr side (s.codec side).phase = none → step s = .fault .wrongPhase) ∧
  (∀ s side source status answers rest, s.sched = .connect side source status answers :: rest →
    (s.codec side).busy = true → step s = .refused .portInUse) ∧
  (∀ s k rest, s.sched = .focus .enc k :: rest → s.encRest.length ≤ k → step s = .refused .noSuchInstance) ∧
  (∀ s k rest, s.sched = .focus .dec k :: rest → s.decRest.length ≤ k → step s = .refused .noSuchInstance)

/-- The memories stay in canonical form whatever instruction is executed. -/
def Obligations.InstructionsKeepCanonicalMemory : Prop :=
  ∀ i s t, s.MemWf → exec i s = .next t → t.MemWf

/-- R46: the state after reset meets the invariant of the block. -/
def Obligations.ResetMeetsInvariant : Prop := State.reset.Inv

/-- R21 to R28, R35, R36, R38, R174: from every state that meets the invariant, whatever is scheduled within the
model, the step answers a next state, and it meets the invariant. -/
def Obligations.StepKeepsInvariant : Prop :=
  ∀ s, s.Inv → s.hostInModel = true → ∃ t, step s = .next t ∧ t.Inv

/-- R173: every insertion keeps the prefix forest well founded. -/
def Obligations.InsertKeepsForest : Prop :=
  ∀ (d : Dict) p b, d.Inv → d.Forest → d.denotes p = true → (d.insert p b).2.Forest

/-- R233, R173: in a running decoder whose forest is well founded no symbol, whatever the bits, fails with
`BAD_CODE`, and the forest stays well founded. -/
def Obligations.DecoderNeverFailsWithBadCode : Prop :=
  ∀ s t, s.dec.Inv → s.dec.codec.dict.Forest → s.dec.codec.phase = .dSymbol → exec .dSymbol s = .next t →
    t.dec.codec.dict.Forest ∧ (t.dec.codec.phase = .failed → t.dec.codec.cause = 3 ∨ t.dec.codec.cause = 4)

/-! ### Decoding and stepping -/

/-- A step runs the decoded instruction: a command word as it stands on the `CMD` port, and the rule of the phase
where an instance steps; around `exec` the step only takes the event off the schedule. -/
def Obligations.StepRunsDecodedInstruction : Prop :=
  (∀ s m ig rest, s.sched = .writeCmd .enc (ig ++ m ++ 0#1) :: rest →
    step s = exec (.compress m ig) { s with sched := rest }) ∧
  (∀ s ig rest, s.sched = .writeCmd .dec (ig ++ 1#1) :: rest →
    step s = exec (.decompress ig) { s with sched := rest }) ∧
  (∀ s rest, s.sched = .run .enc :: rest →
    (s.enc.codec.phase = .eFirst → step s = exec .eFirst { s with sched := rest }) ∧
    (s.enc.codec.phase = .eNext → step s = exec .eNext { s with sched := rest })) ∧
  (∀ s rest, s.sched = .run .dec :: rest →
    (s.dec.codec.phase = .dHdr → step s = exec .dHdr { s with sched := rest }) ∧
    (s.dec.codec.phase = .dSymbol → step s = exec .dSymbol { s with sched := rest })) ∧
  (∀ s, s.sched = [] →
    (s.enc.codec.phase = .eFirst → step s = exec .eFirst s) ∧
    (s.enc.codec.phase = .eNext → step s = exec .eNext s) ∧
    (s.enc.codec.busy = false → s.dec.codec.phase = .dHdr → step s = exec .dHdr s) ∧
    (s.enc.codec.busy = false → s.dec.codec.phase = .dSymbol → step s = exec .dSymbol s) ∧
    (s.enc.codec.busy = false → s.dec.codec.busy = false → step s = .next s))

/-- R40, R95, R142: a decoder's step runs the token its stream holds: where the bits ahead begin with a codeword, the
step is `END`, `CLEAR` or `DATA` of its value on the decoder that has read exactly those bits. -/
def Obligations.StepRunsTokenAhead : Prop :=
  ∀ s rest v bits, s.sched = .run .dec :: rest → s.dec.Inv → s.dec.codec.phase = .dSymbol →
    readCodeword s.dec.codec.dict.n.toNat s.dec.codec.ahead = some (v, bits) →
    ∃ buf source s1,
      s1 = ({ s with sched := rest }).setCodec .dec
        { s.dec.codec with buf := buf, port := { s.dec.codec.port with source := source } } ∧
      buf.bits ++ bytesBits source = bits ∧
      (v = 257 → step s = exec .endTok s1) ∧
      (v = 256 → step s = exec .clear s1) ∧
      (∀ t, v ≠ 256 → v ≠ 257 → exec (.data (BitVec.ofNat 16 v)) s1 = .next t → step s = .next t)

/-- R91, R95, R99: words written out from the encodings decode to the instructions they stand for. -/
def Obligations.EncodedWordsDecode : Prop :=
  decodeCmd 0x12 = .compress 9 0 ∧ decodeCmd 0x20 = .compress 16 0 ∧ decodeCmd 0x01 = .decompress 0 ∧
    decodeToken none 0x0041 = .lit 0x41 ∧ decodeToken none 0x0100 = .clear ∧ decodeToken none 0x0101 = .endTok ∧
    decodeToken none 0x0102 = .str 258 ∧ decodeToken (some 258) 0x0102 = .strKwKwK 258 ∧
    decodeStream [0x09, 0xFF, 0x01] = .ok [.hdr 9, .endTok] ∧
    decodeStream [0x0C, 0x41, 0xFF, 0x00] = .ok [.hdr 12, .lit 0x41, .endTok] ∧
    decodeStream [0x29] = .error .badHeader ∧ decodeStream [0x09, 0xFF] = .error .truncated

/-- R90, R143: a stream written for any header and any list of tokens decodes to exactly that header and those
tokens, and nothing after its last byte is looked at. -/
def Obligations.StreamDecodesToItsTokens : Prop :=
  ∀ b toks more, isLegalMaxbits b.toNat = true → writable (2 ^ b.toNat) 258 toks →
    decodeStream (encodeStream b (toks ++ [.endTok]) ++ more) = .ok (.hdr b :: toks ++ [.endTok])

/-- R235: for every source, every legal `maxbits` and every flush policy, from any state of the block: the encoder
ends with success, and a decoder fed what its sink received ends with success and pushes exactly the source. -/
def Obligations.RoundTrip : Prop :=
  ∀ s m ig ig', s.enc.codec.busy = false → s.dec.codec.busy = false → isLegalMaxbits m.toNat = true →
    s.enc.codec.neverRefused = true → s.dec.codec.neverRefused = true →
    s.enc.codec.port.sink = [] → s.dec.codec.port.sink = [] →
    s.enc.codec.dict.Inv → s.dec.codec.dict.Inv → Mem.wf s.enc.index → Mem.wf s.dec.stk →
    ∃ s1 t fuel, exec (.compress m ig) s = .next s1 ∧ runEncoder fuel s1 = some t ∧
      t.enc.codec.phase = .done ∧
      ∃ s2 u fuel',
        exec (.decompress ig')
          (t.setCodec .dec { t.dec.codec with port := { t.dec.codec.port with source := t.enc.codec.port.sink } }) =
            .next s2 ∧
        runDecoder fuel' s2 = some u ∧ u.dec.codec.phase = .done ∧
        u.dec.codec.port.sink = s.enc.codec.port.source ∧ u.dec.codec.port.source = []
end

