-- ==== Sys2Proof/Laws/Codes.lean ====
section
/-! SUPPORT. What the Boolean tests on codes, sizes and dictionaries say, as facts about numbers, with the constants of
`Config` already written out: to be cited in place of unfolding them. -/

namespace Sys2Proof

theorem isStringCode_iff (c : Code) : isStringCode c = true ↔ 258 ≤ c.toNat := by
  unfold isStringCode; rw [decide_eq_true_eq]; exact Iff.rfl

theorem isDataCode_iff (c : Code) : isDataCode c = true ↔ c.toNat ≠ 256 ∧ c.toNat ≠ 257 := by
  unfold isDataCode; rw [Bool.and_eq_true, bne_iff_ne, bne_iff_ne]; exact Iff.rfl

theorem isAlphabet_iff (n : BitVec 17) : isAlphabet n = true ↔ 258 ≤ n.toNat ∧ n.toNat ≤ 65536 := by
  unfold isAlphabet; rw [Bool.and_eq_true, decide_eq_true_eq, decide_eq_true_eq]; exact Iff.rfl

theorem isFieldWidth_iff (wd : BitVec 5) : isFieldWidth wd = true ↔ 1 ≤ wd.toNat ∧ wd.toNat ≤ 16 := by
  unfold isFieldWidth; rw [Bool.and_eq_true, decide_eq_true_eq, decide_eq_true_eq]

theorem fitsField_iff (val : BitVec 16) (wd : BitVec 5) : fitsField val wd = true ↔ val.toNat < 2 ^ wd.toNat := by
  unfold fitsField; rw [decide_eq_true_eq]

theorem isLegalMaxbits_iff (m : Nat) : isLegalMaxbits m = true ↔ 9 ≤ m ∧ m ≤ 16 := by
  unfold isLegalMaxbits; rw [Bool.and_eq_true, decide_eq_true_eq, decide_eq_true_eq]; exact Iff.rfl

namespace Machine

theorem Dict.assigned_iff (d : Dict) (c : Code) : d.assigned c = true ↔ c.toNat < 258 ∨ c.toNat < d.nextFree.toNat := by
  unfold Dict.assigned; rw [Bool.or_eq_true, decide_eq_true_eq, decide_eq_true_eq]; exact Iff.rfl

theorem Dict.denotes_iff (d : Dict) (c : Code) :
    d.denotes c = true ↔
      (c.toNat < 258 ∨ c.toNat < d.nextFree.toNat) ∧ c.toNat ≠ 256 ∧ c.toNat ≠ 257 := by
  unfold Dict.denotes; rw [Bool.and_eq_true, Dict.assigned_iff, isDataCode_iff]

theorem Dict.isAssignedString_iff (d : Dict) (c : Code) :
    d.isAssignedString c = true ↔ 258 ≤ c.toNat ∧ c.toNat < d.nextFree.toNat := by
  unfold Dict.isAssignedString; rw [Bool.and_eq_true, isStringCode_iff, decide_eq_true_eq]

theorem alphabetSize_iff (n : Nat) : alphabetSize n = true ↔ 258 ≤ n ∧ n ≤ 65536 := by
  unfold alphabetSize; rw [Bool.and_eq_true, decide_eq_true_eq, decide_eq_true_eq]; exact Iff.rfl

theorem Dict.inScan_iff (d : Dict) (c : Code) : d.inScan c = true ↔ 258 ≤ c.toNat ∧ c.toNat < d.max.toNat := by
  unfold Dict.inScan; rw [Bool.and_eq_true, isStringCode_iff, decide_eq_true_eq]

/-- The pair of a code is there exactly where the code is assigned and both its entries are listed. -/
theorem Dict.pair_eq_some (d : Dict) (c p : Code) (b : Byte) :
    d.pair c = some (p, b) ↔
      d.assigned c = true ∧ readMem d.pfx c.toNat = some p ∧ readMem d.term c.toNat = some b := by
  unfold Dict.pair
  split
  · rename_i h
    cases readMem d.pfx c.toNat <;> cases readMem d.term c.toNat <;> simp [h]
  · rename_i h; simp [h]

theorem Dict.hasFree_iff (d : Dict) : d.hasFree = true ↔ d.nextFree.toNat < d.max.toNat := by
  unfold Dict.hasFree; rw [decide_eq_true_eq]

theorem BitBuf.settled_iff (u : BitBuf) : u.settled = true ↔ u.nbits.toNat ≤ 7 ∧ u.acc.toNat < 2 ^ u.nbits.toNat := by
  unfold BitBuf.settled; rw [Bool.and_eq_true, decide_eq_true_eq, decide_eq_true_eq]

theorem Decoder.isPending_iff (c : Code) (d : Decoder) :
    d.isPending c = true ↔ d.prev.bind d.codec.dict.pending = some c := by
  unfold Decoder.isPending; cases d.prev <;> simp

theorem longInRange_iff (n : Nat) (p : Code) :
    longInRange n p = true ↔ (abParams n).2 ≤ p.toNat ∧ p.toNat < 2 ^ (abParams n).1 := by
  unfold longInRange; rw [Bool.and_eq_true, decide_eq_true_eq, decide_eq_true_eq]

theorem shortInRange_iff (n : Nat) (p : Code) : shortInRange n p = true ↔ p.toNat < (abParams n).2 := by
  unfold shortInRange; rw [decide_eq_true_eq]

end Machine

end Sys2Proof
end

