-- ==== Sys2Proof/Laws/State.lean ====
section
/-! SUPPORT. One lemma per field per update of the state, so that no later proof unfolds a record update. -/

namespace Sys2Proof.Machine

/-! The sink accepted a byte. -/

@[simp] theorem Port.accept_source (p : Port) (b : Byte) : (p.accept b).source = p.source := rfl
@[simp] theorem Port.accept_sink (p : Port) (b : Byte) : (p.accept b).sink = p.sink ++ [b] := rfl
@[simp] theorem Port.accept_status (p : Port) (b : Byte) : (p.accept b).status = p.status := rfl
@[simp] theorem Port.accept_answers (p : Port) (b : Byte) : (p.accept b).answers = p.answers := rfl
@[simp] theorem Port.accept_number (p : Port) (b : Byte) : (p.accept b).number = p.number := rfl
@[simp] theorem Port.accept_draws (p : Port) (b : Byte) : (p.accept b).draws = p.draws := rfl

/-! The sink refused a byte. -/

@[simp] theorem Port.refuse_source (p : Port) (b : Byte) : (p.refuse b).source = p.source := rfl
@[simp] theorem Port.refuse_sink (p : Port) (b : Byte) : (p.refuse b).sink = if Config.refusedByteKept p.number p.draws then p.sink ++ [b] else p.sink := rfl
@[simp] theorem Port.refuse_status (p : Port) (b : Byte) : (p.refuse b).status = p.status := rfl
@[simp] theorem Port.refuse_answers (p : Port) (b : Byte) : (p.refuse b).answers = p.answers := rfl
@[simp] theorem Port.refuse_number (p : Port) (b : Byte) : (p.refuse b).number = p.number := rfl
@[simp] theorem Port.refuse_draws (p : Port) (b : Byte) : (p.refuse b).draws = p.draws + 1 := rfl

/-! The host wired the port. -/

@[simp] theorem Port.connect_source (p : Port) (i : List Byte) (u : SinkStatus) (as : List SinkAnswer) :
    (p.connect i u as).source = i := rfl
@[simp] theorem Port.connect_sink (p : Port) (i : List Byte) (u : SinkStatus) (as : List SinkAnswer) :
    (p.connect i u as).sink = [] := rfl
@[simp] theorem Port.connect_status (p : Port) (i : List Byte) (u : SinkStatus) (as : List SinkAnswer) :
    (p.connect i u as).status = u := rfl
@[simp] theorem Port.connect_answers (p : Port) (i : List Byte) (u : SinkStatus) (as : List SinkAnswer) :
    (p.connect i u as).answers = as := rfl
@[simp] theorem Port.connect_number (p : Port) (i : List Byte) (u : SinkStatus) (as : List SinkAnswer) :
    (p.connect i u as).number = p.number := rfl
@[simp] theorem Port.connect_draws (p : Port) (i : List Byte) (u : SinkStatus) (as : List SinkAnswer) :
    (p.connect i u as).draws = p.draws := rfl

/-! `DICT_RESET` (R160). -/

@[simp] theorem Dict.clear_maxbits (d : Dict) : d.clear.maxbits = d.maxbits := rfl
@[simp] theorem Dict.clear_max (d : Dict) : d.clear.max = d.max := rfl
@[simp] theorem Dict.clear_pfx (d : Dict) : d.clear.pfx = d.pfx := rfl
@[simp] theorem Dict.clear_term (d : Dict) : d.clear.term = d.term := rfl
@[simp] theorem Dict.clear_nextFree (d : Dict) : d.clear.nextFree = 258 := rfl
@[simp] theorem Dict.clear_full (d : Dict) : d.clear.full = false := rfl
@[simp] theorem Dict.clear_cursor (d : Dict) : d.clear.cursor = 258 := rfl
@[simp] theorem Dict.clear_n (d : Dict) : d.clear.n = 258 := rfl

/-! `maxbits` and `MAX` (R21). -/

@[simp] theorem Dict.configure_maxbits (d : Dict) (m : Nat) : (d.configure m).maxbits = BitVec.ofNat 5 m := rfl
@[simp] theorem Dict.configure_max (d : Dict) (m : Nat) : (d.configure m).max = BitVec.ofNat 17 (1 <<< m) := rfl
@[simp] theorem Dict.configure_pfx (d : Dict) (m : Nat) : (d.configure m).pfx = d.pfx := rfl
@[simp] theorem Dict.configure_term (d : Dict) (m : Nat) : (d.configure m).term = d.term := rfl
@[simp] theorem Dict.configure_nextFree (d : Dict) (m : Nat) : (d.configure m).nextFree = d.nextFree := rfl
@[simp] theorem Dict.configure_full (d : Dict) (m : Nat) : (d.configure m).full = d.full := rfl
@[simp] theorem Dict.configure_cursor (d : Dict) (m : Nat) : (d.configure m).cursor = d.cursor := rfl
@[simp] theorem Dict.configure_n (d : Dict) (m : Nat) : (d.configure m).n = d.n := rfl

/-! A pair into a slot. -/

@[simp] theorem Dict.store_maxbits (d : Dict) (c : Code) (p : Code) (b : Byte) : (d.store c p b).maxbits = d.maxbits := rfl
@[simp] theorem Dict.store_max (d : Dict) (c : Code) (p : Code) (b : Byte) : (d.store c p b).max = d.max := rfl
@[simp] theorem Dict.store_pfx (d : Dict) (c : Code) (p : Code) (b : Byte) : (d.store c p b).pfx = writeMem d.pfx c.toNat p := rfl
@[simp] theorem Dict.store_term (d : Dict) (c : Code) (p : Code) (b : Byte) : (d.store c p b).term = writeMem d.term c.toNat b := rfl
@[simp] theorem Dict.store_nextFree (d : Dict) (c : Code) (p : Code) (b : Byte) : (d.store c p b).nextFree = d.nextFree := rfl
@[simp] theorem Dict.store_full (d : Dict) (c : Code) (p : Code) (b : Byte) : (d.store c p b).full = d.full := rfl
@[simp] theorem Dict.store_cursor (d : Dict) (c : Code) (p : Code) (b : Byte) : (d.store c p b).cursor = d.cursor := rfl
@[simp] theorem Dict.store_n (d : Dict) (c : Code) (p : Code) (b : Byte) : (d.store c p b).n = d.n := rfl

/-! The growing insertion (R168). -/

@[simp] theorem Dict.grow_maxbits (d : Dict) (p : Code) (b : Byte) : (d.grow p b).maxbits = d.maxbits := rfl
@[simp] theorem Dict.grow_max (d : Dict) (p : Code) (b : Byte) : (d.grow p b).max = d.max := rfl
@[simp] theorem Dict.grow_pfx (d : Dict) (p : Code) (b : Byte) : (d.grow p b).pfx = writeMem d.pfx d.freeHead.toNat p := rfl
@[simp] theorem Dict.grow_term (d : Dict) (p : Code) (b : Byte) : (d.grow p b).term = writeMem d.term d.freeHead.toNat b := rfl
@[simp] theorem Dict.grow_nextFree (d : Dict) (p : Code) (b : Byte) : (d.grow p b).nextFree = BitVec.ofNat 17 (d.nextFree.toNat + 1) := rfl
@[simp] theorem Dict.grow_full (d : Dict) (p : Code) (b : Byte) : (d.grow p b).full = fullAfter d.full (BitVec.ofNat 17 (d.nextFree.toNat + 1)) d.max := rfl
@[simp] theorem Dict.grow_cursor (d : Dict) (p : Code) (b : Byte) : (d.grow p b).cursor = d.cursor := rfl
@[simp] theorem Dict.grow_n (d : Dict) (p : Code) (b : Byte) : (d.grow p b).n = d.n := rfl

/-! The recycling insertion (R169). -/

@[simp] theorem Dict.recycle_maxbits (d : Dict) (v : Code) (p : Code) (b : Byte) : (d.recycle v p b).maxbits = d.maxbits := rfl
@[simp] theorem Dict.recycle_max (d : Dict) (v : Code) (p : Code) (b : Byte) : (d.recycle v p b).max = d.max := rfl
@[simp] theorem Dict.recycle_pfx (d : Dict) (v : Code) (p : Code) (b : Byte) : (d.recycle v p b).pfx = writeMem d.pfx v.toNat p := rfl
@[simp] theorem Dict.recycle_term (d : Dict) (v : Code) (p : Code) (b : Byte) : (d.recycle v p b).term = writeMem d.term v.toNat b := rfl
@[simp] theorem Dict.recycle_nextFree (d : Dict) (v : Code) (p : Code) (b : Byte) : (d.recycle v p b).nextFree = d.nextFree := rfl
@[simp] theorem Dict.recycle_full (d : Dict) (v : Code) (p : Code) (b : Byte) : (d.recycle v p b).full = d.full := rfl
@[simp] theorem Dict.recycle_cursor (d : Dict) (v : Code) (p : Code) (b : Byte) : (d.recycle v p b).cursor = d.succ v := rfl
@[simp] theorem Dict.recycle_n (d : Dict) (v : Code) (p : Code) (b : Byte) : (d.recycle v p b).n = d.n := rfl

/-! `ALPHA_STEP` (R176). -/

@[simp] theorem Dict.alphaStep_maxbits (d : Dict) : d.alphaStep.maxbits = d.maxbits := rfl
@[simp] theorem Dict.alphaStep_max (d : Dict) : d.alphaStep.max = d.max := rfl
@[simp] theorem Dict.alphaStep_pfx (d : Dict) : d.alphaStep.pfx = d.pfx := rfl
@[simp] theorem Dict.alphaStep_term (d : Dict) : d.alphaStep.term = d.term := rfl
@[simp] theorem Dict.alphaStep_nextFree (d : Dict) : d.alphaStep.nextFree = d.nextFree := rfl
@[simp] theorem Dict.alphaStep_full (d : Dict) : d.alphaStep.full = d.full := rfl
@[simp] theorem Dict.alphaStep_cursor (d : Dict) : d.alphaStep.cursor = d.cursor := rfl
@[simp] theorem Dict.alphaStep_n (d : Dict) : d.alphaStep.n = BitVec.ofNat 17 (min (d.n.toNat + 1) d.max.toNat) := rfl

/-! Another dictionary. -/

@[simp] theorem Codec.setDict_dict (c : Codec) (d : Dict) : (c.setDict d).dict = d := rfl
@[simp] theorem Codec.setDict_buf (c : Codec) (d : Dict) : (c.setDict d).buf = c.buf := rfl
@[simp] theorem Codec.setDict_phase (c : Codec) (d : Dict) : (c.setDict d).phase = c.phase := rfl
@[simp] theorem Codec.setDict_cause (c : Codec) (d : Dict) : (c.setDict d).cause = c.cause := rfl
@[simp] theorem Codec.setDict_cmd (c : Codec) (d : Dict) : (c.setDict d).cmd = c.cmd := rfl
@[simp] theorem Codec.setDict_port (c : Codec) (d : Dict) : (c.setDict d).port = c.port := rfl

/-! `raise Fail` (R276), `finish` (R277), an accepted command (R252), bytes pushed. -/

@[simp] theorem Codec.raiseFail_dict (k : Cause) (c : Codec) : (c.raiseFail k).dict = c.dict := rfl
@[simp] theorem Codec.raiseFail_buf (k : Cause) (c : Codec) : (c.raiseFail k).buf = c.buf := rfl
@[simp] theorem Codec.raiseFail_phase (k : Cause) (c : Codec) : (c.raiseFail k).phase = .failed := rfl
@[simp] theorem Codec.raiseFail_cause (k : Cause) (c : Codec) : (c.raiseFail k).cause = causeCode k := rfl
@[simp] theorem Codec.raiseFail_cmd (k : Cause) (c : Codec) : (c.raiseFail k).cmd = c.cmd := rfl
@[simp] theorem Codec.raiseFail_port (k : Cause) (c : Codec) : (c.raiseFail k).port = c.port := rfl
@[simp] theorem Codec.finish_dict (c : Codec) : c.finish.dict = c.dict := rfl
@[simp] theorem Codec.finish_buf (c : Codec) : c.finish.buf = c.buf := rfl
@[simp] theorem Codec.finish_phase (c : Codec) : c.finish.phase = .done := rfl
@[simp] theorem Codec.finish_cause (c : Codec) : c.finish.cause = c.cause := rfl
@[simp] theorem Codec.finish_cmd (c : Codec) : c.finish.cmd = c.cmd := rfl
@[simp] theorem Codec.finish_port (c : Codec) : c.finish.port = c.port := rfl
@[simp] theorem Codec.acceptCmd_dict (b : Byte) (c : Codec) : (c.acceptCmd b).dict = c.dict := rfl
@[simp] theorem Codec.acceptCmd_buf (b : Byte) (c : Codec) : (c.acceptCmd b).buf = c.buf := rfl
@[simp] theorem Codec.acceptCmd_phase (b : Byte) (c : Codec) : (c.acceptCmd b).phase = c.phase := rfl
@[simp] theorem Codec.acceptCmd_cause (b : Byte) (c : Codec) : (c.acceptCmd b).cause = 0 := rfl
@[simp] theorem Codec.acceptCmd_cmd (b : Byte) (c : Codec) : (c.acceptCmd b).cmd = b := rfl
@[simp] theorem Codec.acceptCmd_port (b : Byte) (c : Codec) : (c.acceptCmd b).port = c.port := rfl
@[simp] theorem Codec.pushed_dict (c : Codec) (bs : List Byte) : (c.pushed bs).dict = c.dict := rfl
@[simp] theorem Codec.pushed_buf (c : Codec) (bs : List Byte) : (c.pushed bs).buf = c.buf := rfl
@[simp] theorem Codec.pushed_phase (c : Codec) (bs : List Byte) : (c.pushed bs).phase = c.phase := rfl
@[simp] theorem Codec.pushed_cause (c : Codec) (bs : List Byte) : (c.pushed bs).cause = c.cause := rfl
@[simp] theorem Codec.pushed_cmd (c : Codec) (bs : List Byte) : (c.pushed bs).cmd = c.cmd := rfl
@[simp] theorem Codec.pushed_sink (c : Codec) (bs : List Byte) : (c.pushed bs).port.sink = c.port.sink ++ bs := rfl
@[simp] theorem Codec.pushed_source (c : Codec) (bs : List Byte) : (c.pushed bs).port.source = c.port.source := rfl
@[simp] theorem Codec.pushed_status (c : Codec) (bs : List Byte) : (c.pushed bs).port.status = c.port.status := rfl

/-! The encoder's parts. -/

@[simp] theorem Encoder.setCodec_codec (e : Encoder) (c : Codec) : (e.setCodec c).codec = c := rfl
@[simp] theorem Encoder.setCodec_index (e : Encoder) (c : Codec) : (e.setCodec c).index = e.index := rfl
@[simp] theorem Encoder.setCodec_wCode (e : Encoder) (c : Codec) : (e.setCodec c).wCode = e.wCode := rfl
@[simp] theorem Encoder.setCodec_mlen (e : Encoder) (c : Codec) : (e.setCodec c).mlen = e.mlen := rfl
@[simp] theorem Encoder.setCodec_monIn (e : Encoder) (c : Codec) : (e.setCodec c).monIn = e.monIn := rfl
@[simp] theorem Encoder.setCodec_monOut (e : Encoder) (c : Codec) : (e.setCodec c).monOut = e.monOut := rfl
@[simp] theorem Encoder.setCodec_monOther (e : Encoder) (c : Codec) : (e.setCodec c).monOther = e.monOther := rfl
@[simp] theorem Encoder.setCodec_policy (e : Encoder) (c : Codec) : (e.setCodec c).policy = e.policy := rfl

/-! The encoder's dictionary. -/

@[simp] theorem Encoder.setDict_codec (e : Encoder) (d : Dict) : (e.setDict d).codec = e.codec.setDict d := rfl
@[simp] theorem Encoder.setDict_index (e : Encoder) (d : Dict) : (e.setDict d).index = e.index := rfl
@[simp] theorem Encoder.setDict_wCode (e : Encoder) (d : Dict) : (e.setDict d).wCode = e.wCode := rfl
@[simp] theorem Encoder.setDict_mlen (e : Encoder) (d : Dict) : (e.setDict d).mlen = e.mlen := rfl
@[simp] theorem Encoder.setDict_monIn (e : Encoder) (d : Dict) : (e.setDict d).monIn = e.monIn := rfl
@[simp] theorem Encoder.setDict_monOut (e : Encoder) (d : Dict) : (e.setDict d).monOut = e.monOut := rfl
@[simp] theorem Encoder.setDict_monOther (e : Encoder) (d : Dict) : (e.setDict d).monOther = e.monOther := rfl
@[simp] theorem Encoder.setDict_policy (e : Encoder) (d : Dict) : (e.setDict d).policy = e.policy := rfl

/-! `DICT_RESET` of an encoder (R160). -/

@[simp] theorem Encoder.dictReset_codec (e : Encoder) : e.dictReset.codec = e.codec.setDict e.codec.dict.clear := rfl
@[simp] theorem Encoder.dictReset_index (e : Encoder) : e.dictReset.index = [] := rfl
@[simp] theorem Encoder.dictReset_wCode (e : Encoder) : e.dictReset.wCode = e.wCode := rfl
@[simp] theorem Encoder.dictReset_mlen (e : Encoder) : e.dictReset.mlen = e.mlen := rfl
@[simp] theorem Encoder.dictReset_monIn (e : Encoder) : e.dictReset.monIn = e.monIn := rfl
@[simp] theorem Encoder.dictReset_monOut (e : Encoder) : e.dictReset.monOut = e.monOut := rfl
@[simp] theorem Encoder.dictReset_monOther (e : Encoder) : e.dictReset.monOther = e.monOther := rfl
@[simp] theorem Encoder.dictReset_policy (e : Encoder) : e.dictReset.policy = e.policy := rfl

/-! `INDEX_ADD` (R163). -/

@[simp] theorem Encoder.indexAdd_codec (e : Encoder) (p : Code) (b : Byte) (c : Code) : (e.indexAdd p b c).codec = e.codec := rfl
@[simp] theorem Encoder.indexAdd_index (e : Encoder) (p : Code) (b : Byte) (c : Code) : (e.indexAdd p b c).index = writeMem e.index (pairKey p b) c := rfl
@[simp] theorem Encoder.indexAdd_wCode (e : Encoder) (p : Code) (b : Byte) (c : Code) : (e.indexAdd p b c).wCode = e.wCode := rfl
@[simp] theorem Encoder.indexAdd_mlen (e : Encoder) (p : Code) (b : Byte) (c : Code) : (e.indexAdd p b c).mlen = e.mlen := rfl
@[simp] theorem Encoder.indexAdd_monIn (e : Encoder) (p : Code) (b : Byte) (c : Code) : (e.indexAdd p b c).monIn = e.monIn := rfl
@[simp] theorem Encoder.indexAdd_monOut (e : Encoder) (p : Code) (b : Byte) (c : Code) : (e.indexAdd p b c).monOut = e.monOut := rfl
@[simp] theorem Encoder.indexAdd_monOther (e : Encoder) (p : Code) (b : Byte) (c : Code) : (e.indexAdd p b c).monOther = e.monOther := rfl
@[simp] theorem Encoder.indexAdd_policy (e : Encoder) (p : Code) (b : Byte) (c : Code) : (e.indexAdd p b c).policy = e.policy := rfl

/-! `INDEX_REMOVE` (R164). -/

@[simp] theorem Encoder.indexRemove_codec (e : Encoder) (p : Code) (b : Byte) : (e.indexRemove p b).codec = e.codec := rfl
@[simp] theorem Encoder.indexRemove_index (e : Encoder) (p : Code) (b : Byte) : (e.indexRemove p b).index = eraseMem e.index (pairKey p b) := rfl
@[simp] theorem Encoder.indexRemove_wCode (e : Encoder) (p : Code) (b : Byte) : (e.indexRemove p b).wCode = e.wCode := rfl
@[simp] theorem Encoder.indexRemove_mlen (e : Encoder) (p : Code) (b : Byte) : (e.indexRemove p b).mlen = e.mlen := rfl
@[simp] theorem Encoder.indexRemove_monIn (e : Encoder) (p : Code) (b : Byte) : (e.indexRemove p b).monIn = e.monIn := rfl
@[simp] theorem Encoder.indexRemove_monOut (e : Encoder) (p : Code) (b : Byte) : (e.indexRemove p b).monOut = e.monOut := rfl
@[simp] theorem Encoder.indexRemove_monOther (e : Encoder) (p : Code) (b : Byte) : (e.indexRemove p b).monOther = e.monOther := rfl
@[simp] theorem Encoder.indexRemove_policy (e : Encoder) (p : Code) (b : Byte) : (e.indexRemove p b).policy = e.policy := rfl

/-! The growing insertion of an encoder (R168). -/

@[simp] theorem Encoder.insertGrowing_codec (e : Encoder) (p : Code) (b : Byte) : (e.insertGrowing p b).codec = e.codec.setDict (e.codec.dict.grow p b) := rfl
@[simp] theorem Encoder.insertGrowing_index (e : Encoder) (p : Code) (b : Byte) : (e.insertGrowing p b).index = writeMem e.index (pairKey p b) e.codec.dict.freeHead := rfl
@[simp] theorem Encoder.insertGrowing_wCode (e : Encoder) (p : Code) (b : Byte) : (e.insertGrowing p b).wCode = e.wCode := rfl
@[simp] theorem Encoder.insertGrowing_mlen (e : Encoder) (p : Code) (b : Byte) : (e.insertGrowing p b).mlen = e.mlen := rfl
@[simp] theorem Encoder.insertGrowing_monIn (e : Encoder) (p : Code) (b : Byte) : (e.insertGrowing p b).monIn = e.monIn := rfl
@[simp] theorem Encoder.insertGrowing_monOut (e : Encoder) (p : Code) (b : Byte) : (e.insertGrowing p b).monOut = e.monOut := rfl
@[simp] theorem Encoder.insertGrowing_monOther (e : Encoder) (p : Code) (b : Byte) : (e.insertGrowing p b).monOther = e.monOther := rfl
@[simp] theorem Encoder.insertGrowing_policy (e : Encoder) (p : Code) (b : Byte) : (e.insertGrowing p b).policy = e.policy := rfl

/-! `MON_RESET` (R197). -/

@[simp] theorem Encoder.monReset_codec (e : Encoder) : e.monReset.codec = e.codec := rfl
@[simp] theorem Encoder.monReset_index (e : Encoder) : e.monReset.index = e.index := rfl
@[simp] theorem Encoder.monReset_wCode (e : Encoder) : e.monReset.wCode = e.wCode := rfl
@[simp] theorem Encoder.monReset_mlen (e : Encoder) : e.monReset.mlen = e.mlen := rfl
@[simp] theorem Encoder.monReset_monIn (e : Encoder) : e.monReset.monIn = 0 := rfl
@[simp] theorem Encoder.monReset_monOut (e : Encoder) : e.monReset.monOut = 0 := rfl
@[simp] theorem Encoder.monReset_monOther (e : Encoder) : e.monReset.monOther = e.policy.resetState := rfl
@[simp] theorem Encoder.monReset_policy (e : Encoder) : e.monReset.policy = e.policy := rfl

/-! The initialisation of `ENC_START` (R191). -/

@[simp] theorem Encoder.initialise_codec (m : Nat) (e : Encoder) : (e.initialise m).codec = { e.codec with dict := (e.codec.dict.configure m).clear, buf := { acc := 0, nbits := 0 } } := rfl
@[simp] theorem Encoder.initialise_index (m : Nat) (e : Encoder) : (e.initialise m).index = [] := rfl
@[simp] theorem Encoder.initialise_wCode (m : Nat) (e : Encoder) : (e.initialise m).wCode = none := rfl
@[simp] theorem Encoder.initialise_mlen (m : Nat) (e : Encoder) : (e.initialise m).mlen = e.mlen := rfl
@[simp] theorem Encoder.initialise_monIn (m : Nat) (e : Encoder) : (e.initialise m).monIn = 0 := rfl
@[simp] theorem Encoder.initialise_monOut (m : Nat) (e : Encoder) : (e.initialise m).monOut = 0 := rfl
@[simp] theorem Encoder.initialise_monOther (m : Nat) (e : Encoder) : (e.initialise m).monOther = e.policy.resetState := rfl
@[simp] theorem Encoder.initialise_policy (m : Nat) (e : Encoder) : (e.initialise m).policy = e.policy := rfl

/-! `w_code` and `mlen` (R194). -/

@[simp] theorem Encoder.setMatch_codec (c : Code) (len : Nat) (e : Encoder) : (e.setMatch c len).codec = e.codec := rfl
@[simp] theorem Encoder.setMatch_index (c : Code) (len : Nat) (e : Encoder) : (e.setMatch c len).index = e.index := rfl
@[simp] theorem Encoder.setMatch_wCode (c : Code) (len : Nat) (e : Encoder) : (e.setMatch c len).wCode = some c := rfl
@[simp] theorem Encoder.setMatch_mlen (c : Code) (len : Nat) (e : Encoder) : (e.setMatch c len).mlen = BitVec.ofNat 16 len := rfl
@[simp] theorem Encoder.setMatch_monIn (c : Code) (len : Nat) (e : Encoder) : (e.setMatch c len).monIn = e.monIn := rfl
@[simp] theorem Encoder.setMatch_monOut (c : Code) (len : Nat) (e : Encoder) : (e.setMatch c len).monOut = e.monOut := rfl
@[simp] theorem Encoder.setMatch_monOther (c : Code) (len : Nat) (e : Encoder) : (e.setMatch c len).monOther = e.monOther := rfl
@[simp] theorem Encoder.setMatch_policy (c : Code) (len : Nat) (e : Encoder) : (e.setMatch c len).policy = e.policy := rfl

/-! `phase <- X`, encoder. -/

@[simp] theorem Encoder.goto_codec (ph : Phase) (e : Encoder) : (e.goto ph).codec = { e.codec with phase := ph } := rfl
@[simp] theorem Encoder.goto_index (ph : Phase) (e : Encoder) : (e.goto ph).index = e.index := rfl
@[simp] theorem Encoder.goto_wCode (ph : Phase) (e : Encoder) : (e.goto ph).wCode = e.wCode := rfl
@[simp] theorem Encoder.goto_mlen (ph : Phase) (e : Encoder) : (e.goto ph).mlen = e.mlen := rfl
@[simp] theorem Encoder.goto_monIn (ph : Phase) (e : Encoder) : (e.goto ph).monIn = e.monIn := rfl
@[simp] theorem Encoder.goto_monOut (ph : Phase) (e : Encoder) : (e.goto ph).monOut = e.monOut := rfl
@[simp] theorem Encoder.goto_monOther (ph : Phase) (e : Encoder) : (e.goto ph).monOther = e.monOther := rfl
@[simp] theorem Encoder.goto_policy (ph : Phase) (e : Encoder) : (e.goto ph).policy = e.policy := rfl

/-! The decoder's parts. -/

@[simp] theorem Decoder.setCodec_codec (d : Decoder) (c : Codec) : (d.setCodec c).codec = c := rfl
@[simp] theorem Decoder.setCodec_prev (d : Decoder) (c : Codec) : (d.setCodec c).prev = d.prev := rfl
@[simp] theorem Decoder.setCodec_stk (d : Decoder) (c : Codec) : (d.setCodec c).stk = d.stk := rfl
@[simp] theorem Decoder.setCodec_sp (d : Decoder) (c : Codec) : (d.setCodec c).sp = d.sp := rfl

/-! The decoder's dictionary. -/

@[simp] theorem Decoder.setDict_codec (d : Decoder) (t : Dict) : (d.setDict t).codec = d.codec.setDict t := rfl
@[simp] theorem Decoder.setDict_prev (d : Decoder) (t : Dict) : (d.setDict t).prev = d.prev := rfl
@[simp] theorem Decoder.setDict_stk (d : Decoder) (t : Dict) : (d.setDict t).stk = d.stk := rfl
@[simp] theorem Decoder.setDict_sp (d : Decoder) (t : Dict) : (d.setDict t).sp = d.sp := rfl

/-! `DICT_RESET` of a decoder (R160). -/

@[simp] theorem Decoder.dictReset_codec (d : Decoder) : d.dictReset.codec = d.codec.setDict d.codec.dict.clear := rfl
@[simp] theorem Decoder.dictReset_prev (d : Decoder) : d.dictReset.prev = d.prev := rfl
@[simp] theorem Decoder.dictReset_stk (d : Decoder) : d.dictReset.stk = d.stk := rfl
@[simp] theorem Decoder.dictReset_sp (d : Decoder) : d.dictReset.sp = d.sp := rfl

/-! `raise Fail` of a decoder (R276). -/

@[simp] theorem Decoder.raiseFail_codec (k : Cause) (d : Decoder) : (d.raiseFail k).codec = d.codec.raiseFail k := rfl
@[simp] theorem Decoder.raiseFail_prev (k : Cause) (d : Decoder) : (d.raiseFail k).prev = d.prev := rfl
@[simp] theorem Decoder.raiseFail_stk (k : Cause) (d : Decoder) : (d.raiseFail k).stk = d.stk := rfl
@[simp] theorem Decoder.raiseFail_sp (k : Cause) (d : Decoder) : (d.raiseFail k).sp = d.sp := rfl

/-! `phase <- X`, decoder. -/

@[simp] theorem Decoder.goto_codec (ph : Phase) (d : Decoder) : (d.goto ph).codec = { d.codec with phase := ph } := rfl
@[simp] theorem Decoder.goto_prev (ph : Phase) (d : Decoder) : (d.goto ph).prev = d.prev := rfl
@[simp] theorem Decoder.goto_stk (ph : Phase) (d : Decoder) : (d.goto ph).stk = d.stk := rfl
@[simp] theorem Decoder.goto_sp (ph : Phase) (d : Decoder) : (d.goto ph).sp = d.sp := rfl

/-! `DEC_START` (R220). -/

@[simp] theorem Decoder.start_codec (d : Decoder) : d.start.codec = { d.codec with buf := { acc := 0, nbits := 0 }, phase := .dHdr } := rfl
@[simp] theorem Decoder.start_prev (d : Decoder) : d.start.prev = none := rfl
@[simp] theorem Decoder.start_stk (d : Decoder) : d.start.stk = d.stk := rfl
@[simp] theorem Decoder.start_sp (d : Decoder) : d.start.sp = 0 := rfl

/-! `CLEAR` (R224). -/

@[simp] theorem Decoder.clear_codec (d : Decoder) : d.clear.codec = d.codec.setDict d.codec.dict.clear := rfl
@[simp] theorem Decoder.clear_prev (d : Decoder) : d.clear.prev = none := rfl
@[simp] theorem Decoder.clear_stk (d : Decoder) : d.clear.stk = d.stk := rfl
@[simp] theorem Decoder.clear_sp (d : Decoder) : d.clear.sp = d.sp := rfl

/-! `DEC_NEXT` (R231). -/

@[simp] theorem Decoder.decNext_codec (c : Code) (d : Decoder) : (d.decNext c).codec = d.codec.setDict d.codec.dict.alphaStep := rfl
@[simp] theorem Decoder.decNext_prev (c : Code) (d : Decoder) : (d.decNext c).prev = some c := rfl
@[simp] theorem Decoder.decNext_stk (c : Code) (d : Decoder) : (d.decNext c).stk = d.stk := rfl
@[simp] theorem Decoder.decNext_sp (c : Code) (d : Decoder) : (d.decNext c).sp = d.sp := rfl

/-! The next event taken. -/

@[simp] theorem State.popped_enc (s : State) : s.popped.enc = s.enc := rfl
@[simp] theorem State.popped_dec (s : State) : s.popped.dec = s.dec := rfl
@[simp] theorem State.popped_encRest (s : State) : s.popped.encRest = s.encRest := rfl
@[simp] theorem State.popped_decRest (s : State) : s.popped.decRest = s.decRest := rfl
@[simp] theorem State.popped_sched (s : State) : s.popped.sched = s.sched.tail := rfl
@[simp] theorem State.popped_result (s : State) : s.popped.result = s.result := rfl
@[simp] theorem State.popped_hostStatus (s : State) : s.popped.hostStatus = s.hostStatus := rfl

/-! The common part of the instance a side names. -/

@[simp] theorem State.codec_enc (s : State) : s.codec .enc = s.enc.codec := rfl
@[simp] theorem State.codec_dec (s : State) : s.codec .dec = s.dec.codec := rfl
@[simp] theorem State.setCodec_enc_enc (s : State) (c : Codec) : (s.setCodec .enc c).enc = { s.enc with codec := c } := rfl
@[simp] theorem State.setCodec_enc_dec (s : State) (c : Codec) : (s.setCodec .enc c).dec = s.dec := rfl
@[simp] theorem State.setCodec_enc_encRest (s : State) (c : Codec) : (s.setCodec .enc c).encRest = s.encRest := rfl
@[simp] theorem State.setCodec_enc_decRest (s : State) (c : Codec) : (s.setCodec .enc c).decRest = s.decRest := rfl
@[simp] theorem State.setCodec_enc_sched (s : State) (c : Codec) : (s.setCodec .enc c).sched = s.sched := rfl
@[simp] theorem State.setCodec_enc_result (s : State) (c : Codec) : (s.setCodec .enc c).result = s.result := rfl
@[simp] theorem State.setCodec_enc_hostStatus (s : State) (c : Codec) : (s.setCodec .enc c).hostStatus = s.hostStatus := rfl
@[simp] theorem State.setCodec_dec_enc (s : State) (c : Codec) : (s.setCodec .dec c).enc = s.enc := rfl
@[simp] theorem State.setCodec_dec_dec (s : State) (c : Codec) : (s.setCodec .dec c).dec = { s.dec with codec := c } := rfl
@[simp] theorem State.setCodec_dec_encRest (s : State) (c : Codec) : (s.setCodec .dec c).encRest = s.encRest := rfl
@[simp] theorem State.setCodec_dec_decRest (s : State) (c : Codec) : (s.setCodec .dec c).decRest = s.decRest := rfl
@[simp] theorem State.setCodec_dec_sched (s : State) (c : Codec) : (s.setCodec .dec c).sched = s.sched := rfl
@[simp] theorem State.setCodec_dec_result (s : State) (c : Codec) : (s.setCodec .dec c).result = s.result := rfl
@[simp] theorem State.setCodec_dec_hostStatus (s : State) (c : Codec) : (s.setCodec .dec c).hostStatus = s.hostStatus := rfl
@[simp] theorem State.setCodec_encRest (s : State) (side : Side) (c : Codec) : (s.setCodec side c).encRest = s.encRest := by
  cases side <;> rfl
@[simp] theorem State.setCodec_decRest (s : State) (side : Side) (c : Codec) : (s.setCodec side c).decRest = s.decRest := by
  cases side <;> rfl
@[simp] theorem State.setCodec_sched (s : State) (side : Side) (c : Codec) : (s.setCodec side c).sched = s.sched := by
  cases side <;> rfl
@[simp] theorem State.setCodec_result (s : State) (side : Side) (c : Codec) : (s.setCodec side c).result = s.result := by
  cases side <;> rfl
@[simp] theorem State.setCodec_hostStatus (s : State) (side : Side) (c : Codec) : (s.setCodec side c).hostStatus = s.hostStatus := by
  cases side <;> rfl
@[simp] theorem State.codec_setCodec (s : State) (side : Side) (c : Codec) : (s.setCodec side c).codec side = c := by
  cases side <;> rfl
@[simp] theorem State.setCodec_codec (s : State) (side : Side) : s.setCodec side (s.codec side) = s := by
  cases side <;> rfl

end Sys2Proof.Machine
end

