-- ==== Sys2Proof/Laws/Memory.lean ====
section
/-! SUPPORT. The laws of the memories: a read after a write or an erase, and the canonical form kept by both. -/

namespace Sys2Proof.Machine

variable {w : Nat}

@[simp] theorem readMem_nil (a : Nat) : readMem ([] : Mem w) a = none := rfl

/-- What is read is a listed cell. -/
theorem mem_of_readMem {m : Mem w} {a : Nat} {v : BitVec w} (h : readMem m a = some v) : (a, v) ∈ m := by
  induction m with
  | nil => simp at h
  | cons c m ih =>
    obtain ⟨x, u⟩ := c
    by_cases hx : x = a
    · simp only [readMem, hx, ↓reduceIte, Option.some.injEq] at h
      simp [hx, h]
    · simp only [readMem, hx, ↓reduceIte] at h
      simp [ih h]

/-- In canonical form every listed cell is what is read. -/
theorem readMem_of_mem {m : Mem w} {a : Nat} {v : BitVec w} (hm : Mem.wf m) (h : (a, v) ∈ m) : readMem m a = some v := by
  induction m with
  | nil => simp at h
  | cons c m ih =>
    obtain ⟨x, u⟩ := c
    obtain ⟨hlt, htail⟩ := List.pairwise_cons.1 hm
    rcases List.mem_cons.1 h with h | h
    · cases h; simp [readMem]
    · have := hlt _ h
      simp only [readMem]
      rw [if_neg (by simp at this; omega)]
      exact ih htail h

/-- Every address in the list after a write is the written one or was there. -/
theorem mem_writeMem {m : Mem w} {a : Nat} {v : BitVec w} {c : Nat × BitVec w} (h : c ∈ writeMem m a v) :
    c = (a, v) ∨ c ∈ m := by
  induction m with
  | nil => simpa [writeMem] using h
  | cons d m ih =>
    obtain ⟨x, u⟩ := d
    simp only [writeMem] at h
    split at h
    · simpa using h
    · split at h
      · rcases List.mem_cons.1 h with h | h <;> simp [h]
      · rcases List.mem_cons.1 h with h | h
        · simp [h]
        · rcases ih h with h | h <;> simp [h]

/-- A write keeps the canonical form. -/
theorem wf_writeMem {m : Mem w} (hm : Mem.wf m) (a : Nat) (v : BitVec w) : Mem.wf (writeMem m a v) := by
  induction m with
  | nil => simp [writeMem, Mem.wf]
  | cons d m ih =>
    obtain ⟨x, u⟩ := d
    obtain ⟨hlt, htail⟩ := List.pairwise_cons.1 hm
    simp only [writeMem]
    split
    · rename_i hax
      refine List.pairwise_cons.2 ⟨fun c hc => ?_, hm⟩
      rcases List.mem_cons.1 hc with hc | hc
      · simp [hc, hax]
      · exact Nat.lt_trans hax (hlt c hc)
    · split
      · rename_i hax
        exact List.pairwise_cons.2 ⟨fun c hc => by simpa [hax] using hlt c hc, htail⟩
      · refine List.pairwise_cons.2 ⟨fun c hc => ?_, ih htail⟩
        rcases mem_writeMem hc with hc | hc
        · simp only [hc]; omega
        · exact hlt c hc

/-- An erase keeps the canonical form. -/
theorem wf_eraseMem {m : Mem w} (hm : Mem.wf m) (a : Nat) : Mem.wf (eraseMem m a) := by
  have sub : ∀ m : Mem w, (eraseMem m a).Sublist m := by
    intro m
    induction m with
    | nil => exact List.Sublist.refl _
    | cons d m ih =>
      obtain ⟨x, u⟩ := d
      simp only [eraseMem]
      split
      · exact List.sublist_cons_self _ _
      · exact ih.cons_cons _
  exact hm.sublist (sub m)

/-- A read of the address just written gives the value written. -/
@[simp] theorem readMem_writeMem_same (m : Mem w) (a : Nat) (v : BitVec w) : readMem (writeMem m a v) a = some v := by
  induction m with
  | nil => simp [writeMem, readMem]
  | cons d m ih =>
    obtain ⟨x, u⟩ := d
    simp only [writeMem]
    split
    · simp [readMem]
    · split
      · simp [readMem]
      · rw [readMem, if_neg (by omega), ih]

/-- A write leaves every other address alone. -/
theorem readMem_writeMem_other (m : Mem w) {a x : Nat} (v : BitVec w) (h : x ≠ a) :
    readMem (writeMem m a v) x = readMem m x := by
  induction m with
  | nil => simp [writeMem, readMem, Ne.symm h]
  | cons d m ih =>
    obtain ⟨y, u⟩ := d
    simp only [writeMem]
    split
    · rw [readMem, if_neg (Ne.symm h)]
    · split
      · rename_i hay
        rw [readMem, if_neg (Ne.symm h), readMem, if_neg (by omega)]
      · simp only [readMem, ih]

/-- A read after a write, in one equation. -/
theorem readMem_writeMem (m : Mem w) (a x : Nat) (v : BitVec w) :
    readMem (writeMem m a v) x = if x = a then some v else readMem m x := by
  split
  · rename_i h; rw [h, readMem_writeMem_same]
  · rename_i h; exact readMem_writeMem_other m v h

/-- A read after an erase, in canonical form. -/
theorem readMem_eraseMem {m : Mem w} (hm : Mem.wf m) (a x : Nat) :
    readMem (eraseMem m a) x = if x = a then none else readMem m x := by
  induction m with
  | nil => simp [eraseMem, readMem]
  | cons d m ih =>
    obtain ⟨y, u⟩ := d
    obtain ⟨hlt, htail⟩ := List.pairwise_cons.1 hm
    simp only [eraseMem]
    split
    · rename_i hya
      split
      · rename_i hxa
        cases hr : readMem m x with
        | none => rfl
        | some v =>
          have := hlt _ (mem_of_readMem hr)
          simp only at this
          omega
      · rename_i hxa
        rw [readMem, if_neg (by omega)]
    · rename_i hya
      simp only [readMem, ih htail]
      split
      · rename_i hyx
        rw [if_neg (by omega)]
      · rfl

/-- The key of an index pair tells its code and its byte. -/
theorem pairKey_inj {p q : Code} {a b : Byte} (h : pairKey p a = pairKey q b) : p = q ∧ a = b := by
  have ha := a.isLt
  have hb := b.isLt
  unfold pairKey at h
  constructor <;> apply BitVec.eq_of_toNat_eq <;> omega

end Sys2Proof.Machine
end

