-- ==== Sys2Proof/Laws/Operations.lean ====
section
/-! SUPPORT. What each shared operation can do, said once: the answer type, one source and one sink transaction, the
packer and unpacker, the adjusted-binary code, and the way an operation becomes a step of the block. -/

namespace Sys2Proof.Machine

/-! ### Answers -/

section
variable {σ τ α β : Type}

@[simp] theorem Ans.bind_ok (a : α) (s : σ) (f : α → σ → Ans σ β) : (Ans.ok a s).bind f = f a s := rfl
@[simp] theorem Ans.bind_failed (s : σ) (f : α → σ → Ans σ β) : (Ans.failed s : Ans σ α).bind f = .failed s := rfl
@[simp] theorem Ans.bind_fault (x : Fault) (f : α → σ → Ans σ β) : (Ans.fault x : Ans σ α).bind f = .fault x := rfl
@[simp] theorem Ans.within_ok (a : α) (s : σ) (put : σ → τ) : (Ans.ok a s).within put = .ok a (put s) := rfl
@[simp] theorem Ans.within_failed (s : σ) (put : σ → τ) : (Ans.failed s : Ans σ α).within put = .failed (put s) := rfl
@[simp] theorem Ans.within_fault (x : Fault) (put : σ → τ) : (Ans.fault x : Ans σ α).within put = .fault x := rfl

/-- A statement after another returns exactly where both return. -/
theorem Ans.bind_eq_ok {x : Ans σ α} {f : α → σ → Ans σ β} {b : β} {t : σ} :
    x.bind f = .ok b t ↔ ∃ a s, x = .ok a s ∧ f a s = .ok b t := by
  cases x <;> simp

/-- A sequence fails where its first or its second statement fails. -/
theorem Ans.bind_eq_failed {x : Ans σ α} {f : α → σ → Ans σ β} {t : σ} :
    x.bind f = .failed t ↔ x = .failed t ∨ ∃ a s, x = .ok a s ∧ f a s = .failed t := by
  cases x <;> simp

/-- A sequence faults where its first or its second statement faults. -/
theorem Ans.bind_eq_fault {x : Ans σ α} {f : α → σ → Ans σ β} {e : Fault} :
    x.bind f = .fault e ↔ x = .fault e ∨ ∃ a s, x = .ok a s ∧ f a s = .fault e := by
  cases x <;> simp

/-- What holds of every instance an operation leaves, whether it returned or failed; a fault leaves none. -/
def Ans.All (P : σ → Prop) (x : Ans σ α) : Prop :=
  match x with
  | .ok _ s => P s
  | .failed s => P s
  | .fault _ => True

@[simp] theorem Ans.all_ok (P : σ → Prop) (a : α) (s : σ) : (Ans.ok a s).All P ↔ P s := Iff.rfl
@[simp] theorem Ans.all_failed (P : σ → Prop) (s : σ) : (Ans.failed s : Ans σ α).All P ↔ P s := Iff.rfl
@[simp] theorem Ans.all_fault (P : σ → Prop) (x : Fault) : (Ans.fault x : Ans σ α).All P ↔ True := Iff.rfl

/-- A property every statement of a sequence keeps holds after the sequence. -/
theorem Ans.All.bind {P : σ → Prop} {x : Ans σ α} {f : α → σ → Ans σ β} (hx : x.All P)
    (hf : ∀ a s, P s → (f a s).All P) : (x.bind f).All P := by
  cases x with
  | ok a s => exact hf a s hx
  | failed s => exact hx
  | fault e => trivial

/-- A property of the part becomes one of the whole. -/
theorem Ans.All.within {P : σ → Prop} {Q : τ → Prop} {put : σ → τ} {x : Ans σ α} (hx : x.All P)
    (h : ∀ s, P s → Q (put s)) : (x.within put).All Q := by
  cases x with
  | ok a s => exact h s hx
  | failed s => exact h s hx
  | fault e => trivial

/-- A weaker property. -/
theorem Ans.All.mono {P Q : σ → Prop} {x : Ans σ α} (hx : x.All P) (h : ∀ s, P s → Q s) : x.All Q := by
  cases x with
  | ok a s => exact h s hx
  | failed s => exact h s hx
  | fault e => trivial

/-- The operation stops with no fault of the model. -/
def Ans.runs (x : Ans σ α) : Bool :=
  match x with
  | .ok _ _ => true
  | .failed _ => true
  | .fault _ => false

@[simp] theorem Ans.runs_ok (a : α) (s : σ) : (Ans.ok a s).runs = true := rfl
@[simp] theorem Ans.runs_failed (s : σ) : (Ans.failed s : Ans σ α).runs = true := rfl
@[simp] theorem Ans.runs_fault (x : Fault) : (Ans.fault x : Ans σ α).runs = false := rfl
@[simp] theorem Ans.runs_within (x : Ans σ α) (put : σ → τ) : (x.within put).runs = x.runs := by cases x <;> rfl

/-- A sequence runs where its first statement runs and the second does after every return of the first. -/
theorem Ans.runs_bind {x : Ans σ α} {f : α → σ → Ans σ β} (hx : x.runs = true)
    (hf : ∀ a s, x = .ok a s → (f a s).runs = true) : (x.bind f).runs = true := by
  cases x with
  | ok a s => exact hf a s rfl
  | failed s => rfl
  | fault e => simp at hx

end

/-! ### From an instance to the block -/

@[simp] theorem Ans.toStep_ok {σ α : Type} (a : α) (c : σ) (put : σ → State) (res : α → Result) :
    (Ans.ok a c).toStep put res = .next { put c with result := res a } := rfl
@[simp] theorem Ans.toStep_failed {σ α : Type} (c : σ) (put : σ → State) (res : α → Result) :
    (Ans.failed c : Ans σ α).toStep put res = .next { put c with result := .failed } := rfl
@[simp] theorem Ans.toStep_fault {σ α : Type} (x : Fault) (put : σ → State) (res : α → Result) :
    (Ans.fault x : Ans σ α).toStep put res = .fault x := rfl

/-- The next state of an operation on an instance: the instance as the operation left it, and the result. -/
theorem Ans.toStep_eq_next {σ α : Type} {x : Ans σ α} {put : σ → State} {res : α → Result} {t : State} :
    x.toStep put res = .next t ↔
      (∃ a c, x = .ok a c ∧ t = { put c with result := res a }) ∨
        ∃ c, x = .failed c ∧ t = { put c with result := .failed } := by
  cases x <;> simp [eq_comm]

/-- An operation on an instance is never refused. -/
theorem Ans.toStep_ne_refused {σ α : Type} (x : Ans σ α) (put : σ → State) (res : α → Result) (r : Refusal) :
    x.toStep put res ≠ .refused r := by
  cases x <;> simp [Ans.toStep]

/-- An operation that runs is a next state. -/
theorem Ans.toStep_next {σ α : Type} {x : Ans σ α} (h : x.runs = true) (put : σ → State) (res : α → Result) :
    ∃ t, x.toStep put res = .next t := by
  cases x <;> simp_all

/-! ### Ports -/

@[simp] theorem Port.push_neverRefuses {p : Port} (h : p.status = .neverRefuses) (b : Byte) :
    p.push b = (true, p.accept b) := by
  simp [Port.push, h]

/-- Every push leaves the source and the status alone, and only adds to the sink. -/
theorem Port.push_frame (p : Port) (b : Byte) :
    (p.push b).2.source = p.source ∧ (p.push b).2.status = p.status ∧ p.sink <+: (p.push b).2.sink := by
  unfold Port.push
  split <;> simp
  split <;> simp

/-- One sink transaction: accepted, and only the port changes; or refused, and the run fails with `SINK_FAIL`. -/
theorem Codec.sinkPush_cases (b : Byte) (c : Codec) :
    c.sinkPush b = .ok () { c with port := (c.port.push b).2 } ∨
      c.sinkPush b = .failed ({ c with port := (c.port.push b).2 }.raiseFail .sinkFail) ∧
        c.port.status = .mayRefuse := by
  unfold Codec.sinkPush Port.push
  split <;> split <;> simp_all

theorem Codec.neverRefused_iff (c : Codec) : c.neverRefused = true ↔ c.port.status = .neverRefuses := by
  simp [Codec.neverRefused]

/-- A sink that never refuses gets the byte. -/
theorem Codec.sinkPush_never {c : Codec} (h : c.neverRefused = true) (b : Byte) :
    c.sinkPush b = .ok () (c.pushed [b]) := by
  rw [Codec.neverRefused_iff] at h
  simp [Codec.sinkPush, Port.push_neverRefuses h, Codec.pushed, Port.accept]

@[simp] theorem Codec.pushed_nil (c : Codec) : c.pushed [] = c := by simp [Codec.pushed]
@[simp] theorem Codec.pushed_pushed (c : Codec) (a b : List Byte) : (c.pushed a).pushed b = c.pushed (a ++ b) := by
  simp [Codec.pushed]
@[simp] theorem Codec.neverRefused_pushed (c : Codec) (a : List Byte) : (c.pushed a).neverRefused = c.neverRefused := rfl

/-! ### What the bit operations leave alone -/

/-- `d` is `c` but for its buffer, its port, and a failure; its sink holds what it held, and maybe more; its source
is what it was, or less. -/
structure Codec.BitStep (c d : Codec) : Prop where
  dict : d.dict = c.dict
  cmd : d.cmd = c.cmd
  status : d.port.status = c.port.status
  sink : c.port.sink <+: d.port.sink
  source : d.port.source <:+ c.port.source
  ctl : (d.phase = c.phase ∧ d.cause = c.cause) ∨ d.phase = .failed

theorem Codec.BitStep.refl (c : Codec) : c.BitStep c :=
  ⟨rfl, rfl, rfl, List.prefix_refl _, List.suffix_refl _, .inl ⟨rfl, rfl⟩⟩

theorem Codec.BitStep.trans {c d e : Codec} (h : c.BitStep d) (g : d.BitStep e) : c.BitStep e where
  dict := g.dict.trans h.dict
  cmd := g.cmd.trans h.cmd
  status := g.status.trans h.status
  sink := h.sink.trans g.sink
  source := g.source.trans h.source
  ctl := by
    rcases g.ctl with ⟨g1, g2⟩ | g
    · rcases h.ctl with ⟨h1, h2⟩ | h
      · exact .inl ⟨g1.trans h1, g2.trans h2⟩
      · exact .inr (g1.trans h)
    · exact .inr g

/-- Another buffer is a bit step. -/
theorem Codec.BitStep.buf (c : Codec) (u : BitBuf) : c.BitStep { c with buf := u } :=
  ⟨rfl, rfl, rfl, List.prefix_refl _, List.suffix_refl _, .inl ⟨rfl, rfl⟩⟩

/-- A failure is a bit step. -/
theorem Codec.BitStep.fail (c : Codec) (k : Cause) : c.BitStep (c.raiseFail k) :=
  ⟨rfl, rfl, rfl, List.prefix_refl _, List.suffix_refl _, .inr rfl⟩

theorem Codec.sinkPush_step (b : Byte) (c : Codec) : (c.sinkPush b).All c.BitStep := by
  obtain ⟨h1, h2, h3⟩ := c.port.push_frame b
  have hp : c.BitStep { c with port := (c.port.push b).2 } :=
    ⟨rfl, rfl, h2, h3, by simp [h1], .inl ⟨rfl, rfl⟩⟩
  rcases c.sinkPush_cases b with h | ⟨h, -⟩
  · rw [h]; exact hp
  · rw [h]; exact hp.trans (.fail _ _)

theorem Codec.sinkPush_runs (b : Byte) (c : Codec) : (c.sinkPush b).runs = true := by
  rcases c.sinkPush_cases b with h | ⟨h, -⟩ <;> rw [h] <;> rfl

theorem Codec.drain_step (fuel : Nat) (c : Codec) : (c.drain fuel).All c.BitStep := by
  induction fuel generalizing c with
  | zero => exact .refl c
  | succ fuel ih =>
    simp only [Codec.drain]
    split
    · exact (c.sinkPush_step _).bind fun _ d hd =>
        (ih _).mono fun e he => (hd.trans (.buf d _)).trans he
    · exact .refl c

theorem Codec.drain_runs (fuel : Nat) (c : Codec) : (c.drain fuel).runs = true := by
  induction fuel generalizing c with
  | zero => rfl
  | succ fuel ih =>
    simp only [Codec.drain]
    split
    · exact Ans.runs_bind (c.sinkPush_runs _) fun _ d _ => ih _
    · rfl

theorem Codec.putBits_step (val wd : Nat) (c : Codec) : (c.putBits val wd).All c.BitStep :=
  (Codec.drain_step 8 _).mono fun _ he => (Codec.BitStep.buf c _).trans he

theorem Codec.putBits_runs (val wd : Nat) (c : Codec) : (c.putBits val wd).runs = true := Codec.drain_runs 8 _

theorem Codec.flushBits_step (c : Codec) : c.flushBits.All c.BitStep := by
  unfold Codec.flushBits
  split
  · exact (c.sinkPush_step _).bind fun _ d hd => hd.trans (.buf d _)
  · exact .refl c

theorem Codec.flushBits_runs (c : Codec) : c.flushBits.runs = true := by
  unfold Codec.flushBits
  split
  · exact Ans.runs_bind (c.sinkPush_runs _) fun _ _ _ => rfl
  · rfl

/-- One source transaction: the head of the source, or `EOI` and no change. -/
theorem Codec.srcPull_cases (c : Codec) :
    (c.port.source = [] ∧ c.srcPull = (none, c)) ∨
      ∃ b bs, c.port.source = b :: bs ∧ c.srcPull = (some b, { c with port := { c.port with source := bs } }) := by
  unfold Codec.srcPull Port.pull
  cases h : c.port.source with
  | nil => exact .inl ⟨rfl, rfl⟩
  | cons b bs => exact .inr ⟨b, bs, rfl, rfl⟩

theorem Codec.srcPull_step (c : Codec) : c.BitStep c.srcPull.2 := by
  rcases c.srcPull_cases with ⟨-, h⟩ | ⟨b, bs, hs, h⟩ <;> rw [h]
  · exact .refl c
  · exact ⟨rfl, rfl, rfl, List.prefix_refl _, by simp [hs, List.suffix_cons], .inl ⟨rfl, rfl⟩⟩

theorem Codec.fill_step (wd fuel : Nat) (c : Codec) : c.BitStep (c.fill wd fuel).2 := by
  induction fuel generalizing c with
  | zero => exact .refl c
  | succ fuel ih =>
    simp only [Codec.fill]
    split
    · have hs := c.srcPull_step
      split
      · rename_i d h
        rw [h] at hs; exact hs
      · rename_i b d h
        rw [h] at hs
        exact (hs.trans (.buf d _)).trans (ih _)
    · exact .refl c

theorem Codec.getBits_step (wd : Nat) (c : Codec) : c.BitStep (c.getBits wd).2 := by
  have hf := c.fill_step wd wd
  unfold Codec.getBits
  split
  · rename_i d h; rw [h] at hf; exact hf
  · rename_i d h; rw [h] at hf; exact hf.trans (.buf d _)

theorem Codec.putField_step (val : BitVec 16) (wd : BitVec 5) (c : Codec) : (c.putField val wd).All c.BitStep :=
  c.putBits_step _ _

theorem Codec.putField_runs (val : BitVec 16) (wd : BitVec 5) (c : Codec) : (c.putField val wd).runs = true :=
  c.putBits_runs _ _

theorem Codec.getFree_step (x wd : Nat) (c : Codec) : c.BitStep (c.getFree x wd).2 := c.getBits_step _

theorem Codec.getField_step (wd : BitVec 5) (c : Codec) : c.BitStep (c.getField wd).2 := by
  unfold Codec.getField
  split
  · exact c.getBits_step _
  · exact c.getFree_step _ _

theorem Codec.writeCode_step (v n : Nat) (c : Codec) : (c.writeCode v n).All c.BitStep := by
  unfold Codec.writeCode
  dsimp only
  split
  · exact (c.putBits_step _ _).bind fun _ d hd => hd
  · exact (c.putBits_step _ _).bind fun _ d hd =>
      ((d.putBits_step _ _).mono fun e he => hd.trans he).bind fun _ e he => he

theorem Codec.writeCode_runs (v n : Nat) (c : Codec) : (c.writeCode v n).runs = true := by
  unfold Codec.writeCode
  dsimp only
  split
  · exact Ans.runs_bind (c.putBits_runs _ _) fun _ _ _ => rfl
  · exact Ans.runs_bind (c.putBits_runs _ _) fun _ d _ => Ans.runs_bind (d.putBits_runs _ _) fun _ _ _ => rfl

theorem Codec.abEnc_step (v n : Nat) (c : Codec) : (c.abEnc v n).All c.BitStep := by
  unfold Codec.abEnc
  split
  · split <;> exact c.writeCode_step _ _
  · exact (c.putBits_step _ _).bind fun _ d hd => hd

theorem Codec.abEnc_runs (v n : Nat) (c : Codec) : (c.abEnc v n).runs = true := by
  unfold Codec.abEnc
  split
  · split <;> exact c.writeCode_runs _ _
  · exact Ans.runs_bind (c.putBits_runs _ _) fun _ _ _ => rfl

/-- The width of a codeword is `k` or `k + 1`. -/
theorem Codec.writeCode_width {v n wd : Nat} {c d : Codec} (h : c.writeCode v n = .ok wd d) :
    wd = (abParams n).1 ∨ wd = (abParams n).1 + 1 := by
  unfold Codec.writeCode at h
  dsimp only at h
  split at h
  · obtain ⟨_, _, -, h⟩ := Ans.bind_eq_ok.1 h
    exact .inl (Ans.ok.inj h).1.symm
  · obtain ⟨_, _, -, h⟩ := Ans.bind_eq_ok.1 h
    obtain ⟨_, _, -, h⟩ := Ans.bind_eq_ok.1 h
    exact .inr (Ans.ok.inj h).1.symm

/-- Whatever its operands, `AB_ENC` answers at most 17, which fits the 5 bits of a width. -/
theorem Codec.abEnc_width {v n wd : Nat} {c d : Codec} (h : c.abEnc v n = .ok wd d) : wd ≤ 17 := by
  unfold Codec.abEnc at h
  split at h
  · rename_i hn
    have hk : (abParams n).1 < 17 :=
      (Nat.log2_lt (by have := (alphabetSize_iff n).1 hn; omega)).2 (by have := (alphabetSize_iff n).1 hn; omega)
    have : wd = (abParams n).1 ∨ wd = (abParams n).1 + 1 := by split at h <;> exact Codec.writeCode_width h
    omega
  · obtain ⟨_, _, -, h⟩ := Ans.bind_eq_ok.1 h
    have := (Ans.ok.inj h).1
    simp only [freeFieldOf] at this
    omega

theorem Codec.readCode_step (n : Nat) (c : Codec) : (c.readCode n).All c.BitStep := by
  unfold Codec.readCode
  dsimp only
  have h1 := c.getBits_step (abParams n).1
  split
  · rename_i d h; rw [h] at h1; exact h1.trans (.fail d _)
  · rename_i p d h
    rw [h] at h1
    split
    · exact h1
    · have h2 := d.getBits_step 1
      split
      · rename_i e h'; rw [h'] at h2; exact (h1.trans h2).trans (.fail e _)
      · rename_i x e h'; rw [h'] at h2; exact h1.trans h2

theorem Codec.readCode_runs (n : Nat) (c : Codec) : (c.readCode n).runs = true := by
  unfold Codec.readCode
  dsimp only
  split
  · rfl
  · split
    · rfl
    · split <;> rfl

theorem Codec.abDec_step (n : Nat) (c : Codec) : (c.abDec n).All c.BitStep := by
  unfold Codec.abDec
  split
  · exact c.readCode_step n
  · dsimp only
    have h1 := c.getFree_step (Config.freeSymbol c.buf.acc c.buf.nbits n).1 (Config.freeSymbol c.buf.acc c.buf.nbits n).2
    split
    · rename_i d h; rw [h] at h1; exact h1.trans (.fail d _)
    · rename_i v d h; rw [h] at h1; exact h1

theorem Codec.abDec_runs (n : Nat) (c : Codec) : (c.abDec n).runs = true := by
  unfold Codec.abDec
  split
  · exact c.readCode_runs n
  · dsimp only
    split <;> rfl

/-! ### The slot of an insertion -/

/-- `MAX` in a dictionary that meets its invariant. -/
theorem Dict.Inv.max_range {d : Dict} (h : d.Inv) : 512 ≤ d.max.toNat ∧ d.max.toNat ≤ 65536 := by
  have hm := (isLegalMaxbits_iff _).1 h.legal
  have lo : 2 ^ 9 ≤ 2 ^ d.maxbits.toNat := Nat.pow_le_pow_right (by decide) hm.1
  have hi : 2 ^ d.maxbits.toNat ≤ 2 ^ 16 := Nat.pow_le_pow_right (by decide) hm.2
  have := h.max_eq
  omega

/-- `SUCC` stays among the string codes below `MAX`. -/
theorem Dict.succ_inScan {d : Dict} (h1 : 258 < d.max.toNat) (h2 : d.max.toNat ≤ 65536) {c : Code}
    (hc : d.inScan c = true) : d.inScan (d.succ c) = true := by
  rw [Dict.inScan_iff] at hc ⊢
  unfold Dict.succ
  split
  · rw [BitVec.toNat_ofNat, Nat.mod_eq_of_lt (by omega)]; omega
  · exact ⟨by decide, by simpa [Config.firstString] using h1⟩

/-- The scan answers a leaf other than `excl` among the string codes below `MAX`. -/
theorem Dict.scan_some {d : Dict} (h1 : 258 < d.max.toNat) (h2 : d.max.toNat ≤ 65536) {excl v : Code} (fuel : Nat)
    {c : Code} (hc : d.inScan c = true) (h : d.scan excl fuel c = some v) :
    d.inScan v = true ∧ v ≠ excl ∧ d.isLeaf v = true := by
  induction fuel generalizing c with
  | zero => simp [Dict.scan] at h
  | succ fuel ih =>
    rw [Dict.scan] at h
    split at h
    · rename_i hl
      rw [Bool.and_eq_true, bne_iff_ne] at hl
      cases h
      exact ⟨hc, hl⟩
    · exact ih (Dict.succ_inScan h1 h2 hc) h

/-- A victim, whatever the operand, is a string code below `MAX`. -/
theorem Dict.Inv.victim_inScan {d : Dict} (h : d.Inv) {excl v : Code} (hv : d.victim excl = some v) :
    d.inScan v = true := by
  obtain ⟨hlo, hhi⟩ := h.max_range
  unfold Dict.victim at hv
  split at hv
  · exact (Dict.scan_some (by omega) hhi _ ((Dict.inScan_iff _ _).2 ⟨h.cursor_lo, h.cursor_hi⟩) hv).1
  · exact (Option.filter_eq_some_iff.1 hv).2

/-- The walk of a code that is no string code ends where it starts. -/
theorem Decoder.walk_root {c : Code} (hc : c.toNat < 258) (fuel : Nat) (d : Decoder) :
    Decoder.walk fuel c d = .ok c d := by
  have : ¬ Config.firstString ≤ c.toNat := by simp [Config.firstString]; omega
  cases fuel <;> simp only [Decoder.walk, if_neg this]

/-! ### Operands in and out of the range of a rule (log entry 13) -/

/-- In its range `PUTBITS` is the pseudocode of R122. -/
theorem Codec.putField_of_wf {val : BitVec 16} {wd : BitVec 5} (h : (Instr.putBits val wd).wf = true) (c : Codec) :
    c.putField val wd = c.putBits val.toNat wd.toNat := by
  obtain ⟨h1, h2⟩ := Bool.and_eq_true_iff.1 h
  simp [Codec.putField, BitBuf.field, h1, h2]

/-- Whatever the operands, the field has 1 to 16 bits and its value fits. -/
theorem BitBuf.field_fits (val : BitVec 16) (wd : BitVec 5) (u : BitBuf) :
    1 ≤ (u.field val wd).2 ∧ (u.field val wd).2 ≤ 16 ∧ (u.field val wd).1 < 2 ^ (u.field val wd).2 := by
  unfold BitBuf.field
  split
  · rename_i h
    rw [isFieldWidth_iff] at h
    split
    · rename_i h2; exact ⟨h.1, h.2, (fitsField_iff _ _).1 h2⟩
    · exact ⟨h.1, h.2, Nat.mod_lt _ (Nat.two_pow_pos _)⟩
  · refine ⟨?_, ?_, Nat.mod_lt _ (Nat.two_pow_pos _)⟩ <;> simp only [freeFieldOf] <;> omega

/-- In its range `GETBITS` is the pseudocode of R124. -/
theorem Codec.getField_of_wf {wd : BitVec 5} (h : (Instr.getBits wd).wf = true) (c : Codec) :
    c.getField wd = c.getBits wd.toNat := if_pos h

/-- In its range `AB_ENC` writes the codeword of its operand. -/
theorem Codec.abEnc_of_lt {v n : Nat} (h1 : 258 ≤ n) (h2 : n ≤ 65536) (hv : v < n) (c : Codec) :
    c.abEnc v n = c.writeCode v n := by
  simp [Codec.abEnc, (alphabetSize_iff n).2 ⟨h1, h2⟩, hv]

/-- At an alphabet size `AB_ENC` writes the codeword of a code below it, whatever its operand. -/
theorem Codec.abEnc_writes {n : Nat} (h1 : 258 ≤ n) (h2 : n ≤ 65536) (v : Nat) (c : Codec) :
    ∃ x, x < n ∧ (v < n → x = v) ∧ c.abEnc v n = c.writeCode x n := by
  by_cases hv : v < n
  · exact ⟨v, hv, fun _ => rfl, c.abEnc_of_lt h1 h2 hv⟩
  · refine ⟨Config.freeCode c.buf.acc c.buf.nbits v n % n, Nat.mod_lt _ (by omega), fun h => absurd h hv, ?_⟩
    simp [Codec.abEnc, (alphabetSize_iff n).2 ⟨h1, h2⟩, hv]

/-- At an alphabet size `AB_DEC` reads the codeword ahead. -/
theorem Codec.abDec_of_alphabet {n : Nat} (h1 : 258 ≤ n) (h2 : n ≤ 65536) (c : Codec) : c.abDec n = c.readCode n :=
  if_pos ((alphabetSize_iff n).2 ⟨h1, h2⟩)

/-- In its range `AB_PARAMS` is the pair of R140. -/
theorem abParamsOf_of_alphabet {n : BitVec 17} (h : isAlphabet n = true) : abParamsOf n.toNat = abParams n.toNat := if_pos h

/-- `DICT_VICTIM` of a data code is the scan of R167. -/
theorem Dict.victim_of_data {excl : Code} (h : isDataCode excl = true) (d : Dict) :
    d.victim excl = d.scan excl (d.max.toNat - 258) d.cursor := if_pos h

/-- `DICT_LOOKUP` of a data code reads the index. -/
theorem Encoder.lookupAnswer_of_data {p : Code} (h : isDataCode p = true) (e : Encoder) (b : Byte) :
    e.lookupAnswer p b = e.lookup p b := if_pos h

/-- `DICT_ISLEAF` of an assigned string code is the leaf test. -/
theorem Dict.leafAnswer_of_assigned {d : Dict} {c : Code} (h : d.isAssignedString c = true) : d.leafAnswer c = d.isLeaf c :=
  if_pos h

/-- `SUCC` of a string code below `MAX`. -/
theorem Dict.succAnswer_of_inScan {d : Dict} {c : Code} (h : d.inScan c = true) : d.succAnswer c = d.succ c := if_pos h

/-- `EMIT_DATA` of a data code emits that code. -/
theorem Encoder.dataCode_of_data {c : Code} (h : isDataCode c = true) (e : Encoder) : e.dataCode c = c := if_pos h

end Sys2Proof.Machine
end

