-- ==== Sys2Proof/Laws/Instances.lean ====
section
/-! SUPPORT. What each rule of an encoder and of a decoder can do to the parts that rules share: the ports, the
policy, the command register and the canonical form of the memories; and which rules never stop with a fault. -/

namespace Sys2Proof.Machine

/-! ### Encoder -/

/-- `f` is `e` after rules of the encoder: the wiring, the policy and the last command stay, the sink only grows, the
source only shrinks, and canonical memories stay canonical. -/
structure Encoder.Steps (e f : Encoder) : Prop where
  policy : f.policy = e.policy
  cmd : f.codec.cmd = e.codec.cmd
  status : f.codec.port.status = e.codec.port.status
  sink : e.codec.port.sink <+: f.codec.port.sink
  source : f.codec.port.source <:+ e.codec.port.source
  pfx_wf : Mem.wf e.codec.dict.pfx → Mem.wf f.codec.dict.pfx
  term_wf : Mem.wf e.codec.dict.term → Mem.wf f.codec.dict.term
  index_wf : Mem.wf e.index → Mem.wf f.index

theorem Encoder.Steps.refl (e : Encoder) : e.Steps e :=
  ⟨rfl, rfl, rfl, List.prefix_refl _, List.suffix_refl _, id, id, id⟩

theorem Encoder.Steps.trans {e f g : Encoder} (h : e.Steps f) (k : f.Steps g) : e.Steps g :=
  ⟨k.policy.trans h.policy, k.cmd.trans h.cmd, k.status.trans h.status, h.sink.trans k.sink, k.source.trans h.source,
    k.pfx_wf ∘ h.pfx_wf, k.term_wf ∘ h.term_wf, k.index_wf ∘ h.index_wf⟩

/-- A bit operation of the common part. -/
theorem Encoder.Steps.ofBits {e : Encoder} {c : Codec} (h : e.codec.BitStep c) : e.Steps (e.setCodec c) :=
  ⟨rfl, h.cmd, h.status, h.sink, h.source, by simp [h.dict], by simp [h.dict], id⟩

/-- Rules after rules. -/
theorem Encoder.Steps.after {α : Type} {e f : Encoder} {x : Ans Encoder α} (h : e.Steps f) (hx : x.All f.Steps) :
    x.All e.Steps :=
  hx.mono fun _ hg => h.trans hg

/-- A bit operation on the encoder's common part. -/
theorem Encoder.onCodec_steps {α : Type} {e : Encoder} {f : Codec → Ans Codec α} (h : (f e.codec).All e.codec.BitStep) :
    (e.onCodec f).All e.Steps :=
  h.within fun _ hc => .ofBits hc

theorem Encoder.onCodec_runs {α : Type} {e : Encoder} {f : Codec → Ans Codec α} (h : (f e.codec).runs = true) :
    (e.onCodec f).runs = true := by
  simpa [Encoder.onCodec] using h

theorem Encoder.emitCtrl_steps (c : Nat) (e : Encoder) : (e.emitCtrl c).All e.Steps :=
  Encoder.onCodec_steps (Codec.abEnc_step _ _ _)

theorem Encoder.emitCtrl_runs (c : Nat) (e : Encoder) : (e.emitCtrl c).runs = true :=
  Encoder.onCodec_runs (Codec.abEnc_runs _ _ _)

theorem Encoder.emitData_steps (c : Code) (e : Encoder) : (e.emitData c).All e.Steps := by
  unfold Encoder.emitData Encoder.onCodec
  refine Ans.All.within (P := fun d => d.dict.pfx = e.codec.dict.pfx ∧ d.dict.term = e.codec.dict.term ∧ d.cmd = e.codec.cmd ∧
    d.port.status = e.codec.port.status ∧ e.codec.port.sink <+: d.port.sink ∧ d.port.source <:+ e.codec.port.source) ?_ ?_
  · refine Ans.All.bind ((Codec.abEnc_step _ _ _).mono fun d h => ?_) fun _ d h => ?_
    · exact ⟨by rw [h.dict], by rw [h.dict], h.cmd, h.status, h.sink, h.source⟩
    · simpa using h
  · rintro d ⟨h1, h2, h3, h4, h5, h6⟩
    exact ⟨rfl, h3, h4, h5, h6, by simp [h1], by simp [h2], id⟩

theorem Encoder.emitData_runs (c : Code) (e : Encoder) : (e.emitData c).runs = true :=
  Encoder.onCodec_runs (Ans.runs_bind (Codec.abEnc_runs _ _ _) fun _ _ _ => rfl)

theorem Encoder.insertGrowing_steps (p : Code) (b : Byte) (e : Encoder) : e.Steps (e.insertGrowing p b) :=
  ⟨rfl, rfl, rfl, List.prefix_refl _, List.suffix_refl _, fun h => wf_writeMem h _ _, fun h => wf_writeMem h _ _,
    fun h => wf_writeMem h _ _⟩

/-- The recycling insertion: the victim's pair leaves the index, its slot gets the new pair, the index gains it; or
the victim's pair was never written. -/
theorem Encoder.insertRecycling_cases (e : Encoder) (v p : Code) (b : Byte) :
    (∃ q a, readMem e.codec.dict.pfx v.toNat = some q ∧ readMem e.codec.dict.term v.toNat = some a ∧
      e.insertRecycling v p b =
        .ok (some v) (((e.indexRemove q a).setDict (e.codec.dict.recycle v p b)).indexAdd p b v)) ∨
      (e.insertRecycling v p b = .fault .unspecifiedRead ∧
        (readMem e.codec.dict.pfx v.toNat = none ∨ readMem e.codec.dict.term v.toNat = none)) := by
  unfold Encoder.insertRecycling
  cases h1 : readMem e.codec.dict.pfx v.toNat <;> cases h2 : readMem e.codec.dict.term v.toNat <;> simp

/-- `DICT_INSERT` of an encoder does one of the three things of R168 to R170, or reads a pair never written. -/
theorem Encoder.dictInsert_cases (e : Encoder) (p : Code) (b : Byte) :
    (e.codec.dict.hasFree = true ∧ e.dictInsert p b = .ok (some e.codec.dict.freeHead) (e.insertGrowing p b)) ∨
      (e.codec.dict.hasFree = false ∧ ∃ v, e.codec.dict.victim p = some v ∧
        e.dictInsert p b = e.insertRecycling v p b) ∨
      (e.codec.dict.hasFree = false ∧ e.codec.dict.victim p = none ∧ e.dictInsert p b = .ok none e) := by
  unfold Encoder.dictInsert
  cases h1 : e.codec.dict.hasFree <;> cases h2 : e.codec.dict.victim p <;> simp

theorem Encoder.dictInsert_steps (p : Code) (b : Byte) (e : Encoder) : (e.dictInsert p b).All e.Steps := by
  rcases e.dictInsert_cases p b with ⟨-, h⟩ | ⟨-, v, -, h⟩ | ⟨-, -, h⟩ <;> rw [h]
  · exact e.insertGrowing_steps p b
  · rcases e.insertRecycling_cases v p b with ⟨q, a, -, -, h⟩ | ⟨h, -⟩ <;> rw [h]
    · exact ⟨rfl, rfl, rfl, List.prefix_refl _, List.suffix_refl _, fun h => wf_writeMem h _ _, fun h => wf_writeMem h _ _,
        fun h => wf_writeMem (wf_eraseMem h _) _ _⟩
    · trivial
  · exact .refl e

/-- The monitor changes its own registers, and asks for a flush only when the dictionary is full (R199). -/
theorem Encoder.monUpdate_cases (mlen wd : Nat) (e : Encoder) :
    ∃ f i o k, e.monUpdate mlen wd = (f, { e with monIn := i, monOut := o, monOther := k }) ∧
      (f = true → e.codec.dict.full = true) := by
  unfold Encoder.monUpdate
  dsimp only
  split
  · split
    · exact ⟨_, _, _, _, rfl, by simp; tauto⟩
    · exact ⟨_, _, _, _, rfl, by simp⟩
  · exact ⟨_, _, _, _, rfl, by simp; tauto⟩

/-- Registers outside the ports, the policy, the command and the memories are free. -/
theorem Encoder.Steps.regs {e f : Encoder} (hp : f.policy = e.policy) (hc : f.codec.cmd = e.codec.cmd)
    (ho : f.codec.port = e.codec.port) (h1 : f.codec.dict.pfx = e.codec.dict.pfx)
    (h2 : f.codec.dict.term = e.codec.dict.term) (h3 : f.index = e.index ∨ f.index = []) : e.Steps f :=
  ⟨hp, hc, by rw [ho], by rw [ho], by rw [ho], by rw [h1]; exact id, by rw [h2]; exact id, fun h => by
    rcases h3 with h3 | h3 <;> simp [h3, h, Mem.wf]⟩

theorem Encoder.flushDict_steps (e : Encoder) : e.flushDict.All e.Steps :=
  (e.emitCtrl_steps _).bind fun _ _ hf => hf.trans (.regs rfl rfl rfl rfl rfl (.inr rfl))

theorem Encoder.flushDict_runs (e : Encoder) : e.flushDict.runs = true :=
  Ans.runs_bind (e.emitCtrl_runs _) fun _ _ _ => rfl

theorem Encoder.flushIf_steps (b : Bool) (e : Encoder) : (e.flushIf b).All e.Steps := by
  unfold Encoder.flushIf
  split
  · exact e.flushDict_steps
  · exact .refl e

theorem Encoder.flushIf_runs (b : Bool) (e : Encoder) : (e.flushIf b).runs = true := by
  unfold Encoder.flushIf
  split
  · exact e.flushDict_runs
  · rfl

theorem Encoder.encFinish_steps (e : Encoder) : e.encFinish.All e.Steps :=
  (Encoder.onCodec_steps (Codec.flushBits_step _)).bind fun _ _ hf => hf.trans (.regs rfl rfl rfl rfl rfl (.inl rfl))

theorem Encoder.encFinish_runs (e : Encoder) : e.encFinish.runs = true :=
  Ans.runs_bind (Encoder.onCodec_runs (Codec.flushBits_runs _)) fun _ _ _ => rfl

theorem Encoder.start_steps (m : Nat) (e : Encoder) : (e.start m).All e.Steps := by
  unfold Encoder.start
  split
  · refine Ans.All.bind (P := e.Steps) ?_ fun _ _ hf => hf.trans (.regs rfl rfl rfl rfl rfl (.inl rfl))
    have hi : e.Steps (e.initialise m) := .regs rfl rfl rfl rfl rfl (.inr rfl)
    exact hi.after (Encoder.onCodec_steps (Codec.sinkPush_step _ _))
  · exact .regs rfl rfl rfl rfl rfl (.inl rfl)

theorem Encoder.start_runs (m : Nat) (e : Encoder) : (e.start m).runs = true := by
  unfold Encoder.start
  split
  · exact Ans.runs_bind (Encoder.onCodec_runs (Codec.sinkPush_runs _ _)) fun _ _ _ => rfl
  · rfl

theorem Encoder.miss_steps (b : Byte) (e : Encoder) : (e.miss b).All e.Steps := by
  unfold Encoder.miss
  split
  · trivial
  · rename_i w _
    refine (e.emitData_steps w).bind fun wd f hf => ?_
    refine ((f.dictInsert_steps w b).mono fun g hg => hf.trans hg).bind fun _ g hg => ?_
    obtain ⟨q, i, o, z, hm, -⟩ := g.monUpdate_cases g.mlen.toNat wd
    rw [hm]
    have hr : e.Steps { g with monIn := i, monOut := o, monOther := z } := hg.trans (.regs rfl rfl rfl rfl rfl (.inl rfl))
    exact ((Encoder.flushIf_steps q _).mono fun k hk => hr.trans hk).bind fun _ k hk =>
      hk.trans (.regs rfl rfl rfl rfl rfl (.inl rfl))

theorem Encoder.first_steps (e : Encoder) : e.first.All e.Steps := by
  unfold Encoder.first
  have hs := e.codec.srcPull_step
  split
  · rename_i c h
    rw [h] at hs
    exact ((Encoder.emitCtrl_steps _ _).mono fun f hf => (Encoder.Steps.ofBits hs).trans hf).bind fun _ f hf =>
      (f.encFinish_steps).mono fun g hg => hf.trans hg
  · rename_i b c h
    rw [h] at hs
    exact (Encoder.Steps.ofBits hs).trans (.regs rfl rfl rfl rfl rfl (.inl rfl))

theorem Encoder.first_runs (e : Encoder) : e.first.runs = true := by
  unfold Encoder.first
  split
  · exact Ans.runs_bind (Encoder.emitCtrl_runs _ _) fun _ _ _ => Encoder.encFinish_runs _
  · rfl

theorem Encoder.next_steps (e : Encoder) : e.next.All e.Steps := by
  unfold Encoder.next
  have hs := e.codec.srcPull_step
  split
  · trivial
  · rename_i w c _ h
    rw [h] at hs
    exact ((Encoder.emitData_steps w _).mono fun f hf => (Encoder.Steps.ofBits hs).trans hf).bind fun _ f hf =>
      ((f.emitCtrl_steps _).mono fun g hg => hf.trans hg).bind fun _ g hg =>
        (g.encFinish_steps).mono fun k hk => hg.trans hk
  · rename_i w b c _ h
    rw [h] at hs
    dsimp only
    split
    · exact (Encoder.Steps.ofBits hs).trans (.regs rfl rfl rfl rfl rfl (.inl rfl))
    · exact ((Encoder.miss_steps b _).mono fun f hf => (Encoder.Steps.ofBits hs).trans hf).bind fun _ f hf =>
        hf.trans (.regs rfl rfl rfl rfl rfl (.inl rfl))

/-! ### Decoder -/

/-- `g` is `d` after rules of the decoder: the wiring and the last command stay, the sink only grows, the source only
shrinks, and canonical memories stay canonical. -/
structure Decoder.Steps (d g : Decoder) : Prop where
  cmd : g.codec.cmd = d.codec.cmd
  status : g.codec.port.status = d.codec.port.status
  sink : d.codec.port.sink <+: g.codec.port.sink
  source : g.codec.port.source <:+ d.codec.port.source
  pfx_wf : Mem.wf d.codec.dict.pfx → Mem.wf g.codec.dict.pfx
  term_wf : Mem.wf d.codec.dict.term → Mem.wf g.codec.dict.term
  stk_wf : Mem.wf d.stk → Mem.wf g.stk

theorem Decoder.Steps.refl (d : Decoder) : d.Steps d :=
  ⟨rfl, rfl, List.prefix_refl _, List.suffix_refl _, id, id, id⟩

theorem Decoder.Steps.trans {d g k : Decoder} (h : d.Steps g) (j : g.Steps k) : d.Steps k :=
  ⟨j.cmd.trans h.cmd, j.status.trans h.status, h.sink.trans j.sink, j.source.trans h.source, j.pfx_wf ∘ h.pfx_wf,
    j.term_wf ∘ h.term_wf, j.stk_wf ∘ h.stk_wf⟩

/-- A bit operation of the common part. -/
theorem Decoder.Steps.ofBits {d : Decoder} {c : Codec} (h : d.codec.BitStep c) : d.Steps (d.setCodec c) :=
  ⟨h.cmd, h.status, h.sink, h.source, by simp [h.dict], by simp [h.dict], id⟩

/-- Registers outside the ports, the command and the memories are free. -/
theorem Decoder.Steps.regs {d g : Decoder} (hc : g.codec.cmd = d.codec.cmd) (ho : g.codec.port = d.codec.port)
    (h1 : g.codec.dict.pfx = d.codec.dict.pfx) (h2 : g.codec.dict.term = d.codec.dict.term) (h3 : g.stk = d.stk) :
    d.Steps g :=
  ⟨hc, by rw [ho], by rw [ho], by rw [ho], by rw [h1]; exact id, by rw [h2]; exact id, by rw [h3]; exact id⟩

/-- Rules after rules. -/
theorem Decoder.Steps.after {α : Type} {d g : Decoder} {x : Ans Decoder α} (h : d.Steps g) (hx : x.All g.Steps) :
    x.All d.Steps :=
  hx.mono fun _ hk => h.trans hk

theorem Decoder.Steps.setSp (d : Decoder) (x : BitVec 17) : d.Steps { d with sp := x } := .regs rfl rfl rfl rfl rfl

theorem Decoder.onCodec_steps {α : Type} {d : Decoder} {f : Codec → Ans Codec α} (h : (f d.codec).All d.codec.BitStep) :
    (d.onCodec f).All d.Steps :=
  h.within fun _ hc => .ofBits hc

theorem Decoder.sinkPush_steps (b : Byte) (d : Decoder) : (d.sinkPush b).All d.Steps :=
  Decoder.onCodec_steps (Codec.sinkPush_step _ _)

theorem Decoder.sinkPush_runs (b : Byte) (d : Decoder) : (d.sinkPush b).runs = true := by
  simpa [Decoder.sinkPush, Decoder.onCodec] using Codec.sinkPush_runs b d.codec

theorem Decoder.walk_steps (fuel : Nat) (c : Code) (d : Decoder) : (Decoder.walk fuel c d).All d.Steps := by
  induction fuel generalizing c d with
  | zero =>
    simp only [Decoder.walk]
    split
    · exact .regs rfl rfl rfl rfl rfl
    · exact .refl d
  | succ fuel ih =>
    simp only [Decoder.walk]
    split
    · split
      · exact .regs rfl rfl rfl rfl rfl
      · split
        · refine Decoder.Steps.after ?_ (ih _ _)
          exact ⟨rfl, rfl, List.prefix_refl _, List.suffix_refl _, id, id, fun h => wf_writeMem h _ _⟩
        · trivial
    · exact .refl d

theorem Decoder.popAll_steps (k : Nat) (d : Decoder) : (Decoder.popAll k d).All d.Steps := by
  induction k generalizing d with
  | zero => exact .refl d
  | succ k ih =>
    simp only [Decoder.popAll]
    split
    · refine Ans.All.bind (P := d.Steps) ?_ fun _ g hg => hg.after (ih g)
      exact (Decoder.Steps.setSp d _).after (Decoder.sinkPush_steps _ _)
    · trivial

theorem Decoder.expand_steps (c : Code) (d : Decoder) : (d.expand c).All d.Steps := by
  unfold Decoder.expand
  refine Ans.All.bind (P := d.Steps) ((Decoder.Steps.setSp d 0).after (Decoder.walk_steps _ c _))
    fun root g hg => ?_
  split
  · exact ((g.sinkPush_steps _).mono fun x hx => hg.trans hx).bind fun _ x hx =>
      ((x.popAll_steps _).mono fun y hy => hx.trans hy).bind fun _ y hy => hy
  · exact hg.trans (.regs rfl rfl rfl rfl rfl)

theorem Decoder.lit_steps (b : Byte) (d : Decoder) : (d.lit b).All d.Steps := (d.sinkPush_steps b).bind fun _ _ h => h

theorem Decoder.str_steps (c : Code) (d : Decoder) : (d.str c).All d.Steps := by
  unfold Decoder.str
  split
  · exact d.expand_steps c
  · exact .regs rfl rfl rfl rfl rfl

theorem Decoder.kwkwk_steps (d : Decoder) : d.kwkwk.All d.Steps := by
  unfold Decoder.kwkwk
  split
  · exact (d.expand_steps _).bind fun _ g hg => ((g.sinkPush_steps _).mono fun x hx => hg.trans hx).bind fun _ _ h => h
  · exact .regs rfl rfl rfl rfl rfl

theorem Decoder.strToken_steps (c : Code) (d : Decoder) : (d.strToken c).All d.Steps := by
  unfold Decoder.strToken
  split
  · exact d.kwkwk_steps
  · exact d.str_steps c

theorem Decoder.dataToken_steps (c : Code) (d : Decoder) : (d.dataToken c).All d.Steps := by
  unfold Decoder.dataToken
  split
  · exact d.kwkwk_steps
  · split
    · exact d.lit_steps _
    · exact d.str_steps c

/-- `DICT_INSERT` without an index does one of the three things of R168 to R170. -/
theorem Dict.insert_cases (d : Dict) (p : Code) (b : Byte) :
    (d.hasFree = true ∧ d.insert p b = (some d.freeHead, d.grow p b)) ∨
      (d.hasFree = false ∧ ∃ v, d.victim p = some v ∧ d.insert p b = (some v, d.recycle v p b)) ∨
      (d.hasFree = false ∧ d.victim p = none ∧ d.insert p b = (none, d)) := by
  unfold Dict.insert
  cases h1 : d.hasFree <;> cases h2 : d.victim p <;> simp

theorem Decoder.dictInsert_steps (p : Code) (b : Byte) (d : Decoder) : (d.dictInsert p b).All d.Steps := by
  unfold Decoder.dictInsert
  rcases d.codec.dict.insert_cases p b with ⟨-, h⟩ | ⟨-, v, -, h⟩ | ⟨-, -, h⟩ <;> rw [h]
  · exact ⟨rfl, rfl, List.prefix_refl _, List.suffix_refl _, fun h => wf_writeMem h _ _, fun h => wf_writeMem h _ _, id⟩
  · exact ⟨rfl, rfl, List.prefix_refl _, List.suffix_refl _, fun h => wf_writeMem h _ _, fun h => wf_writeMem h _ _, id⟩
  · exact .refl d

theorem Decoder.decInsert_steps (fb : Byte) (d : Decoder) : (d.decInsert fb).All d.Steps := by
  unfold Decoder.decInsert
  split
  · exact d.dictInsert_steps _ fb
  · exact .refl d

theorem Decoder.decNext_steps (c : Code) (d : Decoder) : d.Steps (d.decNext c) := .regs rfl rfl rfl rfl rfl

theorem Decoder.data_steps (c : Code) (d : Decoder) : (d.data c).All d.Steps :=
  (d.dataToken_steps c).bind fun fb g hg =>
    (hg.after (g.decInsert_steps fb)).bind fun _ x hx => hx.trans (x.decNext_steps c)

theorem Decoder.symbol_steps (c : Code) (d : Decoder) : (d.symbol c).All d.Steps := by
  unfold Decoder.symbol
  split
  · exact .regs rfl rfl rfl rfl rfl
  · split
    · exact .regs rfl rfl rfl rfl rfl
    · exact (d.data_steps c).bind fun _ g hg => hg.trans (.regs rfl rfl rfl rfl rfl)

theorem Decoder.dSymbol_steps (d : Decoder) : d.dSymbol.All d.Steps :=
  (Decoder.onCodec_steps (Codec.abDec_step _ _)).bind fun _ g hg => hg.after (g.symbol_steps _)

theorem Decoder.header_steps (b : Byte) (d : Decoder) : (d.header b).All d.Steps := by
  unfold Decoder.header
  split
  · exact .regs rfl rfl rfl rfl rfl
  · exact .regs rfl rfl rfl rfl rfl

theorem Decoder.hdr_steps (d : Decoder) : d.hdr.All d.Steps := by
  unfold Decoder.hdr
  have hs := d.codec.srcPull_step
  split
  · rename_i c h
    rw [h] at hs
    exact (Decoder.Steps.ofBits hs).trans (.regs rfl rfl rfl rfl rfl)
  · rename_i b c h
    rw [h] at hs
    exact (Decoder.header_steps b _).mono fun g hg => (Decoder.Steps.ofBits hs).trans hg

theorem Decoder.header_runs (b : Byte) (d : Decoder) : (d.header b).runs = true := by
  unfold Decoder.header
  split <;> rfl

theorem Decoder.hdr_runs (d : Decoder) : d.hdr.runs = true := by
  unfold Decoder.hdr
  split
  · rfl
  · exact Decoder.header_runs _ _

/-- The memories after reset are in canonical form. -/
theorem State.reset_memWf : State.reset.MemWf :=
  ⟨by decide, by decide, by decide, by decide, by decide, by decide⟩

end Sys2Proof.Machine
end

