-- ==== Sys2Proof/Laws/PerInstr.lean ====
section
/-! SUPPORT. Statements about every instruction, one lemma per constructor. Family `Encoding`: the word the encoder
gives a well-formed instruction (spec/30_encoding.md R91, R95, R96, R99) decodes to that instruction; an operation or
a codeword format has no such word. -/

namespace Sys2Proof.Laws.Encoding

/-- The pending code under which an instruction is decoded: its own for a KwKwK token, none for every other (R95). -/
def pendingFor : Instr → Option Code
  | .strKwKwK c => some c
  | _ => none

/-- A well-formed instruction that has a word is what its word decodes to. -/
def Statement (i : Instr) : Prop :=
  i.wf = true → ∀ w, encode i = some w → decode (pendingFor i) w = i

theorem compress (maxbits : BitVec 5) (ignored : BitVec 2) : Statement (.compress maxbits ignored) := by
  rintro - w h
  cases h
  revert maxbits ignored
  decide

theorem decompress (ignored : BitVec 7) : Statement (.decompress ignored) := by
  rintro - w h
  cases h
  revert ignored
  decide

theorem hdr (b : Byte) : Statement (.hdr b) := by
  rintro - w h
  cases h
  rfl

theorem lit (b : Byte) : Statement (.lit b) := by
  rintro - w h
  cases h
  revert b
  decide

theorem clear : Statement .clear := by
  rintro - w h
  cases h
  decide

theorem endTok : Statement .endTok := by
  rintro - w h
  cases h
  decide

theorem str (c : Code) : Statement (.str c) := by
  intro hc w h
  cases h
  have : 258 ≤ c.toNat := of_decide_eq_true hc
  simp only [decode, pendingFor, decodeToken, BitVec.ofNat_toNat, BitVec.setWidth_eq, Config.endOfStream, Config.clear]
  rw [if_neg (by omega), if_neg (by omega), if_neg (by simp), if_neg (by omega)]

theorem strKwKwK (c : Code) : Statement (.strKwKwK c) := by
  intro hc w h
  cases h
  have : 258 ≤ c.toNat := of_decide_eq_true hc
  simp only [decode, pendingFor, decodeToken, BitVec.ofNat_toNat, BitVec.setWidth_eq, Config.endOfStream, Config.clear]
  rw [if_neg (by omega), if_neg (by omega), if_pos trivial]

theorem pad (j : BitVec 3) : Statement (.pad j) := by
  rintro - w h
  cases h
  rfl

/-- An instruction without a word meets the statement. -/
theorem of_no_word {i : Instr} (h : encode i = none) : Statement i := by
  intro _ w hw
  rw [h] at hw
  cases hw

theorem abs (side : Side) (p : Code) : Statement (.abs side p) := of_no_word rfl
theorem abl (side : Side) (p : Code) (e : BitVec 1) : Statement (.abl side p e) := of_no_word rfl
theorem srcPull (side : Side) : Statement (.srcPull side) := of_no_word rfl
theorem sinkPush (side : Side) (b : Byte) : Statement (.sinkPush side b) := of_no_word rfl
theorem putBits (val : BitVec 16) (wd : BitVec 5) : Statement (.putBits val wd) := of_no_word rfl
theorem flushBits : Statement .flushBits := of_no_word rfl
theorem getBits (wd : BitVec 5) : Statement (.getBits wd) := of_no_word rfl
theorem abParams (n : BitVec 17) : Statement (.abParams n) := of_no_word rfl
theorem abEnc (v : Code) (n : BitVec 17) : Statement (.abEnc v n) := of_no_word rfl
theorem abDec (n : BitVec 17) : Statement (.abDec n) := of_no_word rfl
theorem dictReset (side : Side) : Statement (.dictReset side) := of_no_word rfl
theorem dictAssigned (side : Side) (c : Code) : Statement (.dictAssigned side c) := of_no_word rfl
theorem dictLookup (p : Code) (b : Byte) : Statement (.dictLookup p b) := of_no_word rfl
theorem indexAdd (p : Code) (b : Byte) (c : Code) : Statement (.indexAdd p b c) := of_no_word rfl
theorem indexRemove (p : Code) (b : Byte) : Statement (.indexRemove p b) := of_no_word rfl
theorem dictIsLeaf (side : Side) (c : Code) : Statement (.dictIsLeaf side c) := of_no_word rfl
theorem succ (side : Side) (c : Code) : Statement (.succ side c) := of_no_word rfl
theorem dictVictim (side : Side) (excl : Code) : Statement (.dictVictim side excl) := of_no_word rfl
theorem dictPending (side : Side) (excl : Code) : Statement (.dictPending side excl) := of_no_word rfl
theorem dictInsertGrowing (side : Side) (p : Code) (b : Byte) : Statement (.dictInsertGrowing side p b) := of_no_word rfl
theorem dictInsertRecycling (side : Side) (p : Code) (b : Byte) : Statement (.dictInsertRecycling side p b) := of_no_word rfl
theorem dictInsertNoVictim (side : Side) (p : Code) (b : Byte) : Statement (.dictInsertNoVictim side p b) := of_no_word rfl
theorem alphaStep (side : Side) : Statement (.alphaStep side) := of_no_word rfl
theorem encStart (maxbits : BitVec 5) : Statement (.encStart maxbits) := of_no_word rfl
theorem eFirst : Statement .eFirst := of_no_word rfl
theorem eNext : Statement .eNext := of_no_word rfl
theorem encExtend (c : Code) : Statement (.encExtend c) := of_no_word rfl
theorem encMiss (b : Byte) : Statement (.encMiss b) := of_no_word rfl
theorem emitData (c : Code) : Statement (.emitData c) := of_no_word rfl
theorem monReset : Statement .monReset := of_no_word rfl
theorem monUpdate (mlen : BitVec 16) (wd : BitVec 5) : Statement (.monUpdate mlen wd) := of_no_word rfl
theorem encFlushDict : Statement .encFlushDict := of_no_word rfl
theorem encFinish : Statement .encFinish := of_no_word rfl
theorem decStart : Statement .decStart := of_no_word rfl
theorem dHdr : Statement .dHdr := of_no_word rfl
theorem dSymbol : Statement .dSymbol := of_no_word rfl
theorem data (c : Code) : Statement (.data c) := of_no_word rfl
theorem expand (c : Code) : Statement (.expand c) := of_no_word rfl
theorem decInsert (fb : Byte) : Statement (.decInsert fb) := of_no_word rfl
theorem decNext (c : Code) : Statement (.decNext c) := of_no_word rfl
theorem raiseFail (side : Side) (cause : Cause) : Statement (.raiseFail side cause) := of_no_word rfl
theorem finish (side : Side) : Statement (.finish side) := of_no_word rfl

end Sys2Proof.Laws.Encoding
end

