-- ==== Sys2Proof/Tests/Slice0.lean ====
section
/-! SUPPORT. Tests: ill-formed operands are told and run, words written out bit by bit from spec/30_encoding.md decode to what
they stand for, one step of each instruction against the worked examples of its rule; and for every statement with
hypotheses a state and operands that meet them (`witness_<statement>`). -/

namespace Sys2Proof.Tests

open Sys2Proof Sys2Proof.Machine

set_option Elab.async false

/-! ### Small states -/

/-- The block after reset, its encoder in a phase with a source. -/
def encIn (ph : Phase) (source : List Byte) : State :=
  State.reset.setCodec .enc { State.reset.enc.codec with phase := ph, port := { Port.reset 0 with source := source } }

/-- The block after reset, its decoder in a phase with a source. -/
def decIn (ph : Phase) (source : List Byte) : State :=
  State.reset.setCodec .dec { State.reset.dec.codec with phase := ph, port := { Port.reset 1 with source := source } }

/-- The block with a dictionary in the instance a side names. -/
def withDict (side : Side) (d : Dict) (s : State) : State := s.setCodec side ((s.codec side).setDict d)

/-- The block with an encoder's match. -/
def withMatch (c : Code) (len : Nat) (s : State) : State := { s with enc := s.enc.setMatch c len }

/-- The block with a decoder's `prev`. -/
def withPrev (c : Code) (s : State) : State := { s with dec := { s.dec with prev := some c } }

/-- The block with the bits `acc` in hand, on a side. -/
def withBits (side : Side) (acc : BitVec 32) (nbits : BitVec 6) (s : State) : State :=
  s.setCodec side { s.codec side with buf := { acc := acc, nbits := nbits } }

/-- 258 = (0x41, 0x42), 259 = (258, 0x41), with alphabet size `n` (the example of R165). -/
def dictAB (n : BitVec 17) : Dict :=
  { Dict.reset with pfx := [(258, 0x41), (259, 258)], term := [(258, 0x42), (259, 0x41)], nextFree := 260, n := n }

/-- A full dictionary at `maxbits = 9` whose string codes are all leaves on the literal 0x41. -/
def dictFull : Dict :=
  { Dict.reset with
    pfx := (List.range' 258 254).map fun i => (i, 0x41)
    term := (List.range' 258 254).map fun i => (i, BitVec.ofNat 8 (i - 258))
    nextFree := 512
    full := true
    n := 512 }

/-- A full dictionary that is one chain, 258 on 0x41 and each later code on the one before, as in V12 but cut down to
four string codes. -/
def dictChain : Dict :=
  { Dict.reset with
    max := 262
    pfx := [(258, 0x41), (259, 258), (260, 259), (261, 260)]
    term := [(258, 0x41), (259, 0x41), (260, 0x41), (261, 0x41)]
    nextFree := 262
    full := true
    n := 262 }

/-- What a test looks at in the state after `exec`. -/
def after {α : Type} (i : Instr) (s : State) (f : State → α) : Option α :=
  match exec i s with
  | .next t => some (f t)
  | _ => none

theorem answers_of_after {i : Instr} {s : State} (h : (after i s id).isSome = true) : ∃ t, exec i s = .next t := by
  unfold after at h
  split at h
  · exact ⟨_, ‹_›⟩
  · exact absurd h (by decide)

/-- The name under which an instruction is refused. -/
def refusal (i : Instr) (s : State) : Option Refusal :=
  match exec i s with
  | .refused r => some r
  | _ => none

/-- The fault in which an instruction ends. -/
def faultOf (i : Instr) (s : State) : Option Fault :=
  match exec i s with
  | .fault e => some e
  | _ => none

/-- The state after a step. -/
def stepped (s : State) : Option State :=
  match step s with
  | .next t => some t
  | _ => none

/-- Bits written with 0 and 1, in stream order. -/
def bits (l : List Nat) : List Bool := l.map (· == 1)

/-! ### Ill-formed operands -/

theorem test_wf_string_code : (Instr.str 257).wf = false ∧ (Instr.strKwKwK 255).wf = false := by decide
theorem test_wf_field_value : (Instr.putBits 256 8).wf = false ∧ (Instr.putBits 255 8).wf = true := by decide
theorem test_wf_field_width :
    (Instr.putBits 0 0).wf = false ∧ (Instr.putBits 0 17).wf = false ∧ (Instr.getBits 0).wf = false ∧
      (Instr.getBits 17).wf = false ∧ (Instr.getBits 16).wf = true := by decide
theorem test_wf_alphabet :
    (Instr.abParams 257).wf = false ∧ (Instr.abParams 65537).wf = false ∧ (Instr.abDec 257).wf = false ∧
      (Instr.abParams 65536).wf = true := by decide
theorem test_wf_code_below_alphabet : (Instr.abEnc 258 258).wf = false ∧ (Instr.abEnc 257 258).wf = true := by decide
/-- R163 and R164 state no range of their codes, R162 does. -/
theorem test_wf_lookup :
    (Instr.dictLookup 256 0).wf = false ∧ (Instr.indexAdd 257 0 257).wf = true ∧
      (Instr.indexRemove 256 0).wf = true := by decide
theorem test_wf_leaf_and_succ : (Instr.dictIsLeaf .dec 65).wf = false ∧ (Instr.succ .dec 257).wf = false := by decide
theorem test_wf_excluded_code :
    (Instr.dictVictim .enc 256).wf = false ∧ (Instr.dictPending .dec 257).wf = false := by decide
theorem test_wf_insert :
    (Instr.dictInsertGrowing .enc 256 0).wf = false ∧ (Instr.dictInsertRecycling .dec 257 0).wf = false ∧
      (Instr.dictInsertNoVictim .dec 256 0).wf = false := by decide
theorem test_wf_data_code :
    (Instr.emitData 256).wf = false ∧ (Instr.data 257).wf = false ∧ (Instr.encExtend 65).wf = true ∧
      (Instr.decNext 256).wf = true := by decide
/-- R122: a value that does not fit its width is open, the field's eight bits reach the sink all the same. -/
theorem test_ill_formed_runs :
    after (.putBits 256 8) State.reset (fun t => (t.result, t.enc.codec.port.sink.length)) = some (.unit, 1) := by
  decide +kernel
/-- R225, R227, R229: `DATA(257)` is no pending code, is assigned, and its expansion fails. -/
theorem test_data_reserved :
    after (.data 257) (decIn .dSymbol []) (fun t => (t.dec.codec.phase, t.dec.codec.cause)) = some (.failed, 2) := by
  decide +kernel

/-! ### Words written out from the encodings -/

/-- R99: `CMD[0] = 0`, `CMD[5:1] = 01001`, `CMD[7:6] = 00`. -/
theorem test_decode_compress : decodeCmd 0b00010010 = .compress 9 0 := by decide +kernel
/-- R99: bits 7:6 are kept beside the command, which they do not change; `maxbits` 16 is `10000`. -/
theorem test_decode_compress_ignored : decodeCmd 0b11100000 = .compress 16 3 := by decide +kernel
/-- R99: `CMD[0] = 1`. -/
theorem test_decode_decompress : decodeCmd 0b00000001 = .decompress 0 := by decide +kernel
/-- R91: the whole byte is the header's operand, a reserved bit included. -/
theorem test_decode_hdr : decode none (.hdr 0b00001001) = .hdr 9 ∧ decode none (.hdr 0b00101001) = .hdr 0x29 := by decide
/-- R95: match `0x0000` under mask `0xFF00`. -/
theorem test_decode_lit : decodeToken none 0b0000000001000001 = .lit 0x41 := by decide
/-- R95: `0x0100` under mask `0xFFFF`. -/
theorem test_decode_clear : decodeToken none 0b0000000100000000 = .clear := by decide
/-- R95: `0x0101` under mask `0xFFFF`. -/
theorem test_decode_end : decodeToken none 0b0000000100000001 = .endTok := by decide
/-- R95: the range from 258; which of the two string rows it is the pending code tells. -/
theorem test_decode_str :
    decodeToken none 0b0000000100000010 = .str 258 ∧ decodeToken (some 259) 0b0000000100000010 = .str 258 := by decide
theorem test_decode_kwkwk : decodeToken (some 258) 0b0000000100000010 = .strKwKwK 258 := by decide
/-- R96: seven padding bits. -/
theorem test_decode_pad : decode none (.pad 0b111) = .pad 7 := by decide
/-- R92 at `n = 258`: `k = 8`, `t = 254`; 0x41 least significant bit first. -/
theorem test_decode_abs :
    decodeFormat 258 (bits [1, 0, 0, 0, 0, 0, 1, 0]) = .ok (.abs .dec 0x41, []) := by decide +kernel
/-- R93 at `n = 258`: `p = 255` in 8 bits, then `e = 1`; the bit after is not read. -/
theorem test_decode_abl :
    decodeFormat 258 (bits [1, 1, 1, 1, 1, 1, 1, 1, 1, 0]) = .ok (.abl .dec 255 1, bits [0]) := by decide +kernel
/-- R92 at a power of two, `n = 512`: 9 bits, all short (R98). -/
theorem test_decode_abs_power_of_two :
    decodeFormat 512 (bits [1, 1, 1, 1, 1, 1, 1, 1, 1]) = .ok (.abs .dec 511, []) := by decide +kernel
/-- spec/95_test_vectors.md V1: the stream of the empty input, and the same bytes cut short (R97). -/
theorem test_decode_stream :
    decodeStream [0x09, 0xFF, 0x01] = .ok [.hdr 9, .endTok] ∧ decodeStream [0x09, 0xFF] = .error .truncated ∧
      decodeStream [0x29, 0xFF, 0x01] = .error .badHeader := by decide +kernel
/-- R228: the stream of "AAA"; no bit tells KwKwK from the ordinary case. -/
theorem test_decode_stream_kwkwk :
    decodeStream [0x09, 0x41, 0xFF, 0xFD, 0x03] = .ok [.hdr 9, .lit 0x41, .str 258, .endTok] := by decide +kernel
/-- The encoder writes V1 and the stream of "A" (R193). -/
theorem test_encode_stream :
    encodeStream 9 [.endTok] = [0x09, 0xFF, 0x01] ∧
      encodeStream 12 [.lit 0x41, .endTok] = [0x0C, 0x41, 0xFF, 0x00] := by decide +kernel
theorem test_table_word : decodeTableWord 8 0x20 = some (.compress 16 0) ∧ decodeTableWord 16 0x101 = some .endTok := by
  decide +kernel
/-- The placed word is the next instruction the step runs. -/
theorem test_fetch_word :
    (State.reset.withFetchWord 16 0x100).nextInstr = some .dSymbol ∧
      stepped (State.reset.withFetchWord 8 0x01) = after (.decompress 0) State.reset id := by
  decide +kernel

/-! ### One step of each instruction -/

/-- R191: `COMPRESS 12` pushes `0C`. -/
theorem test_compress :
    after (.compress 12 0) State.reset (fun t => (t.enc.codec.port.sink, t.enc.codec.phase, t.enc.codec.dict.max)) =
      some ([0x0C], .eFirst, 4096) := by decide +kernel
/-- R252: a command to a busy instance is ignored. -/
theorem test_compress_busy : after (.compress 12 0) (encIn .eNext []) id = some (encIn .eNext []) := by decide +kernel
theorem test_decompress :
    after (.decompress 0) (decIn .done []) (fun t => (t.dec.codec.phase, t.dec.codec.statusReg)) =
      some (.dHdr, 1) := by decide +kernel
/-- R221: `0x0C` gives `maxbits = 12`, `MAX = 4096`; `0x29` fails with `BAD_HEADER`. -/
theorem test_hdr :
    after (.hdr 0x0C) (decIn .dHdr []) (fun t => (t.dec.codec.dict.maxbits, t.dec.codec.dict.max, t.dec.codec.phase)) =
      some (12, 4096, .dSymbol) := by decide +kernel
theorem test_hdr_reserved_bit :
    after (.hdr 0x29) (decIn .dHdr []) (fun t => t.dec.codec.statusReg) = some 0b001100 := by decide +kernel
/-- R226. -/
theorem test_lit :
    after (.lit 0x41) State.reset (fun t => (t.dec.codec.port.sink, t.result)) = some ([0x41], .byte 0x41) := by
  decide +kernel
/-- R224: `CLEAR` forgets `prev` and leaves the unpacker. -/
theorem test_clear :
    after .clear (withPrev 0x41 (withBits .dec 5 3 (withDict .dec (dictAB 261) State.reset)))
        (fun t => (t.dec.prev, t.dec.codec.dict.n, t.dec.codec.dict.nextFree, t.dec.codec.buf.nbits)) =
      some (none, 258, 258, 3) := by decide +kernel
/-- R223: nothing changes but the phase. -/
theorem test_end :
    after .endTok (withPrev 0x41 (decIn .dSymbol [1])) (fun t => (t.dec.codec.phase, t.dec.prev, t.dec.codec.port.source)) =
      some (.done, some 0x41, [1]) := by decide +kernel
/-- R227: with 258 = ('A','B'), `STR 258` pushes `41 42`, `fb = 0x41`. -/
theorem test_str :
    after (.str 258) (withDict .dec (dictAB 260) State.reset) (fun t => (t.dec.codec.port.sink, t.result)) =
      some ([0x41, 0x42], .byte 0x41) := by decide +kernel
/-- R227: a code that is neither assigned nor pending. -/
theorem test_str_unassigned :
    after (.str 300) State.reset (fun t => (t.dec.codec.port.sink, t.dec.codec.phase, t.dec.codec.cause)) =
      some ([], .failed, 2) := by decide +kernel
/-- R228: `prev = 0x41`, `next_free = 258`, the code 258: push `41 41`. -/
theorem test_kwkwk :
    after (.strKwKwK 258) (withPrev 0x41 State.reset) (fun t => (t.dec.codec.port.sink, t.result)) =
      some ([0x41, 0x41], .byte 0x41) := by decide +kernel
theorem test_pad : after (.pad 7) (decIn .done [0xDE]) id = some (decIn .done [0xDE]) := by decide +kernel
/-- R92: eight bits make one byte. -/
theorem test_abs :
    after (.abs .enc 0x41) State.reset (fun t => (t.enc.codec.port.sink, t.result)) = some ([0x41], .value 8) := by
  decide +kernel
/-- R96: at `n = 258` the decoder's `ABL` with `p = 255`, `e = 1` is `END`. -/
theorem test_abl :
    after (.abl .dec 255 1) State.reset (fun t => t.result) = some (.code 257) ∧
      refusal (.abl .dec 253 0) State.reset = some .notACodeword := by decide +kernel
/-- R120: `0x41`, then `EOI`. -/
theorem test_src_pull :
    after (.srcPull .dec) (decIn .idle [0x41]) (fun t => (t.result, t.dec.codec.port.source)) =
        some (.byte 0x41, []) ∧
      after (.srcPull .dec) (decIn .idle []) (fun t => t.result) = some .eoi := by decide +kernel
/-- R121: `SinkPush(0x09)` appends `09`. -/
theorem test_sink_push :
    after (.sinkPush .enc 0x09) State.reset (fun t => t.enc.codec.port.sink) = some [0x09] := by decide +kernel
/-- R122: `PUTBITS(0x41, 8)` pushes `41`; `PUTBITS(1, 1)` leaves `acc = 1`, `nbits = 1`. -/
theorem test_put_bits :
    after (.putBits 0x41 8) State.reset (fun t => (t.enc.codec.port.sink, t.enc.codec.buf)) =
        some ([0x41], { acc := 0, nbits := 0 }) ∧
      after (.putBits 1 1) State.reset (fun t => (t.enc.codec.port.sink, t.enc.codec.buf)) =
        some ([], { acc := 1, nbits := 1 }) := by decide +kernel
/-- R122: `nbits = 7`, `wd = 16`: two bytes are pushed and 7 bits remain. -/
theorem test_put_bits_widest :
    after (.putBits 0xFFFF 16) (withBits .enc 0x7F 7 State.reset) (fun t => (t.enc.codec.port.sink, t.enc.codec.buf)) =
      some ([0xFF, 0xFF], { acc := 0x7F, nbits := 7 }) := by decide +kernel
/-- R123: `acc = 1`, `nbits = 1`: it pushes `01`. -/
theorem test_flush_bits :
    after .flushBits (withBits .enc 1 1 State.reset) (fun t => (t.enc.codec.port.sink, t.enc.codec.buf)) =
      some ([0x01], { acc := 0, nbits := 0 }) := by decide +kernel
/-- R124: source `FF 01`: `GETBITS(8)` returns 255; `GETBITS(1)` then pulls `01`, returns 1, leaves `nbits = 7`. -/
theorem test_get_bits :
    after (.getBits 8) (decIn .dSymbol [0xFF, 0x01]) (fun t => (t.result, t.dec.codec.port.source)) =
        some (.value 255, [0x01]) ∧
      after (.getBits 1) (decIn .dSymbol [0x01]) (fun t => (t.result, t.dec.codec.buf)) =
        some (.value 1, { acc := 0, nbits := 7 }) := by decide +kernel
/-- R140: `AB_PARAMS(260) = (8, 252)`, `AB_PARAMS(512) = (9, 512)`. -/
theorem test_ab_params :
    after (.abParams 260) State.reset (fun t => t.result) = some (.params 8 252) ∧
      after (.abParams 512) State.reset (fun t => t.result) = some (.params 9 512) := by decide +kernel
/-- R141: `AB_ENC(257, 258)` writes nine 1 bits, `wd = 9`. -/
theorem test_ab_enc :
    after (.abEnc 257 258) State.reset (fun t => (t.enc.codec.port.sink, t.enc.codec.buf, t.result)) =
      some ([0xFF], { acc := 1, nbits := 1 }, .value 9) := by decide +kernel
/-- R142: `n = 259`, the bits `1111 1111` then `0`: 257. -/
theorem test_ab_dec :
    after (.abDec 259) (decIn .dSymbol [0xFF, 0x00]) (fun t => t.result) = some (.code 257) := by decide +kernel
/-- R142: the source ends before the extra bit. -/
theorem test_ab_dec_truncated :
    after (.abDec 259) (decIn .dSymbol [0xFF]) (fun t => t.dec.codec.statusReg) = some 0b011100 := by decide +kernel
/-- R160. -/
theorem test_dict_reset :
    after (.dictReset .enc) (withDict .enc dictFull State.reset)
        (fun t => (t.enc.codec.dict.nextFree, t.enc.codec.dict.full, t.enc.codec.dict.cursor, t.enc.codec.dict.n)) =
      some (258, false, 258, 258) := by decide +kernel
/-- R161: after a reset 258 is not assigned, 257 is. -/
theorem test_dict_assigned :
    after (.dictAssigned .dec 258) State.reset (fun t => t.result) = some (.flag false) ∧
      after (.dictAssigned .dec 257) State.reset (fun t => t.result) = some (.flag true) := by decide +kernel
/-- R162: the pair is found, the swapped pair is not. -/
theorem test_dict_lookup :
    after (.dictLookup 0x41 0x42) { State.reset with enc := State.reset.enc.indexAdd 0x41 0x42 258 }
        (fun t => t.result) = some (.code 258) ∧
      after (.dictLookup 0x42 0x41) { State.reset with enc := State.reset.enc.indexAdd 0x41 0x42 258 }
        (fun t => t.result) = some .noCode := by decide +kernel
theorem test_index_add :
    after (.indexAdd 0x41 0x42 258) State.reset (fun t => t.enc.index) = some [(0x4142, 258)] := by decide +kernel
theorem test_index_remove :
    after (.indexRemove 0x41 0x42) { State.reset with enc := State.reset.enc.indexAdd 0x41 0x42 258 }
      (fun t => t.enc.index) = some [] := by decide +kernel
/-- R165: 258 is not a leaf and 259 is. -/
theorem test_dict_is_leaf :
    after (.dictIsLeaf .dec 258) (withDict .dec (dictAB 261) State.reset) (fun t => t.result) = some (.flag false) ∧
      after (.dictIsLeaf .dec 259) (withDict .dec (dictAB 261) State.reset) (fun t => t.result) =
        some (.flag true) := by decide +kernel
/-- R166: the last code is followed by 258. -/
theorem test_succ :
    after (.succ .enc 510) State.reset (fun t => t.result) = some (.code 511) ∧
      after (.succ .enc 511) State.reset (fun t => t.result) = some (.code 258) := by decide +kernel
/-- R167: the excluded code is passed over; V12: a single chain with its end excluded has no victim. -/
theorem test_dict_victim :
    after (.dictVictim .enc 258) (withDict .enc dictFull State.reset) (fun t => t.result) = some (.code 259) := by
  decide +kernel
theorem test_dict_victim_none :
    after (.dictVictim .dec 261) (withDict .dec dictChain State.reset) (fun t => t.result) = some .noCode := by
  decide +kernel
/-- R172: the head of the free list, or the victim. -/
theorem test_dict_pending :
    after (.dictPending .dec 0x41) State.reset (fun t => t.result) = some (.code 258) ∧
      after (.dictPending .dec 258) (withDict .dec dictFull State.reset) (fun t => t.result) =
        some (.code 259) := by decide +kernel
/-- R168: after a reset, `DICT_INSERT(0x41, 0x42)` returns 258 and leaves `next_free = 259`. -/
theorem test_insert_growing :
    after (.dictInsertGrowing .enc 0x41 0x42) State.reset
        (fun t => (t.result, t.enc.codec.dict.nextFree, t.enc.codec.dict.full, t.enc.lookup 0x41 0x42)) =
      some (.code 258, 259, false, some 258) := by decide +kernel
/-- R168: the insertion that writes slot `MAX - 1` sets `full`. -/
theorem test_insert_last :
    after (.dictInsertGrowing .dec 0x41 0x42) (withDict .dec { Dict.reset with nextFree := 511 } State.reset)
        (fun t => (t.result, t.dec.codec.dict.full)) = some (.code 511, true) := by decide +kernel
/-- R169: 258 is overwritten, `cursor = 259`; its old pair leaves the index. -/
theorem test_insert_recycling :
    after (.dictInsertRecycling .enc 0x41 0xFF)
        { withDict .enc dictFull State.reset with enc := (withDict .enc dictFull State.reset).enc.indexAdd 0x41 0 258 }
        (fun t => (t.result, t.enc.codec.dict.cursor, t.enc.codec.dict.n, t.enc.lookup 0x41 0, t.enc.lookup 0x41 0xFF)) =
      some (.code 258, 259, 512, none, some 258) := by decide +kernel
/-- R170 (V12): nothing is written. -/
theorem test_insert_no_victim :
    after (.dictInsertNoVictim .dec 261 0x41) (withDict .dec dictChain State.reset) id =
      some { withDict .dec dictChain State.reset with result := .noCode } := by decide +kernel
/-- R176: one more, and at `MAX` nothing. -/
theorem test_alpha_step :
    after (.alphaStep .dec) State.reset (fun t => t.dec.codec.dict.n) = some 259 ∧
      after (.alphaStep .dec) (withDict .dec { Dict.reset with n := 512 } State.reset) (fun t => t.dec.codec.dict.n) =
        some 512 := by decide +kernel
/-- R191: 17 is illegal and nothing is pushed. -/
theorem test_enc_start :
    after (.encStart 17) State.reset (fun t => (t.enc.codec.port.sink, t.enc.codec.phase, t.enc.codec.cause)) =
      some ([], .failed, 1) := by decide +kernel
/-- R192: with an empty source what follows the header is `FF 01`. -/
theorem test_e_first :
    after .eFirst (encIn .eFirst []) (fun t => (t.enc.codec.port.sink, t.enc.codec.phase)) =
        some ([0xFF, 0x01], .done) ∧
      after .eFirst (encIn .eFirst [0x41]) (fun t => (t.enc.wCode, t.enc.mlen, t.enc.codec.phase)) =
        some (some 0x41, 1, .eNext) := by decide +kernel
/-- R193: the end of "A": `LIT 'A'` and `END` with `n = 259`, `41 FF 00`. -/
theorem test_e_next :
    after .eNext (withMatch 0x41 1 (encIn .eNext [])) (fun t => (t.enc.codec.port.sink, t.enc.codec.phase)) =
      some ([0x41, 0xFF, 0x00], .done) := by decide +kernel
/-- R194: with 258 = ('A','B'), `w_code = 0x41`, `b = 0x42`: `w_code` becomes 258, `mlen` 2. -/
theorem test_enc_extend :
    after (.encExtend 258) (withMatch 0x41 1 State.reset) (fun t => (t.enc.wCode, t.enc.mlen)) = some (some 258, 2) := by
  decide +kernel
/-- R195: emits `LIT 'A'`, `n = 259`, inserts 258 = ('A','B'), `w_code = 'B'`. -/
theorem test_enc_miss :
    after (.encMiss 0x42) (withMatch 0x41 1 (encIn .eNext []))
        (fun t => ((t.enc.codec.port.sink, t.enc.codec.dict.n, t.enc.lookup 0x41 0x42), t.enc.wCode, t.enc.monIn, t.enc.monOut)) =
      some (([0x41], 259, some 258), some 0x42, 1, 8) := by decide +kernel
/-- R196: `EMIT_DATA(258)` at `n = 259` writes `p = 255`, `e = 1` and leaves `n = 260`. -/
theorem test_emit_data :
    after (.emitData 258) (withDict .enc { Dict.reset with n := 259 } State.reset)
        (fun t => (t.enc.codec.port.sink, t.enc.codec.buf, t.enc.codec.dict.n, t.result)) =
      some ([0xFF], { acc := 1, nbits := 1 }, 260, .value 9) := by decide +kernel
theorem test_mon_reset :
    after .monReset { State.reset with enc := { State.reset.enc with monIn := 7, monOut := 9 } }
      (fun t => (t.enc.monIn, t.enc.monOut)) = some (0, 0) := by decide +kernel
/-- R198: `mon_in = 4090`, `mon_out = 36000`, `full = 1`, `mlen = 8`, `wd = 9`: flush. -/
theorem test_mon_update :
    after (.monUpdate 8 9)
        (withDict .enc dictFull { State.reset with enc := { State.reset.enc with monIn := 4090, monOut := 36000 } })
        (fun t => (t.result, t.enc.monIn, t.enc.monOut)) = some (.flag true, 0, 0) := by decide +kernel
/-- R198: a window that ends while `full = 0` is discarded without a flush. -/
theorem test_mon_update_not_full :
    after (.monUpdate 8 9) { State.reset with enc := { State.reset.enc with monIn := 4090, monOut := 36000 } }
      (fun t => (t.result, t.enc.monIn)) = some (.flag false, 0) := by decide +kernel
/-- R200: at `maxbits = 9`, `CLEAR` is `0,0,0,0,0,0,0,0,1`; the packer is not flushed. -/
theorem test_enc_flush_dict :
    after .encFlushDict (withDict .enc dictFull State.reset)
        (fun t => (t.enc.codec.port.sink, t.enc.codec.buf, t.enc.codec.dict.n, t.enc.codec.dict.full)) =
      some ([0x00], { acc := 1, nbits := 1 }, 258, false) := by decide +kernel
/-- R201. -/
theorem test_enc_finish :
    after .encFinish (withBits .enc 1 1 (encIn .eNext [])) (fun t => (t.enc.codec.port.sink, t.enc.codec.statusReg)) =
      some ([0x01], 2) := by decide +kernel
/-- R220. -/
theorem test_dec_start :
    after .decStart (withPrev 0x41 (withBits .dec 5 3 State.reset)) (fun t => (t.dec.prev, t.dec.codec.buf, t.dec.codec.phase)) =
      some (none, { acc := 0, nbits := 0 }, .dHdr) := by decide +kernel
/-- R221: an empty source is `TRUNCATED`, not `BAD_HEADER`. -/
theorem test_d_hdr :
    after .dHdr (decIn .dHdr []) (fun t => t.dec.codec.cause) = some 3 ∧
      after .dHdr (decIn .dHdr [0x11]) (fun t => t.dec.codec.cause) = some 1 := by decide +kernel
/-- V1: `FF 01` at `n = 258` is `END`. -/
theorem test_d_symbol :
    after .dSymbol (decIn .dSymbol [0xFF, 0x01]) (fun t => (t.dec.codec.phase, t.dec.codec.port.sink)) =
      some (.done, []) := by decide +kernel
/-- R228: after `LIT 'A'` the codeword of 258 at `n = 259` is `FF` and a 1 bit. -/
theorem test_d_symbol_kwkwk :
    after .dSymbol (withPrev 0x41 (withDict .dec { Dict.reset with n := 259 } (decIn .dSymbol [0xFF, 0xFD, 0x03])))
        (fun t => (t.dec.codec.port.sink, readMem t.dec.codec.dict.pfx 258, readMem t.dec.codec.dict.term 258, t.dec.prev)) =
      some ([0x41, 0x41], some 0x41, some 0x41, some 258) := by decide +kernel
/-- R225: the first data symbol makes no insertion, and `n` steps (R231). -/
theorem test_data :
    after (.data 0x41) (decIn .dSymbol []) (fun t => (t.dec.codec.dict.nextFree, t.dec.codec.dict.n, t.dec.prev)) =
      some (258, 259, some 0x41) := by decide +kernel
/-- R225: a recycled slot is the pending code: `string(prev)` and its first byte, not the slot's old string. -/
theorem test_data_recycling :
    after (.data 258) (withPrev 0x42 (withDict .dec dictFull (decIn .dSymbol [])))
        (fun t => (t.dec.codec.port.sink, readMem t.dec.codec.dict.pfx 258, t.dec.codec.dict.cursor)) =
      some ([0x42, 0x42], some 0x42, 259) := by decide +kernel
/-- R229: 258 = ('A','B'), 259 = (258,'A'): `EXPAND(259)` pushes `41 42 41`, returns `0x41`. -/
theorem test_expand :
    after (.expand 259) (withDict .dec (dictAB 261) State.reset) (fun t => (t.dec.codec.port.sink, t.dec.sp, t.result)) =
      some ([0x41, 0x42, 0x41], 0, .byte 0x41) := by decide +kernel
/-- R229: `EXPAND` of 256 fails with `BAD_CODE` before anything is pushed. -/
theorem test_expand_clear :
    after (.expand 256) State.reset (fun t => (t.dec.codec.port.sink, t.dec.codec.cause)) = some ([], 2) := by
  decide +kernel
/-- R47, U10: a pair that a `CLEAR` left in an unassigned slot is not read. -/
theorem test_expand_unassigned :
    faultOf (.expand 259) (withDict .dec { dictAB 258 with nextFree := 258 } State.reset) =
      some .unspecifiedRead := by decide +kernel
/-- R230: with `prev = 0x41`, the first byte 0x42 makes 258. -/
theorem test_dec_insert :
    after (.decInsert 0x42) (withPrev 0x41 State.reset) (fun t => (t.result, readMem t.dec.codec.dict.term 258)) =
      some (.code 258, some 0x42) := by decide +kernel
theorem test_dec_next :
    after (.decNext 0x41) State.reset (fun t => (t.dec.prev, t.dec.codec.dict.n)) = some (some 0x41, 259) := by
  decide +kernel
/-- R275, R276. -/
theorem test_raise_fail :
    after (.raiseFail .enc .sinkFail) (encIn .eNext []) (fun t => (t.enc.codec.statusReg, t.dec.codec.statusReg)) =
      some (0b100100, 0) := by decide +kernel
/-- R277. -/
theorem test_finish : after (.finish .dec) (decIn .dSymbol []) (fun t => t.dec.codec.statusReg) = some 2 := by
  decide +kernel
/-- R40: the codes of the phases. -/
theorem test_phase_codes :
    Phase.idle.code = 0 ∧ Phase.eFirst.code = 1 ∧ Phase.eNext.code = 2 ∧ Phase.dHdr.code = 3 ∧ Phase.dSymbol.code = 4 ∧
      Phase.done.code = 6 ∧ Phase.failed.code = 7 := by decide
/-- R310: the reset input in the middle of a run; what was pushed stays. -/
theorem test_reset_input :
    (stepped { withMatch 0x41 1 (encIn .eNext [1]) with sched := [.assertReset .enc] }).map
      (fun t => (t.enc.codec.phase, t.enc.wCode, t.enc.codec.port.source)) = some (.idle, none, [1]) := by decide +kernel

/-! ### States that meet the invariants -/

theorem dict_empty_no_string (c : Code) : Dict.reset.isAssignedString c = false := by
  rw [← Bool.not_eq_true, Dict.isAssignedString_iff, show Dict.reset.nextFree.toNat = 258 from rfl]
  omega

theorem dict_empty_inv : Dict.reset.Inv where
  legal := by decide
  max_eq := by decide
  free_lo := by decide
  free_hi := by decide
  full_iff := by decide
  cursor_lo := by decide
  cursor_hi := by decide
  n_lo := by decide
  n_hi := by decide
  pfx_wf := by decide
  term_wf := by decide
  closed := fun c h => absurd (h.symm.trans (dict_empty_no_string c)) (by decide)

theorem dict_empty_forest : Dict.reset.Forest := by
  intro c h
  have h255 : c.toNat ≤ 255 := by
    rw [Dict.denotes_iff, show Dict.reset.nextFree.toNat = 258 from rfl] at h
    omega
  show (Dict.reset.stringIn 0 c).isSome = true
  simp [Dict.stringIn, h255]

theorem read_range {w : Nat} (f : Nat → BitVec w) (x : Nat) :
    ∀ n a, a ≤ x → x < a + n → readMem ((List.range' a n).map fun i => (i, f i)) x = some (f x)
  | 0, a, h, h' => by omega
  | n + 1, a, h, h' => by
    simp only [List.range'_succ, List.map_cons, readMem]
    split
    · rename_i he; rw [he]
    · exact read_range f x n (a + 1) (by omega) (by omega)

theorem range_wf {w : Nat} (f : Nat → BitVec w) (a n : Nat) : Mem.wf ((List.range' a n).map fun i => (i, f i)) :=
  List.Pairwise.map _ (fun _ _ h => h) List.pairwise_lt_range'

theorem dict_full_code (c : Code) (h : dictFull.isAssignedString c = true) : 258 ≤ c.toNat ∧ c.toNat < 512 := by
  rwa [Dict.isAssignedString_iff, show dictFull.nextFree.toNat = 512 from rfl] at h

/-- A full dictionary (R25, `n = MAX`) meets the invariant. -/
theorem dict_full_inv : dictFull.Inv where
  legal := by decide
  max_eq := by decide
  free_lo := by decide
  free_hi := by decide
  full_iff := by decide
  cursor_lo := by decide
  cursor_hi := by decide
  n_lo := by decide
  n_hi := by decide
  pfx_wf := range_wf (fun _ => 0x41) 258 254
  term_wf := range_wf (fun i => BitVec.ofNat 8 (i - 258)) 258 254
  closed := fun c h =>
    have hc := dict_full_code c h
    ⟨_, _, read_range (fun _ => 0x41) c.toNat 254 258 hc.1 hc.2,
      read_range (fun i => BitVec.ofNat 8 (i - 258)) c.toNat 254 258 hc.1 hc.2, by decide⟩

theorem dict_full_forest : dictFull.Forest := by
  intro c h
  show (dictFull.stringIn (253 + 1) c).isSome = true
  rw [Dict.stringIn]
  split
  · rfl
  · rename_i h255
    have hc : 258 ≤ c.toNat ∧ c.toNat < 512 := by
      have := h
      rw [Dict.denotes_iff, show dictFull.nextFree.toNat = 512 from rfl] at this
      omega
    have hp : readMem dictFull.pfx c.toNat = some 0x41 := read_range (fun _ => 0x41) c.toNat 254 258 hc.1 hc.2
    have ht : readMem dictFull.term c.toNat = some (BitVec.ofNat 8 (c.toNat - 258)) :=
      read_range (fun i => BitVec.ofNat 8 (i - 258)) c.toNat 254 258 hc.1 hc.2
    have h41 : dictFull.stringIn 253 0x41 = some [0x41] := rfl
    simp only [hp, ht, h41, Option.map_some, Option.isSome_some]

/-- A decoder that has read its header, whatever its source. -/
theorem decoder_inv (source : List Byte) : (decIn .dSymbol source).dec.Inv where
  dict := dict_empty_inv
  stk_wf := by simp [decIn, State.setCodec, State.reset, Decoder.reset, Mem.wf]
  phase := by simp [decIn, State.setCodec]
  unpacker := fun _ => rfl
  stack := fun _ => rfl
  header := by simp [decIn, State.setCodec]
  symbol := fun _ => ⟨rfl, rfl⟩

/-- A decoder with a full dictionary, a literal its last code. -/
theorem decoder_full_inv (source : List Byte) :
    (withPrev 0x42 (withDict .dec dictFull (decIn .dSymbol source))).dec.Inv where
  dict := dict_full_inv
  stk_wf := by simp [decIn, withPrev, withDict, State.setCodec, State.reset, Decoder.reset, Mem.wf]
  phase := by simp [decIn, withPrev, withDict, State.setCodec, State.codec, Codec.setDict]
  unpacker := fun _ => rfl
  stack := fun _ => rfl
  header := by simp [decIn, withPrev, withDict, State.setCodec, State.codec, Codec.setDict]
  symbol := fun _ =>
    show dictFull.denotes 0x42 = true ∧ dictFull.n.toNat = min (dictFull.nextFree.toNat + 1) dictFull.max.toNat by decide

/-- An encoder whose first byte was 0x41, whatever is left of its source. -/
theorem encoder_inv (source : List Byte) : (withMatch 0x41 1 (encIn .eNext source)).enc.Inv where
  dict := dict_empty_inv
  index_wf := by simp [withMatch, encIn, State.setCodec, State.reset, Encoder.reset, Encoder.setMatch, Mem.wf]
  index_exact := fun p b c => by
    have hn := dict_empty_no_string c
    constructor
    · exact fun h => absurd (show (none : Option Code) = some c from h) (by simp)
    · intro h; exact absurd (h.1.symm.trans hn) (by decide)
  phase := by simp [withMatch, encIn, State.setCodec, Encoder.setMatch]
  packer := fun _ => rfl
  first := by simp [withMatch, encIn, State.setCodec, Encoder.setMatch]
  matching := fun _ => ⟨⟨0x41, rfl, show Dict.reset.denotes 0x41 = true by decide⟩, rfl⟩

/-- An encoder after reset. -/
theorem encoder_idle_inv (port : Port) (policy : FlushPolicy) : (Encoder.reset port policy).Inv where
  dict := dict_empty_inv
  index_wf := by simp [Encoder.reset, Mem.wf]
  index_exact := fun p b c => by
    have hn := dict_empty_no_string c
    constructor
    · exact fun h => absurd (show (none : Option Code) = some c from h) (by simp)
    · intro h; exact absurd (h.1.symm.trans hn) (by decide)
  phase := by simp [Encoder.reset, Codec.reset]
  packer := by simp [Encoder.reset, Codec.reset, Codec.busy, Phase.busy]
  first := by simp [Encoder.reset, Codec.reset]
  matching := by simp [Encoder.reset, Codec.reset]

/-- A block in the middle of an encoding and a decoding, with one more encoder. -/
def midRun : State :=
  { withMatch 0x41 1 (encIn .eNext [0x42]) with
    dec := (decIn .dSymbol [0xFF, 0x01]).dec
    encRest := [Encoder.reset (Port.reset 2) (.other 0)] }

theorem mid_run_inv (sched : List Event) : State.Inv { midRun with sched := sched } where
  enc := encoder_inv [0x42]
  dec := decoder_inv [0xFF, 0x01]
  encRest := fun e h => by
    simp [midRun] at h
    subst h
    exact encoder_idle_inv _ _
  decRest := fun d h => by simp [midRun, withMatch, encIn, State.setCodec, State.reset] at h

/-! ### Witnesses: every statement's hypotheses are met, at the ends of their ranges -/

/-- A port whose sink may refuse, with its next answers. -/
def mayRefuse (answers : List SinkAnswer) : Port := { Port.reset 0 with status := .mayRefuse, answers := answers }

/-- The block with a port on a side. -/
def withPort (side : Side) (p : Port) (s : State) : State := s.setCodec side { s.codec side with port := p }

theorem witness_ResetInputAtAnyTime :
    ({ midRun with sched := [.assertReset .enc, .run .dec] } : State).sched = .assertReset .enc :: [.run .dec] ∧
      ({ midRun with sched := [.assertReset .dec] } : State).sched = .assertReset .dec :: [] := by decide

theorem witness_StatusRegisterFields :
    (∃ rest, ({ State.reset with sched := [.readStatus .dec] } : State).sched = .readStatus .dec :: rest) ∧
    (∃ t, step { State.reset with sched := [.readStatus .dec] } = .next t ∧
      (({ State.reset with sched := [.readStatus .dec] } : State).codec .dec).busy = false ∧
      (∀ ev, ({ State.reset with sched := [.readStatus .dec] } : State).sched.head? = some ev →
        ev ≠ .assertReset .dec ∧ (∀ b, ev ≠ .writeCmd .dec b) ∧ (∀ k, ev ≠ .focus .dec k))) :=
  ⟨⟨_, rfl⟩, _, rfl, rfl, by simp⟩

theorem witness_EncoderStarts :
    (isLegalMaxbits (9 : BitVec 5).toNat = true ∧ isLegalMaxbits (16 : BitVec 5).toNat = true ∧
      (∃ port, State.reset.enc.codec.port.push ((16 : BitVec 5).setWidth 8) = (true, port)) ∧
      State.reset.enc.codec.busy = false) ∧
    ((∃ port, (withPort .enc (mayRefuse [.refuse]) State.reset).enc.codec.port.push ((9 : BitVec 5).setWidth 8) =
      (false, port)) ∧ (withPort .enc (mayRefuse [.refuse]) State.reset).enc.codec.busy = false) ∧
    isLegalMaxbits (8 : BitVec 5).toNat = false ∧ isLegalMaxbits (17 : BitVec 5).toNat = false :=
  ⟨⟨by decide, by decide, ⟨_, rfl⟩, rfl⟩, ⟨⟨_, rfl⟩, rfl⟩, by decide, by decide⟩

theorem witness_DecompressStartsDecoder : State.reset.dec.codec.busy = false ∧ (decIn .failed []).dec.codec.busy = false := by
  decide

theorem witness_CommandWriteAcceptedWhenNotBusy :
    (midRun.codec .enc).busy = true ∧ (0x01 : Byte).getLsbD 0 = decide (Side.enc = .enc) ∧
      (State.reset.codec .enc).busy = false ∧ (0x12 : Byte).getLsbD 0 = decide (Side.enc = .dec) ∧
      (0x12 : Byte).getLsbD 0 = decide (Side.dec = .enc) ∧ (0x01 : Byte).getLsbD 0 = decide (Side.dec = .dec) ∧
      ({ State.reset with sched := [.writeCmd .enc 0x12] } : State).sched = .writeCmd .enc 0x12 :: [] := by decide

theorem witness_SourcePullTakesNextByte :
    ((decIn .dSymbol [7]).codec .dec).port.source = 7 :: [] ∧ ((decIn .dSymbol []).codec .dec).port.source = [] := by
  decide

theorem witness_SinkPushDeliversOrFails :
    (State.reset.codec .enc).port.status = .neverRefuses ∧
      ((withPort .enc (mayRefuse []) State.reset).codec .enc).port.answers = [] ∧
      ((withPort .enc (mayRefuse []) State.reset).codec .enc).port.status = .mayRefuse ∧
      ((withPort .dec (mayRefuse [.ok]) State.reset).codec .dec).port.answers = .ok :: [] ∧
      ((withPort .dec (mayRefuse [.refuse]) State.reset).codec .dec).port.answers = .refuse :: [] := by decide

theorem witness_PutBitsAppendsField :
    (Instr.putBits 1 1).wf = true ∧ (Instr.putBits 0xFFFF 16).wf = true ∧
      (withBits .enc 0x7F 7 State.reset).enc.codec.neverRefused = true ∧
      (withBits .enc 0x7F 7 State.reset).enc.codec.buf.settled = true := by decide

theorem witness_FlushBitsPushesLastByte :
    State.reset.enc.codec.buf.nbits = 0 ∧ (withBits .enc 0x7F 7 State.reset).enc.codec.buf.nbits ≠ 0 ∧
      (∃ port, (withBits .enc 0x7F 7 State.reset).enc.codec.port.push 0x7F = (true, port)) ∧
      (∃ port, (withBits .enc 1 1 (withPort .enc (mayRefuse [.refuse]) State.reset)).enc.codec.port.push 1 =
        (false, port)) :=
  ⟨by decide, by decide, ⟨_, rfl⟩, ⟨_, rfl⟩⟩

theorem witness_GetBitsTakesFieldOnDemand :
    (Instr.getBits 1).wf = true ∧ (Instr.getBits 16).wf = true ∧
      (withBits .dec 0x7F 7 (decIn .dSymbol [1, 2])).dec.codec.buf.settled = true ∧
      (16 : BitVec 5).toNat ≤ (withBits .dec 0x7F 7 (decIn .dSymbol [1, 2])).dec.codec.ahead.length ∧
      (withBits .dec 0x7F 7 (decIn .dSymbol [1])).dec.codec.ahead.length < (16 : BitVec 5).toNat := by decide +kernel

theorem witness_AbParamsOfAlphabet : isAlphabet 258 = true ∧ isAlphabet 65536 = true := by decide

theorem witness_AbEncWritesCodeword :
    (Instr.abEnc 257 258).wf = true ∧ (Instr.abEnc 65535 65536).wf = true ∧
      State.reset.enc.codec.neverRefused = true ∧ State.reset.enc.codec.buf.settled = true := by decide

theorem witness_AbDecReadsCodeword :
    isAlphabet 258 = true ∧ (decIn .dSymbol [0xFF, 0x01]).dec.codec.buf.settled = true ∧
      readCodeword 258 (decIn .dSymbol [0xFF, 0x01]).dec.codec.ahead = some (257, [false, false, false, false, false, false, false]) ∧
      readCodeword 258 (decIn .dSymbol [0xFF]).dec.codec.ahead = none := by decide +kernel

theorem witness_CodewordInverse :
    (258 ≤ 258 ∧ 258 ≤ 65536 ∧ 257 < 258) ∧ (258 ≤ 65536 ∧ 65536 ≤ 65536 ∧ 65535 < 65536) := by decide

theorem witness_CodewordComplete :
    readCodeword 258 (bits [1, 1, 1, 1, 1, 1, 1, 1, 1]) = some (257, []) ∧ (9 ≤ 9 ∧ 511 < 2 ^ 9) ∧
      (abParams 258).1 < (bits [1, 1, 1, 1, 1, 1, 1, 1, 1]).length ∧ (abParams 65536).1 < (bits (List.replicate 17 1)).length ∧
      (16 ≤ 16 ∧ 65535 < 2 ^ 16) := by decide +kernel

theorem witness_CodewordFormats :
    isAlphabet State.reset.enc.codec.dict.n = true ∧ State.reset.enc.codec.neverRefused = true ∧
      State.reset.enc.codec.buf.settled = true ∧
      (253 : Code).toNat < (abParams State.reset.enc.codec.dict.n.toNat).2 ∧
      longInRange State.reset.enc.codec.dict.n.toNat 254 = true ∧ longInRange State.reset.enc.codec.dict.n.toNat 255 = true ∧
      (253 : Code).toNat < (abParams State.reset.dec.codec.dict.n.toNat).2 ∧
      longInRange State.reset.dec.codec.dict.n.toNat 255 = true ∧
      shortInRange (State.reset.codec .dec).dict.n.toNat 254 = false ∧
      longInRange (State.reset.codec .enc).dict.n.toNat 253 = false ∧
      longInRange (State.reset.codec .enc).dict.n.toNat 256 = false := by decide +kernel

theorem witness_DictionaryQueries :
    ((withDict .dec dictFull State.reset).codec .dec).dict.Inv ∧ dictFull.isAssignedString 258 = true ∧
      dictFull.isAssignedString 511 = true ∧ 258 ≤ (258 : Code).toNat ∧ (511 : Code).toNat < dictFull.max.toNat :=
  ⟨dict_full_inv, by decide, by decide, by decide, by decide⟩

theorem witness_IndexOperations :
    isDataCode 255 = true ∧ isDataCode 258 = true ∧ isStringCode 258 = true ∧
      Mem.wf (State.reset.enc.indexAdd 0x41 0x42 258).index := by decide

theorem witness_VictimIsFirstLeafFromCursor :
    isDataCode 0x41 = true ∧ dictFull.nextFree = dictFull.max ∧ dictFull.max.toNat ≤ 65536 ∧
      258 ≤ dictFull.cursor.toNat ∧ dictFull.cursor.toNat < dictFull.max.toNat ∧
      dictChain.victim 261 = none ∧ dictFull.victim 258 = some 259 := by decide +kernel

theorem witness_PendingIsNextInsertionSlot :
    isDataCode 0x41 = true ∧ ∃ t, exec (.dictInsertGrowing .enc 0x41 0x42) State.reset = .next t := ⟨by decide, _, rfl⟩

theorem witness_InsertGrowingTakesFreeHead :
    isDataCode 255 = true ∧ State.reset.enc.codec.dict.nextFree.toNat < State.reset.enc.codec.dict.max.toNat ∧
      State.reset.dec.codec.dict.nextFree.toNat < State.reset.dec.codec.dict.max.toNat := by decide

theorem witness_InsertRecyclingOrNothing :
    isDataCode 258 = true ∧ dictFull.max.toNat ≤ dictFull.nextFree.toNat ∧ dictFull.victim 258 = some 259 ∧
      readMem dictFull.pfx 259 = some 0x41 ∧ readMem dictFull.term 259 = some 1 ∧
      dictChain.max.toNat ≤ dictChain.nextFree.toNat ∧ isDataCode 261 = true ∧ dictChain.victim 261 = none := by
  decide +kernel

theorem witness_FirstByteStartsMatch :
    (encIn .eFirst [0x41]).enc.codec.port.source = 0x41 :: [] ∧ (encIn .eFirst []).enc.codec.port.source = [] ∧
      isAlphabet (encIn .eFirst []).enc.codec.dict.n = true ∧ (encIn .eFirst []).enc.codec.neverRefused = true ∧
      (encIn .eFirst []).enc.codec.buf.settled = true := by decide

/-- An encoder that knows the pair (0x41, 0x42) and has matched 0x41. -/
def knowsAB (source : List Byte) : State :=
  let s := withMatch 0x41 1 (encIn .eNext source)
  { s with enc := s.enc.insertGrowing 0x41 0x42 }

theorem witness_NextByteExtendsMatch :
    isStringCode 258 = true ∧ (knowsAB [0x42]).enc.wCode = some 0x41 ∧
      (knowsAB [0x42]).enc.codec.port.source = 0x42 :: [] ∧ (knowsAB [0x42]).enc.lookup 0x41 0x42 = some 258 := by
  decide +kernel

theorem witness_EndOfInputFinishesStream :
    (withMatch 0x41 1 (encIn .eNext [])).enc.wCode = some 0x41 ∧
      (withMatch 0x41 1 (encIn .eNext [])).enc.codec.port.source = [] ∧
      (withMatch 0x41 1 (encIn .eNext [])).enc.codec.dict.Inv ∧
      (0x41 : Code).toNat < (withMatch 0x41 1 (encIn .eNext [])).enc.codec.dict.n.toNat ∧
      (withMatch 0x41 1 (encIn .eNext [])).enc.codec.neverRefused = true ∧
      (withMatch 0x41 1 (encIn .eNext [])).enc.codec.buf.settled = true :=
  ⟨rfl, rfl, dict_empty_inv, by decide, rfl, rfl⟩

/-- The flush of a monitor that asks for one, for the second clause's `if`. -/
theorem witness_MissIsItsPartsInOrder :
    ((knowsAB [0x43]).enc.wCode = some 0x41 ∧ (knowsAB [0x43]).enc.codec.port.source = 0x43 :: [] ∧
      (knowsAB [0x43]).enc.lookup 0x41 0x43 = none ∧
      ∃ t, exec (.encMiss 0x43)
        ((knowsAB [0x43]).setCodec .enc
          { (knowsAB [0x43]).enc.codec with port := { (knowsAB [0x43]).enc.codec.port with source := [] } }) = .next t) ∧
    (isDataCode 0x41 = true ∧
      ∃ s1 s2 s3, exec (.emitData 0x41) (knowsAB []) = .next s1 ∧ s1.result = .value 8 ∧
        exec (.dictInsertGrowing .enc 0x41 0x43) s1 = .next s2 ∧
        exec (.monUpdate s2.enc.mlen (BitVec.ofNat 5 8)) s2 = .next s3 ∧ s3.result = .flag false ∧
        s3.result ≠ .failed) :=
  ⟨⟨rfl, rfl, by decide +kernel, _, rfl⟩, by decide, _, _, _, rfl, by decide +kernel, rfl, rfl, by decide +kernel, by decide +kernel⟩

theorem witness_MissIsItsPartsInOrder_flush :
    after (.monUpdate 4096 9) (withDict .enc { dictFull with n := 258 } { State.reset with enc := { State.reset.enc with monOut := 40000 } })
        (fun s3 => (s3.result, after .encFlushDict s3 fun s4 => s4.result)) =
      some (.flag true, some .unit) := by decide +kernel

theorem witness_MissCompletes :
    (withMatch 0x41 1 (encIn .eNext [])).enc.Inv ∧ (withMatch 0x41 1 (encIn .eNext [])).enc.codec.phase = .eNext ∧
      (withMatch 0x41 1 (encIn .eNext [])).enc.wCode = some 0x41 ∧
      (withMatch 0x41 1 (encIn .eNext [])).enc.lookup 0x41 0x42 = none ∧
      (withMatch 0x41 1 (encIn .eNext [])).enc.codec.neverRefused = true :=
  ⟨encoder_inv [], rfl, rfl, rfl, rfl⟩

theorem witness_EmitDataWritesThenSteps :
    isDataCode 511 = true ∧ isAlphabet dictFull.n = true ∧ (511 : Code).toNat < dictFull.n.toNat ∧
      (withDict .enc dictFull State.reset).enc.codec.neverRefused = true ∧
      (withDict .enc dictFull State.reset).enc.codec.buf.settled = true := by decide

theorem witness_MonitorCountsAndAsksForFlush : State.reset.enc.policy = .window 4096 256 := by decide

theorem witness_FlushDictWritesClear :
    isAlphabet (withDict .enc dictFull State.reset).enc.codec.dict.n = true ∧
      (withDict .enc dictFull State.reset).enc.codec.neverRefused = true ∧
      (withDict .enc dictFull State.reset).enc.codec.buf.settled = true := by decide

theorem witness_EncFinishPadsAndEnds :
    (withBits .enc 0x7F 7 State.reset).enc.codec.neverRefused = true ∧
      (withBits .enc 0x7F 7 State.reset).enc.codec.buf.settled = true ∧
      State.reset.enc.codec.buf.settled = true := by decide

theorem witness_EmittedCodeBelowAlphabet :
    ∀ source, (withMatch 0x41 1 (encIn .eNext source)).enc.Inv ∧
      (withMatch 0x41 1 (encIn .eNext source)).enc.codec.phase = .eNext ∧
      (withMatch 0x41 1 (encIn .eNext source)).enc.codec.neverRefused = true ∧
      (withMatch 0x41 1 (encIn .eNext source)).enc.wCode = some 0x41 ∧
      (withMatch 0x41 1 (encIn .eNext source)).enc.codec.port.source = source ∧
      (withMatch 0x41 1 (encIn .eNext source)).enc.lookup 0x41 0x42 = none :=
  fun source => ⟨encoder_inv source, rfl, rfl, rfl, rfl, rfl⟩

theorem witness_HeaderByteIsChecked :
    (9 ≤ (9 : Byte).toNat ∧ (16 : Byte).toNat ≤ 16) ∧ (8 : Byte).toNat < 9 ∧ 16 < (17 : Byte).toNat ∧
      (decIn .dHdr [9]).dec.codec.port.source = 9 :: [] ∧ (decIn .dHdr [16]).dec.codec.port.source = 16 :: [] ∧
      (decIn .dHdr []).dec.codec.port.source = [] := by decide

/-- A decoder with the dictionary of R165 that has read 0x41 last. -/
def decAB : State := withPrev 0x41 (withDict .dec (dictAB 261) (decIn .dSymbol []))

theorem witness_ExpandPushesString :
    decAB.dec.codec.neverRefused = true ∧ decAB.dec.codec.dict.max.toNat ≤ 65536 ∧
      decAB.dec.codec.dict.string 259 = some [0x41, 0x42, 0x41] ∧ decAB.dec.codec.dict.string 255 = some [255] := by
  decide +kernel

theorem witness_ExpandIsGuarded :
    (256 : Code).toNat = 256 ∧ (257 : Code).toNat = 257 ∧ (∃ t, exec (.expand 259) decAB = .next t) ∧
      258 ≤ decAB.dec.codec.dict.max.toNat ∧ decAB.dec.codec.dict.max.toNat ≤ 65536 :=
  ⟨by decide, by decide, answers_of_after (by decide +kernel), by decide, by decide⟩

theorem witness_TokensPushTheirStrings :
    decAB.dec.codec.neverRefused = true ∧
    (isStringCode 260 = true ∧ decAB.dec.prev = some 0x41 ∧ decAB.dec.codec.dict.pending 0x41 = some 260 ∧
      decAB.dec.codec.dict.max.toNat ≤ 65536 ∧ decAB.dec.codec.dict.string 0x41 = some [0x41]) ∧
    (isStringCode 258 = true ∧ (∀ p, decAB.dec.prev = some p → decAB.dec.codec.dict.pending p ≠ some 258) ∧
      decAB.dec.codec.dict.assigned 258 = true ∧ decAB.dec.codec.dict.string 258 = some [0x41, 0x42]) ∧
    (isStringCode 261 = true ∧ (∀ p, decAB.dec.prev = some p → decAB.dec.codec.dict.pending p ≠ some 261) ∧
      decAB.dec.codec.dict.assigned 261 = false) := by
  refine ⟨by decide, by decide +kernel, ⟨by decide, ?_, by decide, by decide +kernel⟩, by decide, ?_, by decide⟩ <;>
    (intro p hp; obtain rfl : 0x41#16 = p := by simpa [decAB, withPrev] using hp) <;> decide

theorem witness_DecoderGrowth :
    State.reset.dec.prev = none ∧ decAB.dec.prev = some 0x41 ∧ isDataCode 0x41 = true ∧ isDataCode 258 = true := by
  decide

theorem witness_DataIsTokenInsertNext :
    isDataCode 258 = true ∧
    (decAB.dec.prev.bind decAB.dec.codec.dict.pending = some 258 → isStringCode 258 = true) ∧
    ∃ s1 s2 s3, exec (decAB.dec.dataTokenOf 258) decAB = .next s1 ∧ s1.result = .byte 0x41 ∧
      exec (.decInsert 0x41) s1 = .next s2 ∧ exec (.decNext 258) s2 = .next s3 :=
  ⟨by decide, by decide, _, _, _, rfl, by decide +kernel, rfl, rfl⟩

theorem witness_DataCompletes :
    ((decIn .dSymbol []).dec.Inv ∧ (decIn .dSymbol []).dec.codec.dict.Forest ∧
      (decIn .dSymbol []).dec.codec.phase = .dSymbol ∧ isDataCode 255 = true ∧
      (255 : Code).toNat < (decIn .dSymbol []).dec.codec.dict.n.toNat ∧
      (decIn .dSymbol []).dec.codec.neverRefused = true) ∧
    ((withPrev 0x42 (withDict .dec dictFull (decIn .dSymbol []))).dec.Inv ∧ dictFull.Forest ∧
      isDataCode 511 = true ∧ (511 : Code).toNat < dictFull.n.toNat) :=
  ⟨⟨decoder_inv [], dict_empty_forest, rfl, by decide, by decide, rfl⟩,
    decoder_full_inv [], dict_full_forest, by decide, by decide⟩

/-- The codewords of 257, 256, 0x41 and none at all, at `n = 258`. -/
theorem witness_SymbolRunsCodewordAhead :
    (∀ source, (decIn .dSymbol source).dec.Inv ∧ (decIn .dSymbol source).dec.codec.dict.Forest ∧
      (decIn .dSymbol source).dec.codec.phase = .dSymbol ∧ (decIn .dSymbol source).dec.codec.neverRefused = true) ∧
    (readCodeword 258 (decIn .dSymbol [0xFF, 1]).dec.codec.ahead).map Prod.fst = some 257 ∧
    (readCodeword 258 (decIn .dSymbol [0xFF, 0]).dec.codec.ahead).map Prod.fst = some 256 ∧
    (readCodeword 258 (decIn .dSymbol [0x41]).dec.codec.ahead).map Prod.fst = some 0x41 ∧
    readCodeword 258 (decIn .dSymbol [0xFF]).dec.codec.ahead = none :=
  ⟨fun source => ⟨decoder_inv source, dict_empty_forest, rfl, rfl⟩, by decide +kernel, by decide +kernel,
    by decide +kernel, by decide +kernel⟩

theorem witness_InstancesShareNothing :
    (∃ t, exec .eNext midRun = .next t) ∧ runsOn .eNext = .enc ∧ (∃ t, exec .dSymbol midRun = .next t) ∧
      runsOn .dSymbol = .dec :=
  ⟨⟨_, rfl⟩, rfl, ⟨_, rfl⟩, rfl⟩

theorem witness_StreamsNeverRewind : ∃ t, exec .eNext midRun = .next t := ⟨_, rfl⟩

theorem witness_NeverRefusingSinkNeverFails :
    ∃ t, exec (.pad 0) (State.reset.setCodec .dec { State.reset.dec.codec with phase := .failed, cause := 4 }) = .next t ∧
      (∀ cause, Instr.pad 0 ≠ .raiseFail .dec cause) ∧ (t.codec .dec).neverRefused = true ∧ (t.codec .dec).cause = 4 :=
  ⟨_, rfl, by simp, by decide, by decide⟩

theorem witness_RefusalEndsTheRun :
    (∃ t, exec (.lit 0x41) (withPort .dec (mayRefuse [.refuse, .ok]) State.reset) = .next t) ∧
      (∃ t, exec (.lit 0x41) (withPort .dec (mayRefuse [.ok]) State.reset) = .next t) := ⟨⟨_, rfl⟩, ⟨_, rfl⟩⟩

theorem witness_StopsAreNamed :
    (refusal (.abs .enc 254) State.reset).isSome = true ∧ (Instr.getBits 17).wf = false ∧ State.reset.enc.wCode = none ∧
    State.reset.dec.codec.dict.assigned 258 = false ∧
    (isStringCode 258 = true ∧ 258 < State.reset.dec.codec.dict.max.toNat ∧
      readMem State.reset.dec.codec.dict.term (258 : Code).toNat = none) ∧
    (((encIn .dHdr []).codec .enc).busy = true ∧ phaseInstr .enc ((encIn .dHdr []).codec .enc).phase = none) ∧
    (midRun.codec .dec).busy = true ∧ midRun.encRest.length ≤ 1 ∧ midRun.decRest.length ≤ 0 := by
  decide +kernel

/-- A block that meets the invariant, for the clause on ill-formed operands. -/
theorem witness_StopsAreNamed_runs : State.Inv { midRun with sched := [] } ∧ (Instr.putBits 256 8).wf = false :=
  ⟨mid_run_inv [], by decide⟩

theorem witness_InstructionsKeepCanonicalMemory : midRun.MemWf ∧ ∃ t, exec .eNext midRun = .next t :=
  ⟨⟨by decide, by decide, by decide, by decide, by decide, by decide⟩, _, rfl⟩

theorem witness_StepKeepsInvariant :
    (∀ sched, State.Inv { midRun with sched := sched }) ∧
      ({ midRun with sched := [] } : State).hostInModel = true ∧
      ({ midRun with sched := [.focus .enc 0] } : State).hostInModel = true ∧
      ({ midRun with sched := [.run .dec, .assertReset .enc] } : State).hostInModel = true :=
  ⟨mid_run_inv, by decide, by decide, by decide⟩

theorem witness_InsertKeepsForest :
    (Dict.reset.Inv ∧ Dict.reset.Forest ∧ Dict.reset.denotes 255 = true) ∧
      (dictFull.Inv ∧ dictFull.Forest ∧ dictFull.denotes 511 = true) :=
  ⟨⟨dict_empty_inv, dict_empty_forest, by decide⟩, dict_full_inv, dict_full_forest, by decide⟩

theorem witness_DecoderNeverFailsWithBadCode :
    (decIn .dSymbol [0xFF]).dec.Inv ∧ (decIn .dSymbol [0xFF]).dec.codec.dict.Forest ∧
      (decIn .dSymbol [0xFF]).dec.codec.phase = .dSymbol ∧ ∃ t, exec .dSymbol (decIn .dSymbol [0xFF]) = .next t :=
  ⟨decoder_inv _, dict_empty_forest, rfl, _, rfl⟩

theorem witness_StepRunsDecodedInstruction :
    ({ State.reset with sched := [.writeCmd .enc (0#2 ++ 9#5 ++ 0#1)] } : State).sched =
        .writeCmd .enc (0#2 ++ 9#5 ++ 0#1) :: [] ∧
      ({ State.reset with sched := [.writeCmd .dec (0#7 ++ 1#1)] } : State).sched = .writeCmd .dec (0#7 ++ 1#1) :: [] ∧
      (encIn .eFirst []).enc.codec.phase = .eFirst ∧ (encIn .eNext []).enc.codec.phase = .eNext ∧
      (decIn .dHdr []).dec.codec.phase = .dHdr ∧ (decIn .dSymbol []).dec.codec.phase = .dSymbol ∧
      (decIn .dSymbol []).enc.codec.busy = false ∧ (decIn .dSymbol []).sched = [] ∧
      State.reset.enc.codec.busy = false ∧ State.reset.dec.codec.busy = false := by decide

theorem witness_StepRunsTokenAhead :
    ({ decIn .dSymbol [0xFF, 1] with sched := [.run .dec] } : State).sched = .run .dec :: [] ∧
      (decIn .dSymbol [0xFF, 1]).dec.Inv ∧ (decIn .dSymbol [0xFF, 1]).dec.codec.phase = .dSymbol ∧
      (readCodeword 258 (decIn .dSymbol [0xFF, 1]).dec.codec.ahead).map Prod.fst = some 257 ∧
      (readCodeword 258 (decIn .dSymbol [0xFF, 0]).dec.codec.ahead).map Prod.fst = some 256 ∧
      (readCodeword 258 (decIn .dSymbol [0x41]).dec.codec.ahead).map Prod.fst = some 0x41 ∧
      ∃ t, exec (.data (BitVec.ofNat 16 0x41)) (decIn .dSymbol []) = .next t :=
  ⟨by decide, decoder_inv _, rfl, by decide +kernel, by decide +kernel, by decide +kernel, _, rfl⟩

theorem witness_StreamDecodesToItsTokens :
    isLegalMaxbits (9 : Byte).toNat = true ∧ isLegalMaxbits (16 : Byte).toNat = true ∧
      writable (2 ^ 9) 258 [.lit 0x41, .str 258, .clear, .lit 0xFF] := by
  refine ⟨by decide, by decide, ?_⟩
  simp [writable, alphaAfter, isStringCode, Config.firstString]

theorem witness_RoundTrip :
    (encIn .idle [0x41, 0x41, 0x41]).enc.codec.busy = false ∧ (encIn .idle [0x41]).dec.codec.busy = false ∧
      isLegalMaxbits (9 : BitVec 5).toNat = true ∧ (encIn .idle [0x41]).enc.codec.neverRefused = true ∧
      (encIn .idle [0x41]).dec.codec.neverRefused = true ∧ (encIn .idle [0x41]).enc.codec.port.sink = [] ∧
      (encIn .idle [0x41]).dec.codec.port.sink = [] ∧ Dict.reset.Inv ∧
      Mem.wf (encIn .idle [0x41]).enc.index ∧ Mem.wf (encIn .idle [0x41]).dec.stk :=
  ⟨by decide, by decide, by decide, rfl, rfl, rfl, rfl, dict_empty_inv, by decide, by decide⟩

end Sys2Proof.Tests
end

section
/-! Answers as triples: what holds of the encoder or decoder after a return, and after a failure, where an operation
does not fault. The statements about rules below are stated in this form and put together with `Meets.bind`. -/

namespace Sys2Proof.Machine

variable {σ τ α β : Type}

/-- The operation does not fault; `P` holds of what it returns and leaves, and `Q` of what it leaves where it fails. -/
def Ans.Meets (P : α → σ → Prop) (Q : σ → Prop) (x : Ans σ α) : Prop :=
  match x with
  | .ok a s => P a s
  | .failed s => Q s
  | .fault _ => False

section
variable {P : α → σ → Prop} {Q : σ → Prop} {x : Ans σ α}

@[simp] theorem Ans.meets_ok {a : α} {s : σ} : (Ans.ok a s).Meets P Q ↔ P a s := Iff.rfl
@[simp] theorem Ans.meets_failed {s : σ} : (Ans.failed s : Ans σ α).Meets P Q ↔ Q s := Iff.rfl
@[simp] theorem Ans.meets_fault {f : Fault} : (Ans.fault f : Ans σ α).Meets P Q ↔ False := Iff.rfl

/-- A sequence: what the first statement returns is what the second starts from. -/
theorem Ans.Meets.bind {R : β → σ → Prop} {f : α → σ → Ans σ β} (hx : x.Meets P Q)
    (hf : ∀ a s, P a s → (f a s).Meets R Q) : (x.bind f).Meets R Q := by
  cases x with
  | ok a s => exact hf a s hx
  | failed s => exact hx
  | fault f => exact hx.elim

theorem Ans.Meets.mono {P' : α → σ → Prop} {Q' : σ → Prop} (hx : x.Meets P Q) (hP : ∀ a s, P a s → P' a s)
    (hQ : ∀ s, Q s → Q' s) : x.Meets P' Q' := by
  cases x with
  | ok a s => exact hP a s hx
  | failed s => exact hQ s hx
  | fault f => exact hx.elim

theorem Ans.Meets.mono_ok {P' : α → σ → Prop} (hx : x.Meets P Q) (hP : ∀ a s, P a s → P' a s) : x.Meets P' Q :=
  hx.mono hP fun _ => id

theorem Ans.Meets.mono_failed {Q' : σ → Prop} (hx : x.Meets P Q) (hQ : ∀ s, Q s → Q' s) : x.Meets P Q' :=
  hx.mono (fun _ _ => id) hQ

/-- A triple and what holds of everything left, together. -/
theorem Ans.Meets.and_all {R : σ → Prop} (hx : x.Meets P Q) (hr : x.All R) :
    x.Meets (fun a s => P a s ∧ R s) (fun s => Q s ∧ R s) := by
  cases x with
  | ok a s => exact ⟨hx, hr⟩
  | failed s => exact ⟨hx, hr⟩
  | fault f => exact hx.elim

/-- An operation on a part, seen from the whole. -/
theorem Ans.Meets.within {P' : α → τ → Prop} {Q' : τ → Prop} {put : σ → τ} (hx : x.Meets P Q)
    (hP : ∀ a s, P a s → P' a (put s)) (hQ : ∀ s, Q s → Q' (put s)) : (x.within put).Meets P' Q' := by
  cases x with
  | ok a s => exact hP a s hx
  | failed s => exact hQ s hx
  | fault f => exact hx.elim

theorem Ans.Meets.runs (hx : x.Meets P Q) : x.runs = true := by
  cases x with
  | ok a s => rfl
  | failed s => rfl
  | fault f => exact hx.elim

/-- The step of the block that such an operation becomes is a next state. -/
theorem Ans.Meets.toStep {I : State → Prop} {put : σ → State} {res : α → Result} (hx : x.Meets P Q)
    (hP : ∀ a s, P a s → I { put s with result := res a }) (hQ : ∀ s, Q s → I { put s with result := .failed }) :
    ∃ t, x.toStep put res = .next t ∧ I t := by
  cases x with
  | ok a s => exact ⟨_, rfl, hP a s hx⟩
  | failed s => exact ⟨_, rfl, hQ s hx⟩
  | fault f => exact hx.elim

end

end Sys2Proof.Machine
end

section
/-! Bits: `bitsOf` cut in two, and the bits of a buffer after a byte came in or a field went out. -/

namespace Sys2Proof

@[simp] theorem length_bitsOf (w v : Nat) : (bitsOf w v).length = w := by
  induction w generalizing v with
  | zero => rfl
  | succ w ih => simp [bitsOf, ih]

/-- The low `a` bits and then the bits above them. -/
theorem bitsOf_add (a b v : Nat) : bitsOf (a + b) v = bitsOf a v ++ bitsOf b (v / 2 ^ a) := by
  induction a generalizing v with
  | zero => simp [bitsOf]
  | succ a ih =>
    rw [Nat.succ_add, bitsOf, bitsOf, ih, Nat.div_div_eq_div_mul, Nat.pow_succ']
    rfl

/-- Only the low bits of the number count. -/
theorem bitsOf_add_mul (a v x : Nat) : bitsOf a (v + 2 ^ a * x) = bitsOf a v := by
  induction a generalizing v with
  | zero => rfl
  | succ a ih =>
    have hdiv : (v + 2 ^ (a + 1) * x) / 2 = v / 2 + 2 ^ a * x := by
      rw [Nat.pow_succ', Nat.mul_assoc, Nat.add_mul_div_left _ _ (by decide)]
    have hmod : (v + 2 ^ (a + 1) * x) % 2 = v % 2 := by rw [Nat.pow_succ', Nat.mul_assoc, Nat.add_mul_mod_self_left]
    rw [bitsOf, bitsOf, hdiv, hmod, ih]

theorem ofBits_bitsOf (w v : Nat) : ofBits (bitsOf w v) = v % 2 ^ w := by
  induction w generalizing v with
  | zero => simp [bitsOf, ofBits, Nat.mod_one]
  | succ w ih =>
    have hbit : (v % 2 == 1).toNat = v % 2 := by rcases Nat.mod_two_eq_zero_or_one v with h | h <;> rw [h] <;> rfl
    rw [bitsOf, ofBits, ih, hbit, Nat.pow_succ', Nat.mod_mul]

theorem ofBits_lt (bs : List Bool) : ofBits bs < 2 ^ bs.length := by
  induction bs with
  | nil => exact Nat.one_pos
  | cons b bs ih =>
    have := Bool.toNat_le b
    rw [ofBits, List.length_cons, Nat.pow_succ']
    omega

theorem take_bitsOf {a w : Nat} (h : a ≤ w) (v : Nat) : (bitsOf w v).take a = bitsOf a v := by
  obtain ⟨b, rfl⟩ := Nat.exists_eq_add_of_le h
  rw [bitsOf_add, List.take_left' (length_bitsOf _ _)]

theorem drop_bitsOf {a w : Nat} (h : a ≤ w) (v : Nat) : (bitsOf w v).drop a = bitsOf (w - a) (v / 2 ^ a) := by
  obtain ⟨b, rfl⟩ := Nat.exists_eq_add_of_le h
  rw [bitsOf_add, List.drop_left' (length_bitsOf _ _), Nat.add_sub_cancel_left]

namespace Machine

/-- No bit is set above those in hand. -/
def BitBuf.clean (u : BitBuf) : Prop := u.acc.toNat < 2 ^ u.nbits.toNat

theorem BitBuf.settled_iff_clean (u : BitBuf) : u.settled = true ↔ u.nbits.toNat ≤ 7 ∧ u.clean := u.settled_iff

@[simp] theorem BitBuf.length_bits (u : BitBuf) : u.bits.length = u.nbits.toNat := length_bitsOf _ _

/-- An empty buffer is settled. -/
theorem BitBuf.settled_empty : ({ acc := 0, nbits := 0 } : BitBuf).settled = true := by decide

section
variable {u : BitBuf} {val wd : Nat}

theorem BitBuf.append_nbits (h : u.nbits.toNat + wd ≤ 32) : (u.append val wd).nbits.toNat = u.nbits.toNat + wd := by
  rw [BitBuf.append, BitVec.toNat_ofNat, Nat.mod_eq_of_lt (by omega)]

/-- A field that fits lands above the bits in hand. -/
theorem BitBuf.append_acc (hu : u.clean) (hv : val < 2 ^ wd) (h : u.nbits.toNat + wd ≤ 32) :
    (u.append val wd).acc.toNat = u.acc.toNat + 2 ^ u.nbits.toNat * val := by
  have hlt : 2 ^ u.nbits.toNat * val < 2 ^ 32 := by
    calc 2 ^ u.nbits.toNat * val < 2 ^ u.nbits.toNat * 2 ^ wd := Nat.mul_lt_mul_of_pos_left hv (Nat.two_pow_pos _)
      _ = 2 ^ (u.nbits.toNat + wd) := (Nat.pow_add ..).symm
      _ ≤ 2 ^ 32 := Nat.pow_le_pow_right (by decide) h
  rw [BitBuf.append, BitVec.toNat_or, BitVec.toNat_ofNat, Nat.shiftLeft_eq, Nat.mul_comm val, Nat.mod_eq_of_lt hlt,
    Nat.or_comm, ← Nat.two_pow_add_eq_or_of_lt hu, Nat.add_comm]

theorem BitBuf.append_clean (hu : u.clean) (hv : val < 2 ^ wd) (h : u.nbits.toNat + wd ≤ 32) :
    (u.append val wd).clean := by
  have hu' : u.acc.toNat < 2 ^ u.nbits.toNat := hu
  rw [BitBuf.clean, append_acc hu hv h, append_nbits h, Nat.pow_add]
  calc u.acc.toNat + 2 ^ u.nbits.toNat * val < 2 ^ u.nbits.toNat * (val + 1) := by rw [Nat.mul_succ]; omega
    _ ≤ 2 ^ u.nbits.toNat * 2 ^ wd := Nat.mul_le_mul_left _ hv

/-- The bits of an appended field come after those in hand (R122, R124). -/
theorem BitBuf.append_bits (hu : u.clean) (hv : val < 2 ^ wd) (h : u.nbits.toNat + wd ≤ 32) :
    (u.append val wd).bits = u.bits ++ bitsOf wd val := by
  have hdiv : (u.acc.toNat + 2 ^ u.nbits.toNat * val) / 2 ^ u.nbits.toNat = val := by
    rw [Nat.add_mul_div_left _ _ (Nat.two_pow_pos _), Nat.div_eq_of_lt hu, Nat.zero_add]
  rw [BitBuf.bits, append_acc hu hv h, append_nbits h, bitsOf_add, bitsOf_add_mul, hdiv]
  rfl

theorem BitBuf.drop_nbits (wd : Nat) (u : BitBuf) : (u.drop wd).nbits.toNat = u.nbits.toNat - wd := by
  rw [BitBuf.drop, BitVec.toNat_ofNat, Nat.mod_eq_of_lt (by omega)]

theorem BitBuf.drop_acc (wd : Nat) (u : BitBuf) : (u.drop wd).acc.toNat = u.acc.toNat / 2 ^ wd := by
  rw [BitBuf.drop, BitVec.toNat_ushiftRight, Nat.shiftRight_eq_div_pow]

theorem BitBuf.drop_clean (hu : u.clean) (h : wd ≤ u.nbits.toNat) : (u.drop wd).clean := by
  rw [BitBuf.clean, drop_nbits, drop_acc]
  refine Nat.div_lt_of_lt_mul ?_
  rw [← Nat.pow_add, Nat.add_sub_cancel' h]
  exact hu

theorem BitBuf.drop_bits (h : wd ≤ u.nbits.toNat) : (u.drop wd).bits = u.bits.drop wd := by
  rw [BitBuf.bits, drop_nbits, drop_acc, BitBuf.bits, drop_bitsOf h]

/-- The field `GETBITS` answers is that of the oldest bits (R124). -/
theorem BitBuf.low_eq_ofBits (h : wd ≤ u.nbits.toNat) : u.low wd = ofBits (u.bits.take wd) := by
  rw [BitBuf.bits, take_bitsOf h, ofBits_bitsOf, BitBuf.low]

end

end Machine

end Sys2Proof
end

section
/-! The packer and the unpacker of a running codec: what a return and a failure leave of it. -/

namespace Sys2Proof.Machine

theorem Codec.busy_of_phase {c : Codec} {ph : Phase} (h : c.phase = ph) : c.busy = ph.busy := congrArg Phase.busy h

/-- At rest the phase is no busy one. -/
theorem Codec.phase_ne_of_not_busy {c : Codec} {ph : Phase} (hb : c.busy = false) (hph : ph.busy = true) :
    c.phase ≠ ph :=
  fun h => Bool.false_ne_true (hb.symm.trans ((Codec.busy_of_phase h).trans hph))

/-- `d` is `c` after an operation that returned: dictionary and phase stay, and the buffer is settled. -/
structure Codec.Returned (c d : Codec) : Prop where
  dict : d.dict = c.dict
  phase : d.phase = c.phase
  settled : d.buf.settled = true

/-- `d` is `c` after an operation that failed: the dictionary stays (R276). -/
structure Codec.Broke (c d : Codec) : Prop where
  dict : d.dict = c.dict
  phase : d.phase = .failed

section
variable {c d e : Codec}

theorem Codec.Returned.refl (h : c.buf.settled = true) : c.Returned c := ⟨rfl, rfl, h⟩

theorem Codec.Returned.trans (h : c.Returned d) (k : d.Returned e) : c.Returned e :=
  ⟨k.dict.trans h.dict, k.phase.trans h.phase, k.settled⟩

theorem Codec.Returned.broke (h : c.Returned d) (k : d.Broke e) : c.Broke e := ⟨k.dict.trans h.dict, k.phase⟩

/-- After a return, an operation on what was left. -/
theorem Codec.Returned.after {α : Type} {x : Ans Codec α} (h : c.Returned d)
    (hx : x.Meets (fun _ => d.Returned) d.Broke) : x.Meets (fun _ => c.Returned) c.Broke :=
  hx.mono (fun _ _ => h.trans) (fun _ => h.broke)

end

/-- One sink transaction: only the port changes, or the run fails. -/
theorem Codec.sinkPush_meets (b : Byte) (c : Codec) :
    (c.sinkPush b).Meets (fun _ d => d = { c with port := (c.port.push b).2 }) c.Broke := by
  rcases c.sinkPush_cases b with h | ⟨h, -⟩ <;> rw [h]
  · rfl
  · exact ⟨rfl, rfl⟩

/-! ### The packer -/

/-- With fuel for the whole bytes in hand, the loop of R122 leaves at most 7 bits. -/
theorem Codec.drain_meets (fuel : Nat) {c : Codec} (hc : c.buf.clean) (hn : c.buf.nbits.toNat < 8 * (fuel + 1)) :
    (Codec.drain fuel c).Meets (fun _ => c.Returned) c.Broke := by
  induction fuel generalizing c with
  | zero => exact .refl ((BitBuf.settled_iff_clean _).2 ⟨by omega, hc⟩)
  | succ fuel ih =>
    rw [Codec.drain]
    split
    · rename_i h8
      refine (c.sinkPush_meets _).bind ?_
      rintro - _ rfl
      refine (ih (BitBuf.drop_clean hc h8) ?_).mono (fun _ d hd => ⟨hd.dict, hd.phase, hd.settled⟩)
        (fun d hd => ⟨hd.dict, hd.phase⟩)
      show (c.buf.drop 8).nbits.toNat < _
      rw [BitBuf.drop_nbits]
      omega
    · exact .refl ((BitBuf.settled_iff_clean _).2 ⟨by omega, hc⟩)

/-- `PUTBITS` of a field that fits its width (R122). -/
theorem Codec.putBits_meets {val wd : Nat} {c : Codec} (hc : c.buf.settled = true) (hv : val < 2 ^ wd) (hw : wd ≤ 16) :
    (c.putBits val wd).Meets (fun _ => c.Returned) c.Broke := by
  obtain ⟨h7, hclean⟩ := (BitBuf.settled_iff_clean _).1 hc
  refine (Codec.drain_meets 8 (BitBuf.append_clean hclean hv (by omega)) ?_).mono
    (fun _ d hd => ⟨hd.dict, hd.phase, hd.settled⟩) (fun d hd => ⟨hd.dict, hd.phase⟩)
  show (c.buf.append val wd).nbits.toNat < _
  rw [BitBuf.append_nbits (by omega)]
  omega

/-- `FLUSHBITS` (R123). -/
theorem Codec.flushBits_meets {c : Codec} (hc : c.buf.settled = true) :
    c.flushBits.Meets (fun _ => c.Returned) c.Broke := by
  unfold Codec.flushBits
  split
  · refine (c.sinkPush_meets _).bind ?_
    rintro - _ rfl
    exact ⟨rfl, rfl, BitBuf.settled_empty⟩
  · exact .refl hc

/-! ### The adjusted-binary code -/

/-- `k` and `t` at an alphabet size: `2 ^ k` is at most `n`, and `t` codewords of the `2 ^ (k + 1)` are not needed
(R140). -/
theorem abParams_spec {n : Nat} (h1 : 258 ≤ n) (h2 : n ≤ 65536) :
    (abParams n).1 ≤ 16 ∧ (abParams n).2 + n = 2 * 2 ^ (abParams n).1 := by
  have hn : n ≠ 0 := by omega
  have hlt : n < 2 ^ (n.log2 + 1) := Nat.lt_log2_self
  refine ⟨Nat.lt_succ_iff.1 ((Nat.log2_lt hn).2 (by omega)), ?_⟩
  rw [abParams, ← Nat.pow_succ']
  exact Nat.sub_add_cancel hlt.le

/-- Writing the codeword of a code below the alphabet size (R141). -/
theorem Codec.writeCode_meets {v n : Nat} {c : Codec} (hc : c.buf.settled = true) (h1 : 258 ≤ n) (h2 : n ≤ 65536)
    (hv : v < n) : (c.writeCode v n).Meets (fun _ => c.Returned) c.Broke := by
  obtain ⟨hk, ht⟩ := abParams_spec h1 h2
  have hpow : 2 ^ (abParams n).1 ≤ n := Nat.log2_self_le (by omega)
  unfold Codec.writeCode
  dsimp only
  split
  · exact (Codec.putBits_meets hc (by omega) hk).bind fun _ d hd => hd
  · have hp : (v + (abParams n).2) >>> 1 < 2 ^ (abParams n).1 := by rw [Nat.shiftRight_eq_div_pow]; omega
    have he : (v + (abParams n).2) &&& 1 < 2 ^ 1 := Nat.and_lt_two_pow _ (by decide)
    refine (Codec.putBits_meets hc hp hk).bind fun _ d hd => ?_
    exact (hd.after (Codec.putBits_meets hd.settled he (by decide))).bind fun _ e he => he

/-- `AB_ENC` at an alphabet size, whatever the code (R141; log entry 13). -/
theorem Codec.abEnc_meets {n : Nat} (v : Nat) {c : Codec} (hc : c.buf.settled = true) (h1 : 258 ≤ n) (h2 : n ≤ 65536) :
    (c.abEnc v n).Meets (fun _ => c.Returned) c.Broke := by
  obtain ⟨x, hx, -, h⟩ := Codec.abEnc_writes h1 h2 v c
  rw [h]
  exact Codec.writeCode_meets hc h1 h2 hx

/-! ### The unpacker -/

/-- `d` is `c` after it took bits off its stream: nothing but the buffer and the source changed. -/
structure Codec.Took (c d : Codec) : Prop where
  frame : d = { c with buf := d.buf, port := { c.port with source := d.port.source } }
  settled : d.buf.settled = true

theorem Codec.Took.returned {c d : Codec} (h : c.Took d) : c.Returned d := by
  obtain ⟨h, hs⟩ := h
  exact ⟨by rw [h], by rw [h], hs⟩

theorem Codec.Took.trans {c d e : Codec} (h : c.Took d) (k : d.Took e) : c.Took e :=
  ⟨by rw [k.frame, h.frame], k.settled⟩

/-- Pulling bytes on demand (R124): the bits ahead stay the same; either `wd` bits are in hand, of which no byte was
pulled in vain, or the source is at its end. -/
theorem Codec.fill_spec {wd : Nat} (hw : wd ≤ 16) (fuel : Nat) {c : Codec} (hc : c.buf.clean)
    (hn : c.buf.nbits.toNat < wd + 8) (hf : wd ≤ c.buf.nbits.toNat + fuel) :
    ∃ done buf source, c.fill wd fuel = (done, { c with buf := buf, port := { c.port with source := source } }) ∧
      buf.clean ∧ buf.bits ++ bytesBits source = c.ahead ∧ buf.nbits.toNat < wd + 8 ∧
      (done = true → wd ≤ buf.nbits.toNat) ∧ (done = false → buf.nbits.toNat < wd ∧ source = []) := by
  induction fuel generalizing c with
  | zero =>
    refine ⟨true, c.buf, c.port.source, ?_, hc, rfl, hn, fun _ => hf, nofun⟩
    rw [Codec.fill, decide_eq_true (by omega)]
  | succ fuel ih =>
    rw [Codec.fill]
    by_cases hlt : c.buf.nbits.toNat < wd
    · rw [if_pos hlt]
      rcases c.srcPull_cases with ⟨hs, h⟩ | ⟨b, bs, hs, h⟩ <;> rw [h]
      · exact ⟨false, c.buf, c.port.source, rfl, hc, rfl, hn, nofun, fun _ => ⟨hlt, hs⟩⟩
      · have hbits : (c.buf.append b.toNat 8).bits = c.buf.bits ++ bitsOf 8 b.toNat :=
          BitBuf.append_bits hc b.isLt (by omega)
        have hnb : (c.buf.append b.toNat 8).nbits.toNat = c.buf.nbits.toNat + 8 := BitBuf.append_nbits (by omega)
        obtain ⟨done, buf, source, hfill, hclean, hahead, hrest⟩ :=
          ih (c := { c with buf := c.buf.append b.toNat 8, port := { c.port with source := bs } })
            (BitBuf.append_clean hc b.isLt (by omega)) (by simp only [hnb]; omega) (by simp only [hnb]; omega)
        refine ⟨done, buf, source, hfill, hclean, hahead.trans ?_, hrest⟩
        simp [Codec.ahead, hbits, hs, bytesBits]
    · rw [if_neg hlt]
      exact ⟨true, c.buf, c.port.source, rfl, hc, rfl, hn, fun _ => by omega, nofun⟩

/-- `GETBITS` of 1 to 16 bits (R124): the next field, or `EOI` where fewer bits are ahead. -/
theorem Codec.getBits_cases {wd : Nat} (hw : wd ≤ 16) {c : Codec} (hc : c.buf.settled = true) :
    (wd ≤ c.ahead.length ∧
        ∃ d, c.getBits wd = (some (ofBits (c.ahead.take wd)), d) ∧ c.Took d ∧ d.ahead = c.ahead.drop wd) ∨
      (c.ahead.length < wd ∧ ∃ buf, c.getBits wd = (none, { c with buf := buf, port := { c.port with source := [] } }) ∧
        buf.bits = c.ahead) := by
  obtain ⟨h7, hclean⟩ := (BitBuf.settled_iff_clean _).1 hc
  obtain ⟨done, buf, source, hfill, hclean, hahead, hnb, hdone, hend⟩ :=
    Codec.fill_spec hw wd hclean (by omega) (by omega)
  rw [Codec.getBits, hfill]
  cases done with
  | true =>
    have hwd := hdone rfl
    have hlen : wd ≤ buf.bits.length := by rw [BitBuf.length_bits]; exact hwd
    refine .inl ⟨?_, _, congrArg (fun v => (some v, _)) ?_, ⟨rfl, ?_⟩, ?_⟩
    · rw [← hahead, List.length_append]; omega
    · rw [← hahead, List.take_append_of_le_length hlen]
      exact BitBuf.low_eq_ofBits hwd
    · refine (BitBuf.settled_iff_clean _).2 ⟨?_, BitBuf.drop_clean hclean hwd⟩
      show (buf.drop wd).nbits.toNat ≤ 7
      rw [BitBuf.drop_nbits]
      omega
    · rw [← hahead, List.drop_append_of_le_length hlen, ← BitBuf.drop_bits hwd]
      rfl
  | false =>
    obtain ⟨hlt, rfl⟩ := hend rfl
    rw [bytesBits, List.append_nil] at hahead
    exact .inr ⟨by rw [← hahead, BitBuf.length_bits]; exact hlt, buf, rfl, hahead⟩

/-- Reading one codeword (R142) is `readCodeword` on the bits ahead; where none is ahead the run fails. -/
theorem Codec.readCode_cases {n : Nat} (h1 : 258 ≤ n) (h2 : n ≤ 65536) {c : Codec} (hc : c.buf.settled = true) :
    (∃ v d, readCodeword n c.ahead = some (v, d.ahead) ∧ c.readCode n = .ok v d ∧ c.Took d) ∨
      (readCodeword n c.ahead = none ∧ ∃ d, c.readCode n = .failed d ∧ c.Broke d) := by
  have hk := (abParams_spec h1 h2).1
  unfold Codec.readCode readCodeword
  dsimp only
  rcases Codec.getBits_cases hk hc with ⟨hlen, d, hd, htook, hahead⟩ | ⟨hlen, buf, hd, -⟩ <;> rw [hd]
  · rw [if_neg (by omega), ← hahead]
    dsimp only
    split
    · exact .inl ⟨_, d, rfl, rfl, htook⟩
    · rcases Codec.getBits_cases (wd := 1) (by decide) htook.settled with
        ⟨hlen', e, he, htook', hahead'⟩ | ⟨hlen', buf, he, -⟩ <;> rw [he]
      · obtain ⟨x, xs, hx⟩ := List.exists_cons_of_length_pos hlen'
        rw [hx] at hahead' ⊢
        refine .inl ⟨_, e, ?_, rfl, htook.trans htook'⟩
        rw [hahead']
        simp [ofBits]
      · rw [List.length_eq_zero_iff.1 (Nat.lt_one_iff.1 hlen')]
        exact .inr ⟨rfl, _, rfl, htook.returned.dict, rfl⟩
  · rw [if_pos hlen]
    exact .inr ⟨rfl, _, rfl, rfl, rfl⟩

/-- `AB_DEC` in a running decoder. -/
theorem Codec.abDec_meets {n : Nat} (h1 : 258 ≤ n) (h2 : n ≤ 65536) {c : Codec} (hc : c.buf.settled = true) :
    (c.abDec n).Meets (fun _ => c.Returned) c.Broke := by
  rw [Codec.abDec_of_alphabet h1 h2]
  rcases Codec.readCode_cases h1 h2 hc with ⟨v, d, -, h, htook⟩ | ⟨-, d, h, hbroke⟩ <;> rw [h]
  · exact htook.returned
  · exact hbroke

/-- A codeword carries a code below the alphabet size (R144). -/
theorem readCodeword_lt {n v : Nat} {bs rest : List Bool} (h1 : 258 ≤ n) (h2 : n ≤ 65536)
    (h : readCodeword n bs = some (v, rest)) : v < n := by
  have ht := (abParams_spec h1 h2).2
  have hpow : 2 ^ (abParams n).1 ≤ n := Nat.log2_self_le (by omega)
  unfold readCodeword at h
  dsimp only at h
  split at h
  · cases h
  · have hp := ofBits_lt (bs.take (abParams n).1)
    rw [List.length_take_of_le (by omega)] at hp
    split at h
    · cases h; omega
    · split at h
      · cases h
      · rename_i e _ _
        have he := Bool.toNat_le e
        cases h
        rw [longValue]
        omega

end Sys2Proof.Machine
end

section
/-! The dictionary's invariant under every change of the dictionary (spec/42_dictionary.md R160 to R176). -/

namespace Sys2Proof.Machine

/-- A byte, as a code, denotes a string in every dictionary (R29). -/
@[simp] theorem Dict.denotes_byte (d : Dict) (b : Byte) : d.denotes (b.setWidth 16) = true := by
  have hb := b.isLt
  rw [Dict.denotes_iff, BitVec.toNat_setWidth, Nat.mod_eq_of_lt (by omega)]
  omega

section
variable {d : Dict} {c p v : Code} {b : Byte} {m : Nat}

theorem Dict.denotes_of_isAssignedString (h : d.isAssignedString c = true) : d.denotes c = true := by
  rw [Dict.isAssignedString_iff] at h
  rw [Dict.denotes_iff]
  omega

/-- Where the free list does not shrink, what denotes a string goes on doing so. -/
theorem Dict.denotes_mono {t : Dict} (h : d.nextFree.toNat ≤ t.nextFree.toNat) (hc : d.denotes c = true) :
    t.denotes c = true := by
  rw [Dict.denotes_iff] at hc ⊢
  omega

/-- Which codes are assigned depends on `next_free` alone. -/
theorem Dict.isAssignedString_congr {t : Dict} (h : t.nextFree = d.nextFree) (c : Code) :
    t.isAssignedString c = d.isAssignedString c := by
  rw [Dict.isAssignedString, Dict.isAssignedString, h]

/-- No string code is assigned in an emptied dictionary. -/
theorem Dict.clear_isAssignedString (d : Dict) (c : Code) : d.clear.isAssignedString c = false := by
  rw [Bool.eq_false_iff, Ne, Dict.isAssignedString_iff]
  rintro ⟨h1, h2⟩
  exact absurd h2 h1.not_gt

/-- A dictionary with a legal `MAX` meets its invariant once it is emptied (R160). -/
theorem Dict.clear_inv (legal : isLegalMaxbits d.maxbits.toNat = true) (max_eq : d.max.toNat = 2 ^ d.maxbits.toNat)
    (pfx_wf : Mem.wf d.pfx) (term_wf : Mem.wf d.term) : d.clear.Inv := by
  have hlo : 2 ^ 9 ≤ 2 ^ d.maxbits.toNat := Nat.pow_le_pow_right (by decide) ((isLegalMaxbits_iff _).1 legal).1
  have hmax : 258 < d.max.toNat := by omega
  exact
    { legal, max_eq, pfx_wf, term_wf
      free_lo := Nat.le_refl 258
      free_hi := hmax.le
      full_iff := (beq_eq_false_iff_ne.2 fun heq => hmax.ne (congrArg BitVec.toNat (show 258 = d.max from heq))).symm
      cursor_lo := Nat.le_refl 258
      cursor_hi := hmax
      n_lo := Nat.le_refl 258
      n_hi := hmax.le
      closed := fun c hc => by rw [Dict.clear_isAssignedString] at hc; cases hc }

/-- The dictionary after reset. -/
theorem Dict.reset_inv : Dict.reset.Inv :=
  Dict.clear_inv (d := Dict.reset) (by decide) (by decide) List.Pairwise.nil List.Pairwise.nil

theorem Dict.Inv.clear (h : d.Inv) : d.clear.Inv := Dict.clear_inv h.legal h.max_eq h.pfx_wf h.term_wf

/-- `maxbits` and `MAX` set to a legal value, then the dictionary emptied (R191, R221). -/
theorem Dict.Inv.configure_clear (h : d.Inv) (hm : isLegalMaxbits m = true) : (d.configure m).clear.Inv := by
  obtain ⟨hlo, hhi⟩ := (isLegalMaxbits_iff m).1 hm
  have hbits : (BitVec.ofNat 5 m).toNat = m := by rw [BitVec.toNat_ofNat, Nat.mod_eq_of_lt (by omega)]
  have hpow : 2 ^ m ≤ 2 ^ 16 := Nat.pow_le_pow_right (by decide) hhi
  refine Dict.clear_inv ?_ ?_ h.pfx_wf h.term_wf
  · rw [Dict.configure_maxbits, hbits]; exact hm
  · rw [Dict.configure_max, Dict.configure_maxbits, hbits, BitVec.toNat_ofNat, Nat.shiftLeft_eq, Nat.one_mul,
      Nat.mod_eq_of_lt (by omega)]

/-- The range of `n` is all that an alphabet's registers need (R140). -/
theorem Dict.Inv.alphabet (h : d.Inv) : 258 ≤ d.n.toNat ∧ d.n.toNat ≤ 65536 :=
  ⟨h.n_lo, h.n_hi.trans h.max_range.2⟩

/-- `ALPHA_STEP` loses no bit of the register `n` (R176). -/
theorem Dict.Inv.alphaStep_n_toNat (h : d.Inv) : d.alphaStep.n.toNat = min (d.n.toNat + 1) d.max.toNat := by
  have := h.max_range
  rw [Dict.alphaStep_n, BitVec.toNat_ofNat, Nat.mod_eq_of_lt (by omega)]

theorem Dict.Inv.alphaStep (h : d.Inv) : d.alphaStep.Inv := by
  have hn := h.alphaStep_n_toNat
  have hlo := h.n_lo
  have hhi := h.n_hi
  exact { h with n_lo := by rw [hn]; omega, n_hi := by rw [hn]; exact Nat.min_le_right _ _ }

/-! ### Insertion -/

/-- The head of the free list is the code `next_free` (R24). -/
theorem Dict.Inv.freeHead_toNat (h : d.Inv) (hf : d.hasFree = true) : d.freeHead.toNat = d.nextFree.toNat := by
  have := h.max_range
  have := (Dict.hasFree_iff d).1 hf
  rw [Dict.freeHead, BitVec.toNat_setWidth, Nat.mod_eq_of_lt (by omega)]

/-- With no free code `next_free` is `MAX` (R24). -/
theorem Dict.Inv.nextFree_eq_max (h : d.Inv) (hf : d.hasFree = false) : d.nextFree.toNat = d.max.toNat := by
  have := h.free_hi
  rw [Bool.eq_false_iff, Ne, Dict.hasFree_iff] at hf
  omega

theorem Dict.Inv.grow_nextFree_toNat (h : d.Inv) (hf : d.hasFree = true) (p : Code) (b : Byte) :
    (d.grow p b).nextFree.toNat = d.nextFree.toNat + 1 := by
  have := h.max_range
  have := (Dict.hasFree_iff d).1 hf
  rw [Dict.grow_nextFree, BitVec.toNat_ofNat, Nat.mod_eq_of_lt (by omega)]

/-- A growing insertion assigns the head of the free list and no other code (R168). -/
theorem Dict.Inv.grow_isAssignedString (h : d.Inv) (hf : d.hasFree = true) (p : Code) (b : Byte) (c : Code) :
    (d.grow p b).isAssignedString c = true ↔ c = d.freeHead ∨ d.isAssignedString c = true := by
  have hlo : 258 ≤ d.nextFree.toNat := h.free_lo
  rw [← BitVec.toNat_inj, h.freeHead_toNat hf, Dict.isAssignedString_iff, Dict.isAssignedString_iff,
    h.grow_nextFree_toNat hf]
  omega

/-- The head of the free list is not assigned yet. -/
theorem Dict.Inv.freeHead_not_assigned (h : d.Inv) (hf : d.hasFree = true) : d.isAssignedString d.freeHead = false := by
  rw [Bool.eq_false_iff, Ne, Dict.isAssignedString_iff, h.freeHead_toNat hf]
  omega

/-- A pair written into a slot, the pair of every other code being there: what `closed` asks of the result. -/
theorem Dict.store_closed {t : Dict} (hpfx : t.pfx = writeMem d.pfx v.toNat p)
    (hterm : t.term = writeMem d.term v.toNat b)
    (hp : t.denotes p = true)
    (hold : ∀ c, c ≠ v → t.isAssignedString c = true →
      ∃ q a, readMem d.pfx c.toNat = some q ∧ readMem d.term c.toNat = some a ∧ t.denotes q = true)
    (c : Code) (hc : t.isAssignedString c = true) :
    ∃ q a, readMem t.pfx c.toNat = some q ∧ readMem t.term c.toNat = some a ∧ t.denotes q = true := by
  rw [hpfx, hterm]
  by_cases hcv : c = v
  · subst hcv
    exact ⟨p, b, readMem_writeMem_same _ _ _, readMem_writeMem_same _ _ _, hp⟩
  · have hne : c.toNat ≠ v.toNat := mt BitVec.eq_of_toNat_eq hcv
    rw [readMem_writeMem_other _ _ hne, readMem_writeMem_other _ _ hne]
    exact hold c hcv hc

/-- The growing insertion keeps the invariant (R168). -/
theorem Dict.Inv.grow (h : d.Inv) (hf : d.hasFree = true) (hp : d.denotes p = true) (b : Byte) : (d.grow p b).Inv := by
  have hnf := h.grow_nextFree_toNat hf p b
  have hlt := (Dict.hasFree_iff d).1 hf
  have hmono : ∀ c, d.denotes c = true → (d.grow p b).denotes c = true := fun c => Dict.denotes_mono (by omega)
  have hfull : d.full = false := by
    rw [h.full_iff, beq_eq_false_iff_ne]
    intro heq
    exact hlt.ne (congrArg BitVec.toNat heq)
  exact
    { h with
      free_lo := h.free_lo.trans (by omega)
      free_hi := by rw [hnf]; exact hlt
      full_iff := by rw [Dict.grow_full, fullAfter, hfull, Bool.false_or]; rfl
      pfx_wf := wf_writeMem h.pfx_wf _ _
      term_wf := wf_writeMem h.term_wf _ _
      closed := Dict.store_closed (Dict.grow_pfx _ _ _) (Dict.grow_term _ _ _) (hmono p hp) fun c hne hc => by
        obtain ⟨q, a, hq, ha, hd⟩ := h.closed c (((h.grow_isAssignedString hf p b c).1 hc).resolve_left hne)
        exact ⟨q, a, hq, ha, hmono q hd⟩ }

/-- The recycling insertion keeps the invariant (R169). -/
theorem Dict.Inv.recycle (h : d.Inv) (hv : d.inScan v = true) (hp : d.denotes p = true) (b : Byte) :
    (d.recycle v p b).Inv := by
  obtain ⟨hlo, hhi⟩ := h.max_range
  obtain ⟨hcur_lo, hcur_hi⟩ := (Dict.inScan_iff _ _).1 (Dict.succ_inScan (by omega) hhi hv)
  exact
    { h with
      cursor_lo := hcur_lo
      cursor_hi := hcur_hi
      pfx_wf := wf_writeMem h.pfx_wf _ _
      term_wf := wf_writeMem h.term_wf _ _
      closed := Dict.store_closed (Dict.recycle_pfx _ _ _ _) (Dict.recycle_term _ _ _ _) hp
        fun c _ hc => h.closed c hc }

/-- With no free code a victim is an assigned string code (R167). -/
theorem Dict.Inv.victim_assigned (h : d.Inv) (hf : d.hasFree = false) (hv : d.victim p = some v) :
    d.isAssignedString v = true := by
  rw [Dict.isAssignedString_iff, h.nextFree_eq_max hf, ← Dict.inScan_iff]
  exact h.victim_inScan hv

theorem Dict.pending_of_hasFree (hf : d.hasFree = true) : d.pending p = some d.freeHead := if_pos hf

theorem Dict.pending_of_not_hasFree (hf : d.hasFree = false) : d.pending p = d.victim p :=
  if_neg (Bool.eq_false_iff.1 hf)

/-- A pending code is a string code (R172). -/
theorem Dict.Inv.pending_isString (h : d.Inv) (hc : d.pending p = some c) : 258 ≤ c.toNat := by
  cases hf : d.hasFree with
  | true =>
    rw [Dict.pending_of_hasFree hf] at hc
    cases hc
    rw [h.freeHead_toNat hf]
    exact h.free_lo
  | false =>
    rw [Dict.pending_of_not_hasFree hf] at hc
    exact ((Dict.inScan_iff _ _).1 (h.victim_inScan hc)).1

/-- What an insertion keeps, takes and assigns (R168 to R172): the invariant; `next_free`; and the pending code denotes
a string afterwards. -/
theorem Dict.Inv.insert (h : d.Inv) (hp : d.denotes p = true) (b : Byte) :
    (d.insert p b).2.Inv ∧ (d.insert p b).2.nextFree.toNat = min (d.nextFree.toNat + 1) d.max.toNat ∧
      (d.insert p b).2.n = d.n ∧ (d.insert p b).2.max = d.max ∧
      ∀ c, d.pending p = some c → (d.insert p b).2.denotes c = true := by
  rcases d.insert_cases p b with ⟨hf, heq⟩ | ⟨hf, v, hv, heq⟩ | ⟨hf, hv, heq⟩ <;> rw [heq]
  · have hlt := (Dict.hasFree_iff d).1 hf
    refine ⟨h.grow hf hp b, by rw [h.grow_nextFree_toNat hf]; omega, rfl, rfl, fun c hc => ?_⟩
    rw [Dict.pending_of_hasFree hf] at hc
    cases hc
    exact Dict.denotes_of_isAssignedString ((h.grow_isAssignedString hf p b _).2 (.inl rfl))
  · have hmax := h.nextFree_eq_max hf
    refine ⟨h.recycle (h.victim_inScan hv) hp b, by rw [Dict.recycle_nextFree]; omega, rfl, rfl, fun c hc => ?_⟩
    rw [Dict.pending_of_not_hasFree hf, hv] at hc
    cases hc
    exact Dict.denotes_of_isAssignedString (d := d) (h.victim_assigned hf hv)
  · have hmax := h.nextFree_eq_max hf
    refine ⟨h, by dsimp only; omega, rfl, rfl, fun c hc => ?_⟩
    rw [Dict.pending_of_not_hasFree hf, hv] at hc
    cases hc

end

end Sys2Proof.Machine
end

section
/-! The encoder's rules keep its invariant (spec/43_encoder.md R191 to R201). -/

namespace Sys2Proof.Machine

/-- What holds of an encoder in every phase, and between the statements of its rules: the part of `Encoder.Inv` that
speaks of the dictionary and the index. -/
structure Encoder.Sound (e : Encoder) : Prop where
  dict : e.codec.dict.Inv
  index_wf : Mem.wf e.index
  index_exact : e.IndexExact

/-- What holds of an encoder that runs, whatever its match: the packer is settled, and `n = next_free` (R35, R174). -/
structure Encoder.Running (e : Encoder) : Prop where
  sound : e.Sound
  settled : e.codec.buf.settled = true
  n_eq : e.codec.dict.n = e.codec.dict.nextFree

section
variable {e f : Encoder} {c w v p q x : Code} {a b : Byte} {d : Codec} {m : Nat}

theorem Encoder.Inv.sound (h : e.Inv) : e.Sound := ⟨h.dict, h.index_wf, h.index_exact⟩

/-- At rest the invariant asks no more. -/
theorem Encoder.Sound.inv_of_not_busy (h : e.Sound) (hb : e.codec.busy = false) : e.Inv := by
  have hne : ∀ ph : Phase, ph.busy = true → e.codec.phase ≠ ph := fun _ => Codec.phase_ne_of_not_busy hb
  exact
    { dict := h.dict
      index_wf := h.index_wf
      index_exact := h.index_exact
      phase := ⟨hne _ rfl, hne _ rfl⟩
      packer := fun hb' => absurd (hb.symm.trans hb') Bool.false_ne_true
      first := fun hp => absurd hp (hne _ rfl)
      matching := fun hp => absurd hp (hne _ rfl) }

theorem Encoder.Inv.running (h : e.Inv) (hb : e.codec.busy = true) : e.Running := by
  refine ⟨h.sound, h.packer hb, ?_⟩
  obtain ⟨hd1, hd2⟩ := h.phase
  cases hp : e.codec.phase with
  | eFirst => obtain ⟨hn, hf, -⟩ := h.first hp; rw [hn, hf]
  | eNext => exact (h.matching hp).2
  | dHdr => exact absurd hp hd1
  | dSymbol => exact absurd hp hd2
  | idle | done | failed => rw [Codec.busy_of_phase hp] at hb; cases hb

/-- A running encoder in `E_NEXT` whose match denotes a string. -/
theorem Encoder.Running.inv_eNext (h : e.Running) (hp : e.codec.phase = .eNext) (hw : e.wCode = some w)
    (hd : e.codec.dict.denotes w = true) : e.Inv where
  dict := h.sound.dict
  index_wf := h.sound.index_wf
  index_exact := h.sound.index_exact
  phase := by rw [hp]; decide
  packer _ := h.settled
  first hp' := by rw [hp] at hp'; cases hp'
  matching _ := ⟨⟨w, hw, hd⟩, h.n_eq⟩

/-! ### The index -/

/-- The index is exact of the pairs and of `next_free` only. -/
theorem Encoder.IndexExact.congr (h : e.IndexExact) (hi : f.index = e.index)
    (hp : f.codec.dict.pfx = e.codec.dict.pfx) (ht : f.codec.dict.term = e.codec.dict.term)
    (hn : f.codec.dict.nextFree = e.codec.dict.nextFree) : f.IndexExact := by
  intro p b c
  rw [Encoder.lookup, hi, hp, ht, Dict.isAssignedString_congr hn]
  exact h p b c

theorem Encoder.Sound.congr (h : e.Sound) (hd : f.codec.dict = e.codec.dict) (hi : f.index = e.index) : f.Sound where
  dict := by rw [hd]; exact h.dict
  index_wf := by rw [hi]; exact h.index_wf
  index_exact := h.index_exact.congr hi (by rw [hd]) (by rw [hd]) (by rw [hd])

theorem Encoder.Running.congr (h : e.Running) (hc : f.codec = e.codec) (hi : f.index = e.index) : f.Running where
  sound := h.sound.congr (by rw [hc]) hi
  settled := by rw [hc]; exact h.settled
  n_eq := by rw [hc]; exact h.n_eq

/-- An empty index is exact of an emptied dictionary. -/
theorem Encoder.indexExact_of_clear {t : Dict} (hi : f.index = []) (hd : f.codec.dict = t.clear) : f.IndexExact := by
  intro p b c
  rw [Encoder.lookup, hi, hd, Dict.clear_isAssignedString]
  simp

/-- The pair `(p, b)` put into slot `v` and into the index: exact, if the index before held neither that pair nor one of
`v`, and of the other codes their pairs (R28, R163). -/
theorem Encoder.indexExact_of_store {idx : Mem 16} {t : Dict} (hi : f.index = writeMem idx (pairKey p b) v)
    (hp : f.codec.dict.pfx = writeMem t.pfx v.toNat p) (ht : f.codec.dict.term = writeMem t.term v.toNat b)
    (hv : f.codec.dict.isAssignedString v = true) (hfree : readMem idx (pairKey p b) = none)
    (hold : ∀ q a c, readMem idx (pairKey q a) = some c ↔
      c ≠ v ∧ f.codec.dict.isAssignedString c = true ∧ readMem t.pfx c.toNat = some q ∧
        readMem t.term c.toNat = some a) :
    f.IndexExact := by
  intro q a c
  rw [Encoder.lookup, hi, hp, ht]
  by_cases hcv : c = v
  · subst hcv
    rw [readMem_writeMem_same, readMem_writeMem_same, readMem_writeMem]
    split
    · rename_i hkey
      obtain ⟨rfl, rfl⟩ := pairKey_inj hkey
      simp [hv]
    · rename_i hkey
      rw [hold]
      have hne : p = q → b ≠ a := by rintro rfl rfl; exact hkey rfl
      simpa using fun _ => hne
  · have hne : c.toNat ≠ v.toNat := mt BitVec.eq_of_toNat_eq hcv
    rw [readMem_writeMem_other _ _ hne, readMem_writeMem_other _ _ hne, readMem_writeMem]
    have hrest := hold q a c
    rw [and_iff_right hcv] at hrest
    rw [← hrest]
    split
    · rename_i hkey
      rw [hkey, hfree]
      simpa using Ne.symm hcv
    · rfl

/-! ### Insertion -/

/-- Where the dictionary meets its invariant, the recycling insertion finds its victim's pair (R169). -/
theorem Encoder.insertRecycling_ok (h : e.codec.dict.Inv) (hv : e.codec.dict.isAssignedString v = true) (p : Code)
    (b : Byte) :
    ∃ q a, readMem e.codec.dict.pfx v.toNat = some q ∧ readMem e.codec.dict.term v.toNat = some a ∧
      e.insertRecycling v p b =
        .ok (some v) (((e.indexRemove q a).setDict (e.codec.dict.recycle v p b)).indexAdd p b v) := by
  obtain ⟨q, a, hq, ha, -⟩ := h.closed v hv
  rcases e.insertRecycling_cases v p b with hok | ⟨-, hnone | hnone⟩
  · exact hok
  · rw [hq] at hnone; cases hnone
  · rw [ha] at hnone; cases hnone

/-- `DICT_INSERT` of an encoder stops nowhere, whatever its operands. -/
theorem Encoder.dictInsert_runs (h : e.codec.dict.Inv) (p : Code) (b : Byte) : (e.dictInsert p b).runs = true := by
  rcases e.dictInsert_cases p b with ⟨-, heq⟩ | ⟨hf, v, hv, heq⟩ | ⟨-, -, heq⟩ <;> rw [heq]
  · rfl
  · obtain ⟨q, a, -, -, heq⟩ := Encoder.insertRecycling_ok h (h.victim_assigned hf hv) p b
    rw [heq]
    rfl
  · rfl

/-- The growing insertion of a pair that is not present (R168). -/
theorem Encoder.Sound.insertGrowing (h : e.Sound) (hf : e.codec.dict.hasFree = true)
    (hp : e.codec.dict.denotes p = true) (hnew : e.lookup p b = none) : (e.insertGrowing p b).Sound where
  dict := h.dict.grow hf hp b
  index_wf := wf_writeMem h.index_wf _ _
  index_exact := by
    have hfresh := h.dict.freeHead_not_assigned hf
    refine Encoder.indexExact_of_store (e.insertGrowing_index p b) (Dict.grow_pfx _ _ _) (Dict.grow_term _ _ _)
      ((h.dict.grow_isAssignedString hf p b _).2 (.inl rfl)) hnew fun q a c => (h.index_exact q a c).trans ?_
    show _ ↔ c ≠ _ ∧ (e.codec.dict.grow p b).isAssignedString c = true ∧ _
    rw [h.dict.grow_isAssignedString hf]
    constructor
    · rintro ⟨hc, hrest⟩
      refine ⟨?_, .inr hc, hrest⟩
      rintro rfl
      exact Bool.false_ne_true (hfresh.symm.trans hc)
    · rintro ⟨hne, hc, hrest⟩
      exact ⟨hc.resolve_left hne, hrest⟩

/-- The recycling insertion of a pair that is not present: the victim's own pair leaves the index first (R169). -/
theorem Encoder.Sound.insertRecycling (h : e.Sound) (hv : e.codec.dict.isAssignedString v = true)
    (hscan : e.codec.dict.inScan v = true) (hp : e.codec.dict.denotes p = true) (hnew : e.lookup p b = none)
    (hq : readMem e.codec.dict.pfx v.toNat = some q) (ha : readMem e.codec.dict.term v.toNat = some a) :
    (((e.indexRemove q a).setDict (e.codec.dict.recycle v p b)).indexAdd p b v).Sound where
  dict := h.dict.recycle hscan hp b
  index_wf := wf_writeMem (wf_eraseMem h.index_wf _) _ _
  index_exact := by
    have hvpair : e.lookup q a = some v := (h.index_exact q a v).2 ⟨hv, hq, ha⟩
    have herase : ∀ k, readMem (eraseMem e.index (pairKey q a)) k =
        if k = pairKey q a then none else readMem e.index k := readMem_eraseMem h.index_wf _
    refine Encoder.indexExact_of_store (idx := eraseMem e.index (pairKey q a)) (t := e.codec.dict) rfl
      (Dict.recycle_pfx _ _ _ _) (Dict.recycle_term _ _ _ _) hv ?_ fun q' a' c => ?_
    · rw [herase]
      split
      · rfl
      · exact hnew
    · refine Iff.trans ?_ (and_congr_right' (h.index_exact q' a' c))
      rw [herase]
      split
      · rename_i hkey
        rw [Encoder.lookup, hkey, ← Encoder.lookup, hvpair]
        simpa using Ne.symm
      · rename_i hkey
        refine ⟨fun hc => ⟨?_, hc⟩, And.right⟩
        rintro rfl
        obtain ⟨-, hq', ha'⟩ := (h.index_exact q' a' c).1 hc
        rw [hq] at hq'
        rw [ha] at ha'
        cases hq'
        cases ha'
        exact hkey rfl

/-- `DICT_INSERT` of a pair that is not present keeps the dictionary and the index sound; of the registers it writes
`next_free`, `full` and `cursor` (R168 to R170). -/
theorem Encoder.Sound.dictInsert_meets (h : e.Sound) (hp : e.codec.dict.denotes p = true) (hnew : e.lookup p b = none) :
    (e.dictInsert p b).Meets
      (fun _ f => f.Sound ∧ f.codec.buf = e.codec.buf ∧ f.codec.dict.n = e.codec.dict.n ∧
        f.codec.dict.nextFree.toNat = min (e.codec.dict.nextFree.toNat + 1) e.codec.dict.max.toNat)
      Encoder.Inv := by
  rcases e.dictInsert_cases p b with ⟨hf, heq⟩ | ⟨hf, v, hv, heq⟩ | ⟨hf, -, heq⟩ <;> rw [heq]
  · have hlt := (Dict.hasFree_iff _).1 hf
    refine ⟨h.insertGrowing hf hp hnew, rfl, rfl, ?_⟩
    exact (h.dict.grow_nextFree_toNat hf p b).trans (by omega)
  · have hmax := h.dict.nextFree_eq_max hf
    have hvas := h.dict.victim_assigned hf hv
    obtain ⟨q, a, hq, ha, heq⟩ := Encoder.insertRecycling_ok h.dict hvas p b
    rw [heq]
    refine ⟨h.insertRecycling hvas (h.dict.victim_inScan hv) hp hnew hq ha, rfl, rfl, ?_⟩
    show e.codec.dict.nextFree.toNat = _
    omega
  · have hmax := h.dict.nextFree_eq_max hf
    exact ⟨h, rfl, rfl, by omega⟩

/-! ### Emission -/

/-- A failure of the common part leaves the invariant. -/
theorem Encoder.Sound.inv_of_broke (h : e.Sound) (hd : e.codec.Broke d) : (e.setCodec d).Inv :=
  (h.congr (f := e.setCodec d) hd.dict rfl).inv_of_not_busy (Codec.busy_of_phase hd.phase)

/-- A return of the common part leaves a running encoder. -/
theorem Encoder.Running.setCodec (h : e.Running) (hd : e.codec.Returned d) : (e.setCodec d).Running where
  sound := h.sound.congr hd.dict rfl
  settled := hd.settled
  n_eq := by rw [Encoder.setCodec_codec, hd.dict]; exact h.n_eq

/-- An operation on the common part of a sound encoder. -/
theorem Encoder.Sound.onCodec_meets {α : Type} {g : Codec → Ans Codec α} (h : e.Sound)
    (hg : (g e.codec).Meets (fun _ => e.codec.Returned) e.codec.Broke) :
    (e.onCodec g).Meets (fun _ f => ∃ d, e.codec.Returned d ∧ f = e.setCodec d) Encoder.Inv :=
  hg.within (fun _ d hd => ⟨d, hd, rfl⟩) fun _ => h.inv_of_broke

/-- `EMIT_CTRL` in a running encoder. -/
theorem Encoder.Running.emitCtrl_meets (h : e.Running) (x : Nat) :
    (e.emitCtrl x).Meets (fun _ f => ∃ d, e.codec.Returned d ∧ f = e.setCodec d) Encoder.Inv := by
  obtain ⟨hlo, hhi⟩ := h.sound.dict.alphabet
  exact h.sound.onCodec_meets (Codec.abEnc_meets x h.settled hlo hhi)

/-- `EMIT_DATA` in a running encoder: the codeword goes out, and `n` is stepped (R196). -/
theorem Encoder.Running.emitData_meets (h : e.Running) (x : Code) :
    (e.emitData x).Meets
      (fun _ f => ∃ d, e.codec.Returned d ∧ f = e.setCodec (d.setDict e.codec.dict.alphaStep)) Encoder.Inv := by
  obtain ⟨hlo, hhi⟩ := h.sound.dict.alphabet
  refine ((Codec.abEnc_meets x.toNat h.settled hlo hhi).bind
    (R := fun _ g => ∃ d, e.codec.Returned d ∧ g = d.setDict e.codec.dict.alphaStep) fun _ d hd => ?_).within ?_
    fun _ => h.sound.inv_of_broke
  · exact ⟨d, hd, by rw [hd.dict]⟩
  · rintro _ g ⟨d, hd, rfl⟩
    exact ⟨d, hd, rfl⟩

/-- An encoder that stepped its alphabet is sound. -/
theorem Encoder.Sound.alphaStep (h : e.Sound) (hd : d.dict = e.codec.dict.alphaStep) : (e.setCodec d).Sound where
  dict := by rw [Encoder.setCodec_codec, hd]; exact h.dict.alphaStep
  index_wf := h.index_wf
  index_exact := h.index_exact.congr rfl (by rw [Encoder.setCodec_codec, hd]; rfl)
    (by rw [Encoder.setCodec_codec, hd]; rfl) (by rw [Encoder.setCodec_codec, hd]; rfl)

/-- `ENC_FINISH` ends the run (R201). -/
theorem Encoder.Sound.encFinish_meets (h : e.Sound) (hs : e.codec.buf.settled = true) :
    e.encFinish.Meets (fun _ => Encoder.Inv) Encoder.Inv := by
  refine (h.onCodec_meets (Codec.flushBits_meets hs)).bind ?_
  rintro _ _ ⟨d, hd, rfl⟩
  exact (h.congr (f := (e.setCodec d).setCodec d.finish) hd.dict rfl).inv_of_not_busy rfl

/-- An emptied dictionary and index, whatever the rest. -/
theorem Encoder.sound_of_clear {t : Dict} (ht : t.clear.Inv) (hi : f.index = []) (hd : f.codec.dict = t.clear) :
    f.Sound where
  dict := by rw [hd]; exact ht
  index_wf := by rw [hi]; exact List.Pairwise.nil
  index_exact := Encoder.indexExact_of_clear hi hd

/-- `ENC_FLUSHDICT` leaves a running encoder (R200). -/
theorem Encoder.Running.flushDict_meets (h : e.Running) : e.flushDict.Meets (fun _ => Encoder.Running) Encoder.Inv := by
  refine (h.emitCtrl_meets _).bind ?_
  rintro _ _ ⟨d, hd, rfl⟩
  have hr := h.setCodec hd
  exact ⟨Encoder.sound_of_clear hr.sound.dict.clear rfl rfl, hd.settled, rfl⟩

theorem Encoder.Running.flushIf_meets (h : e.Running) (flush : Bool) :
    (e.flushIf flush).Meets (fun _ => Encoder.Running) Encoder.Inv := by
  cases flush with
  | false => exact h
  | true => exact h.flushDict_meets

/-! ### The rules -/

/-- Emission and insertion of a pair that is not present step `n` and `next_free` alike (R174, R195). -/
theorem Encoder.Running.insertAfterEmit_meets (h : e.Running) (hw : e.codec.dict.denotes w = true)
    (hnew : e.lookup w b = none) (hd : e.codec.Returned d) :
    ((e.setCodec (d.setDict e.codec.dict.alphaStep)).dictInsert w b).Meets (fun _ => Encoder.Running) Encoder.Inv := by
  have hs : (e.setCodec (d.setDict e.codec.dict.alphaStep)).Sound := h.sound.alphaStep rfl
  refine (hs.dictInsert_meets hw hnew).mono ?_ fun _ => id
  rintro _ f ⟨hf, hbuf, hn, hnf⟩
  refine ⟨hf, by rw [hbuf]; exact hd.settled, BitVec.eq_of_toNat_eq ?_⟩
  rw [hn, hnf]
  show e.codec.dict.alphaStep.n.toNat = min (e.codec.dict.nextFree.toNat + 1) e.codec.dict.max.toNat
  rw [h.sound.dict.alphaStep_n_toNat, h.n_eq]

/-- `ENC_MISS` in a running encoder whose match denotes a string and is not extended by the byte: the byte is the new
match (R195). -/
theorem Encoder.Running.miss_meets (h : e.Running) (hc : e.wCode = some w) (hw : e.codec.dict.denotes w = true)
    (hnew : e.lookup w b = none) :
    (e.miss b).Meets (fun _ f => f.Running ∧ f.wCode = some (b.setWidth 16)) Encoder.Inv := by
  rw [Encoder.miss, hc]
  refine (h.emitData_meets w).bind ?_
  rintro wd _ ⟨d, hd, rfl⟩
  refine (h.insertAfterEmit_meets hw hnew hd).bind fun _ f hf => ?_
  obtain ⟨flush, i, o, k, hmon, -⟩ := f.monUpdate_cases f.mlen.toNat wd
  rw [hmon]
  have hr : ({ f with monIn := i, monOut := o, monOther := k } : Encoder).Running := hf.congr rfl rfl
  exact (hr.flushIf_meets flush).bind fun _ g hg => ⟨hg.congr rfl rfl, rfl⟩

/-- A byte pulled leaves a running encoder. -/
theorem Encoder.Running.pulled (h : e.Running) (bs : List Byte) :
    (e.setCodec { e.codec with port := { e.codec.port with source := bs } }).Running :=
  h.setCodec ⟨rfl, rfl, h.settled⟩

/-- `END` and `ENC_FINISH` at the end of the source (R192, R193). -/
theorem Encoder.Running.end_meets (h : e.Running) :
    ((e.emitCtrl Config.endOfStream).bind fun _ f => f.encFinish).Meets (fun _ => Encoder.Inv) Encoder.Inv := by
  refine (h.emitCtrl_meets _).bind ?_
  rintro _ _ ⟨d, hd, rfl⟩
  exact (h.setCodec hd).sound.encFinish_meets hd.settled

/-- `E_FIRST` keeps the invariant (R192). -/
theorem Encoder.Inv.first_meets (h : e.Inv) (hp : e.codec.phase = .eFirst) :
    e.first.Meets (fun _ => Encoder.Inv) Encoder.Inv := by
  have hr := h.running (Codec.busy_of_phase hp)
  unfold Encoder.first
  rcases e.codec.srcPull_cases with ⟨-, heq⟩ | ⟨b, bs, -, heq⟩ <;> rw [heq]
  · exact hr.end_meets
  · exact Encoder.Running.inv_eNext (w := b.setWidth 16)
      ⟨(hr.pulled bs).sound.congr rfl rfl, hr.settled, hr.n_eq⟩ rfl rfl (Dict.denotes_byte _ b)

/-- The last emission of a run: its code, `END`, and the end (R193, R201). -/
theorem Encoder.Running.lastEmit_meets (h : e.Running) (w : Code) :
    ((e.emitData w).bind fun _ f => (f.emitCtrl Config.endOfStream).bind fun _ g => g.encFinish).Meets
      (fun _ => Encoder.Inv) Encoder.Inv := by
  refine (h.emitData_meets w).bind ?_
  rintro _ _ ⟨d, hd, rfl⟩
  have hs : (e.setCodec (d.setDict e.codec.dict.alphaStep)).Sound := h.sound.alphaStep rfl
  obtain ⟨hlo, hhi⟩ := hs.dict.alphabet
  refine (hs.onCodec_meets (Codec.abEnc_meets _ hd.settled hlo hhi)).bind ?_
  rintro _ _ ⟨g, hg, rfl⟩
  exact (hs.congr (f := Encoder.setCodec _ g) hg.dict rfl).encFinish_meets hg.settled

/-- `E_NEXT` keeps the invariant (R193 to R195). -/
theorem Encoder.Inv.next_meets (h : e.Inv) (hp : e.codec.phase = .eNext) :
    e.next.Meets (fun _ => Encoder.Inv) Encoder.Inv := by
  have hr := h.running (Codec.busy_of_phase hp)
  obtain ⟨⟨w, hw, hd⟩, -⟩ := h.matching hp
  unfold Encoder.next
  rcases e.codec.srcPull_cases with ⟨-, heq⟩ | ⟨b, bs, -, heq⟩ <;> rw [hw, heq]
  · exact hr.lastEmit_meets w
  · have hpull := hr.pulled bs
    dsimp only
    split
    · rename_i x hx
      have hxas := ((hpull.sound.index_exact w b x).1 hx).1
      exact Encoder.Running.inv_eNext ⟨hpull.sound.congr rfl rfl, hr.settled, hr.n_eq⟩ rfl rfl
        (Dict.denotes_of_isAssignedString hxas)
    · rename_i hnew
      refine (hpull.miss_meets hw hd hnew).bind ?_
      rintro _ f ⟨hf, hfw⟩
      exact Encoder.Running.inv_eNext ⟨hf.sound.congr rfl rfl, hf.settled, hf.n_eq⟩ rfl hfw (Dict.denotes_byte _ b)

/-- `ENC_START` keeps the invariant, its operand legal or not (R191). -/
theorem Encoder.Sound.start_meets (h : e.Sound) (m : Nat) : (e.start m).Meets (fun _ => Encoder.Inv) Encoder.Inv := by
  unfold Encoder.start
  split
  · rename_i hm
    have hs : (e.initialise m).Sound := Encoder.sound_of_clear (h.dict.configure_clear hm) rfl rfl
    refine ((Codec.sinkPush_meets _ (e.initialise m).codec).within (fun _ d hd => ?_) fun _ => hs.inv_of_broke).bind
      (P := fun _ f => ∃ port, f = (e.initialise m).setCodec { (e.initialise m).codec with port := port }) ?_
    · exact ⟨_, congrArg _ hd⟩
    · rintro - _ ⟨port, rfl⟩
      have hs' := hs.congr rfl rfl
        (f := ((e.initialise m).setCodec { (e.initialise m).codec with port := port }).goto .eFirst)
      exact
        { dict := hs'.dict
          index_wf := hs'.index_wf
          index_exact := hs'.index_exact
          phase := ⟨nofun, nofun⟩
          packer := fun _ => BitBuf.settled_empty
          first := fun _ => ⟨rfl, rfl, rfl⟩
          matching := nofun }
  · exact h.inv_of_broke ⟨rfl, rfl⟩

/-- An encoder after reset. -/
theorem Encoder.reset_inv (port : Port) (policy : FlushPolicy) : (Encoder.reset port policy).Inv :=
  (Encoder.sound_of_clear (t := Dict.reset) Dict.reset_inv rfl rfl).inv_of_not_busy rfl

end

end Sys2Proof.Machine
end

section
/-! The decoder's rules keep its invariant (spec/44_decoder.md R220 to R232). -/

namespace Sys2Proof.Machine

/-- `g` is `d` after it pushed bytes: only its port and its stack changed, and a stack that was empty is so again. -/
structure Decoder.Pushed (d g : Decoder) : Prop where
  dict : g.codec.dict = d.codec.dict
  buf : g.codec.buf = d.codec.buf
  phase : g.codec.phase = d.codec.phase
  prev : g.prev = d.prev
  sp : d.sp = 0 → g.sp = 0

/-- `g` is `d` after a failure: the dictionary stays (R276). -/
structure Decoder.Broke (d g : Decoder) : Prop where
  dict : g.codec.dict = d.codec.dict
  phase : g.codec.phase = .failed

/-- Every stack entry in use was written (R37). -/
def Decoder.Stacked (d : Decoder) : Prop := ∀ k < d.sp.toNat, (readMem d.stk k).isSome = true

section
variable {d g k : Decoder} {c p root : Code} {b fb : Byte} {x : Codec}

theorem Decoder.Pushed.refl (d : Decoder) : d.Pushed d := ⟨rfl, rfl, rfl, rfl, id⟩

theorem Decoder.Pushed.trans (h : d.Pushed g) (j : g.Pushed k) : d.Pushed k :=
  ⟨j.dict.trans h.dict, j.buf.trans h.buf, j.phase.trans h.phase, j.prev.trans h.prev, j.sp ∘ h.sp⟩

theorem Decoder.Pushed.broke (h : d.Pushed g) (j : g.Broke k) : d.Broke k := ⟨j.dict.trans h.dict, j.phase⟩

/-- At rest the invariant asks for the dictionary and the stack's form only. -/
theorem Decoder.inv_of_not_busy (h : d.codec.dict.Inv) (hs : Mem.wf d.stk) (hb : d.codec.busy = false) : d.Inv := by
  have hne : ∀ ph : Phase, ph.busy = true → d.codec.phase ≠ ph := fun _ => Codec.phase_ne_of_not_busy hb
  exact
    { dict := h
      stk_wf := hs
      phase := ⟨hne _ rfl, hne _ rfl⟩
      unpacker := fun hb' => absurd (hb.symm.trans hb') Bool.false_ne_true
      stack := fun hb' => absurd (hb.symm.trans hb') Bool.false_ne_true
      header := fun hp => absurd hp (hne _ rfl)
      symbol := fun hp => absurd hp (hne _ rfl) }

/-- What the invariant asks at a symbol boundary. -/
theorem Decoder.inv_dSymbol (h : d.codec.dict.Inv) (hs : Mem.wf d.stk) (hp : d.codec.phase = .dSymbol)
    (hbuf : d.codec.buf.settled = true) (hsp : d.sp = 0) (hsym : d.SymbolInv) : d.Inv where
  dict := h
  stk_wf := hs
  phase := by rw [hp]; decide
  unpacker _ := hbuf
  stack _ := hsp
  header hp' := by rw [hp] at hp'; cases hp'
  symbol _ := hsym

/-- A failure leaves the invariant. -/
theorem Decoder.Broke.inv (hg : d.Broke g) (h : d.codec.dict.Inv) (hs : Mem.wf g.stk) : g.Inv :=
  Decoder.inv_of_not_busy (by rw [hg.dict]; exact h) hs (Codec.busy_of_phase hg.phase)

/-- The relation of `prev`, `n` and `next_free` is one of these registers only. -/
theorem Decoder.SymbolInv.congr (h : d.SymbolInv) (hd : g.codec.dict = d.codec.dict) (hp : g.prev = d.prev) :
    g.SymbolInv := by
  unfold Decoder.SymbolInv at h ⊢
  rw [hp, hd]
  exact h

/-- After a `CLEAR` and at the first symbol (R174). -/
theorem Decoder.symbolInv_of_clear {t : Dict} (hd : d.codec.dict = t.clear) (hp : d.prev = none) : d.SymbolInv := by
  unfold Decoder.SymbolInv
  rw [hp, hd]
  exact ⟨rfl, rfl⟩

theorem Decoder.SymbolInv.of_none (h : d.SymbolInv) (hp : d.prev = none) :
    d.codec.dict.n = 258 ∧ d.codec.dict.nextFree = 258 := by
  unfold Decoder.SymbolInv at h
  rw [hp] at h
  exact h

theorem Decoder.SymbolInv.of_some (h : d.SymbolInv) (hp : d.prev = some p) :
    d.codec.dict.denotes p = true ∧
      d.codec.dict.n.toNat = min (d.codec.dict.nextFree.toNat + 1) d.codec.dict.max.toNat := by
  unfold Decoder.SymbolInv at h
  rw [hp] at h
  exact h

/-! ### Expansion (R229) -/

/-- One sink transaction of a decoder. -/
theorem Decoder.sinkPush_meets (b : Byte) (d : Decoder) :
    (d.sinkPush b).Meets (fun _ g => ∃ port, g = d.setCodec { d.codec with port := port }) d.Broke :=
  (d.codec.sinkPush_meets b).within (fun _ _ hx => ⟨_, congrArg _ hx⟩) fun _ hx => ⟨hx.dict, hx.phase⟩

/-- A string code that denotes a string is assigned. -/
theorem Dict.isAssignedString_of_denotes {t : Dict} (h : t.denotes c = true) (hc : 258 ≤ c.toNat) :
    t.isAssignedString c = true := by
  rw [Dict.denotes_iff] at h
  rw [Dict.isAssignedString_iff]
  omega

/-- The walk finds the pair of every code it meets, and writes every stack entry it counts; a chain longer than the
dictionary fails. -/
theorem Decoder.walk_meets (fuel : Nat) (h : d.codec.dict.Inv)
    (hc : 258 ≤ c.toNat → d.codec.dict.isAssignedString c = true)
    (hsp : d.sp.toNat ≤ d.codec.dict.max.toNat - 258) (hstk : d.Stacked) :
    (Decoder.walk fuel c d).Meets (fun _ g => g.codec = d.codec ∧ g.prev = d.prev ∧ g.Stacked) d.Broke := by
  induction fuel generalizing c d with
  | zero =>
    rw [Decoder.walk]
    split
    · exact ⟨rfl, rfl⟩
    · exact ⟨rfl, rfl, hstk⟩
  | succ fuel ih =>
    rw [Decoder.walk]
    split
    · rename_i hstr
      split
      · exact ⟨rfl, rfl⟩
      · rename_i hfull
        obtain ⟨hlo, hhi⟩ := h.max_range
        have has := hc hstr
        obtain ⟨p, b, hp, hb, hden⟩ := h.closed c has
        have hpair : d.codec.dict.pair c = some (p, b) :=
          (Dict.pair_eq_some _ _ _ _).2
            ⟨(Dict.assigned_iff _ _).2 (.inr ((Dict.isAssignedString_iff _ _).1 has).2), hp, hb⟩
        have hfull' : d.sp.toNat ≠ d.codec.dict.max.toNat - 258 := hfull
        have hnext : (BitVec.ofNat 17 (d.sp.toNat + 1)).toNat = d.sp.toNat + 1 := by
          rw [BitVec.toNat_ofNat, Nat.mod_eq_of_lt (by omega)]
        rw [hpair]
        refine (ih (d := { d with stk := writeMem d.stk d.sp.toNat b, sp := BitVec.ofNat 17 (d.sp.toNat + 1) }) h
          (Dict.isAssignedString_of_denotes hden) ?_ ?_).mono_failed fun _ hg => ⟨hg.dict, hg.phase⟩
        · dsimp only
          omega
        · intro i hi
          dsimp only at hi ⊢
          rw [readMem_writeMem]
          split
          · rfl
          · exact hstk i (by omega)
    · exact ⟨rfl, rfl, hstk⟩

/-- The stack is pushed to the sink and left empty. -/
theorem Decoder.popAll_meets (i : Nat) (hsp : d.sp = BitVec.ofNat 17 i)
    (hstk : ∀ j < i, (readMem d.stk j).isSome = true) :
    (Decoder.popAll i d).Meets (fun _ g => d.Pushed g ∧ g.sp = 0) d.Broke := by
  induction i generalizing d with
  | zero => exact ⟨⟨rfl, rfl, rfl, rfl, id⟩, hsp⟩
  | succ i ih =>
    obtain ⟨b, hb⟩ := Option.isSome_iff_exists.1 (hstk i (Nat.lt_succ_self i))
    rw [Decoder.popAll, hb]
    refine ((Decoder.sinkPush_meets b { d with sp := BitVec.ofNat 17 i }).mono_failed
      fun _ hg => (⟨hg.dict, hg.phase⟩ : d.Broke _)).bind ?_
    rintro - _ ⟨port, rfl⟩
    refine (ih (d := { d with codec := { d.codec with port := port }, sp := BitVec.ofNat 17 i }) rfl
      fun j hj => hstk j (Nat.lt_succ_of_lt hj)).mono ?_ fun _ hg => ⟨hg.dict, hg.phase⟩
    rintro _ g ⟨hg, hg0⟩
    exact ⟨⟨hg.dict, hg.buf, hg.phase, hg.prev, fun _ => hg0⟩, hg0⟩

/-- `EXPAND` of a code that is assigned, or is no string code: no fault, and the stack is empty again (R229). -/
theorem Decoder.expand_meets (h : d.codec.dict.Inv)
    (hc : 258 ≤ c.toNat → d.codec.dict.isAssignedString c = true) :
    (d.expand c).Meets (fun _ => d.Pushed) d.Broke := by
  unfold Decoder.expand
  have hstart : ({ d with sp := 0 } : Decoder).Stacked := fun i hi => absurd hi (Nat.not_lt_zero i)
  refine ((Decoder.walk_meets (d := { d with sp := 0 }) _ h hc (Nat.zero_le _) hstart).mono_failed
    fun _ hg => (⟨hg.dict, hg.phase⟩ : d.Broke _)).bind ?_
  rintro root g ⟨hcodec, hprev, hstk⟩
  split
  · have hbroke : ∀ k, g.Broke k → d.Broke k := fun k hk => ⟨hk.dict.trans (by rw [hcodec]), hk.phase⟩
    refine ((g.sinkPush_meets _).mono_failed hbroke).bind ?_
    rintro - _ ⟨port, rfl⟩
    have hsp : g.sp = BitVec.ofNat 17 g.sp.toNat := by rw [BitVec.ofNat_toNat, BitVec.setWidth_eq]
    refine ((Decoder.popAll_meets (d := g.setCodec { g.codec with port := port }) _ hsp hstk).mono
      (P' := fun _ => d.Pushed) ?_ ?_).bind fun _ k hk => hk
    · rintro _ k ⟨hk, hk0⟩
      exact ⟨hk.dict.trans (by rw [← hcodec]; rfl), hk.buf.trans (by rw [← hcodec]; rfl),
        hk.phase.trans (by rw [← hcodec]; rfl), hk.prev.trans hprev, fun _ => hk0⟩
    · exact fun k hk => ⟨hk.dict.trans (by rw [← hcodec]; rfl), hk.phase⟩
  · exact ⟨by rw [← hcodec]; rfl, rfl⟩

/-! ### Tokens (R225 to R228) -/

/-- A byte pushed by a decoder that already pushed. -/
theorem Decoder.Pushed.sinkPush_meets {α : Type} (h : d.Pushed g) (b : Byte) (a : α) :
    ((g.sinkPush b).bind fun _ k => .ok a k).Meets (fun _ => d.Pushed) d.Broke := by
  refine ((g.sinkPush_meets b).mono_failed fun _ => h.broke).bind ?_
  rintro - _ ⟨port, rfl⟩
  exact ⟨h.dict, h.buf, h.phase, h.prev, h.sp⟩

/-- `KWKWK`, where `prev` denotes a string (R228). -/
theorem Decoder.kwkwk_meets (h : d.codec.dict.Inv) (hp : ∀ p, d.prev = some p → d.codec.dict.denotes p = true) :
    d.kwkwk.Meets (fun _ => d.Pushed) d.Broke := by
  unfold Decoder.kwkwk
  split
  · rename_i p hprev
    exact (Decoder.expand_meets h (Dict.isAssignedString_of_denotes (hp p hprev))).bind fun fb g hg =>
      hg.sinkPush_meets fb fb
  · exact ⟨rfl, rfl⟩

/-- An ordinary string token: expanded if it is assigned, else the run fails (R227). -/
theorem Decoder.str_meets (h : d.codec.dict.Inv) (c : Code) :
    (d.str c).Meets (fun _ g => d.Pushed g ∧ d.codec.dict.assigned c = true) d.Broke := by
  unfold Decoder.str
  split
  · rename_i has
    refine (Decoder.expand_meets h fun hc => ?_).mono_ok fun _ g hg => ⟨hg, has⟩
    rw [Dict.assigned_iff] at has
    rw [Dict.isAssignedString_iff]
    omega
  · exact ⟨rfl, rfl⟩

/-- The token of a code: only a pending or an assigned code returns (R225). -/
theorem Decoder.dataToken_meets (h : d.codec.dict.Inv)
    (hp : d.isPending c = true → ∀ p, d.prev = some p → d.codec.dict.denotes p = true) :
    (d.dataToken c).Meets (fun _ g => d.Pushed g ∧ (d.isPending c = true ∨ d.codec.dict.assigned c = true))
      d.Broke := by
  unfold Decoder.dataToken
  split
  · rename_i hpend
    exact (Decoder.kwkwk_meets h (hp hpend)).mono_ok fun _ g hg => ⟨hg, .inl hpend⟩
  · split
    · rename_i hlit
      exact ((Decoder.Pushed.refl d).sinkPush_meets _ _).mono_ok
        fun _ g hg => ⟨hg, .inr ((Dict.assigned_iff _ _).2 (.inl (by omega)))⟩
    · exact (Decoder.str_meets h c).mono_ok fun _ g hg => ⟨hg.1, .inr hg.2⟩

/-- A string token, ordinary or pending (R95). -/
theorem Decoder.strToken_meets (h : d.codec.dict.Inv)
    (hp : d.isPending c = true → ∀ p, d.prev = some p → d.codec.dict.denotes p = true) :
    (d.strToken c).Meets (fun _ => d.Pushed) d.Broke := by
  unfold Decoder.strToken
  split
  · rename_i hpend
    exact Decoder.kwkwk_meets h (hp hpend)
  · exact (Decoder.str_meets h c).mono_ok fun _ _ => And.left

/-- No code below 258 is pending (R172). -/
theorem Decoder.isPending_of_lt (h : d.codec.dict.Inv) (hc : c.toNat < 258) : d.isPending c = false := by
  rw [Bool.eq_false_iff, Ne, Decoder.isPending_iff, Option.bind_eq_some_iff]
  rintro ⟨p, -, hpend⟩
  exact absurd (h.pending_isString hpend) hc.not_ge

/-! ### One symbol -/

/-- `DEC_INSERT` after the token of `c` (R230): the dictionary keeps its invariant, `c` denotes a string in it, and the
alphabet step to come restores the relation of `n` and `next_free` (R174). -/
theorem Decoder.decInsert_meets (h : d.codec.dict.Inv) (hsym : d.SymbolInv) (hdata : isDataCode c = true)
    (hc : d.isPending c = true ∨ d.codec.dict.assigned c = true) (fb : Byte) :
    (d.decInsert fb).Meets
      (fun _ g => ∃ t, g = d.setDict t ∧ t.Inv ∧ t.denotes c = true ∧
        t.alphaStep.n.toNat = min (t.nextFree.toNat + 1) t.max.toNat)
      d.Broke := by
  have hden : d.codec.dict.assigned c = true → d.codec.dict.denotes c = true := fun has =>
    Bool.and_eq_true_iff.2 ⟨has, hdata⟩
  cases hp : d.prev with
  | none =>
    obtain ⟨hn, hnf⟩ := hsym.of_none hp
    have hpend : ¬ d.isPending c = true := by rw [Decoder.isPending_iff, hp]; exact nofun
    rw [Decoder.decInsert, hp]
    exact ⟨_, rfl, h, hden (hc.resolve_left hpend), by rw [h.alphaStep_n_toNat, hn, hnf]⟩
  | some p =>
    obtain ⟨hpd, hn⟩ := hsym.of_some hp
    obtain ⟨hinv, hnf, hn', hmax, hpend⟩ := h.insert hpd fb
    have hfree := h.free_hi
    rw [Decoder.decInsert, hp]
    refine ⟨_, rfl, hinv, ?_, ?_⟩
    · rcases hc with hc | hc
      · rw [Decoder.isPending_iff, hp] at hc
        exact hpend c hc
      · exact Dict.denotes_mono (by omega) (hden hc)
    · rw [hinv.alphaStep_n_toNat, hn', hmax, hn, hnf]

/-- `DATA` of a data code at a symbol boundary: `prev` and `n` are again as at a symbol boundary (R225, R231). -/
theorem Decoder.data_meets (h : d.codec.dict.Inv) (hsym : d.SymbolInv) (hdata : isDataCode c = true) :
    (d.data c).Meets
      (fun _ g => g.codec.dict.Inv ∧ g.SymbolInv ∧ g.codec.phase = d.codec.phase ∧ g.codec.buf = d.codec.buf ∧
        (d.sp = 0 → g.sp = 0))
      d.Broke := by
  refine (Decoder.dataToken_meets h fun _ p hp => (hsym.of_some hp).1).bind ?_
  rintro fb g ⟨hg, hc⟩
  have hpend : g.isPending c = d.isPending c := by rw [Decoder.isPending, Decoder.isPending, hg.prev, hg.dict]
  refine ((Decoder.decInsert_meets (by rw [hg.dict]; exact h) (hsym.congr hg.dict hg.prev) hdata
    (by rw [hpend, hg.dict]; exact hc) fb).mono_failed fun _ => hg.broke).bind ?_
  rintro - _ ⟨t, rfl, ht, hden, hn⟩
  exact ⟨ht.alphaStep, ⟨hden, hn⟩, hg.phase, hg.buf, hg.sp⟩

/-- What `D_SYMBOL` does with a code keeps the invariant (R222). -/
theorem Decoder.Inv.symbol_meets (h : d.Inv) (hp : d.codec.phase = .dSymbol) (c : Code) :
    (d.symbol c).Meets (fun _ => Decoder.Inv) Decoder.Inv := by
  have hb : d.codec.busy = true := Codec.busy_of_phase hp
  unfold Decoder.symbol
  split
  · exact Decoder.inv_of_not_busy h.dict h.stk_wf rfl
  · rename_i hend
    split
    · exact Decoder.inv_dSymbol h.dict.clear h.stk_wf rfl (h.unpacker hb) (h.stack hb)
        (Decoder.symbolInv_of_clear rfl rfl)
    · rename_i hclear
      refine (((Decoder.data_meets h.dict (h.symbol hp) ((isDataCode_iff c).2 ⟨hclear, hend⟩)).and_all
        (d.data_steps c)).mono_failed fun g hg => hg.1.inv h.dict (hg.2.stk_wf h.stk_wf)).bind ?_
      rintro - g ⟨⟨hdict, hsym, -, hbuf, hsp⟩, hsteps⟩
      have hsettled : g.codec.buf.settled = true := by rw [hbuf]; exact h.unpacker hb
      exact Decoder.inv_dSymbol hdict (hsteps.stk_wf h.stk_wf) rfl hsettled
        (hsp (h.stack hb)) (hsym.congr rfl rfl)

/-- A return of the common part leaves the invariant of a decoder at a symbol boundary. -/
theorem Decoder.Inv.setCodec (h : d.Inv) (hp : d.codec.phase = .dSymbol) (hx : d.codec.Returned x) :
    (d.setCodec x).Inv := by
  have hb : d.codec.busy = true := Codec.busy_of_phase hp
  exact Decoder.inv_dSymbol (by rw [Decoder.setCodec_codec, hx.dict]; exact h.dict) h.stk_wf (hx.phase.trans hp)
    hx.settled (h.stack hb) ((h.symbol hp).congr hx.dict rfl)

/-- `D_SYMBOL` keeps the invariant (R222). -/
theorem Decoder.Inv.dSymbol_meets (h : d.Inv) (hp : d.codec.phase = .dSymbol) :
    d.dSymbol.Meets (fun _ => Decoder.Inv) Decoder.Inv := by
  obtain ⟨hlo, hhi⟩ := h.dict.alphabet
  have hbuf := h.unpacker (Codec.busy_of_phase hp)
  refine ((Codec.abDec_meets hlo hhi hbuf).within (Q' := Decoder.Inv) (fun _ x hx => ⟨x, hx, rfl⟩) fun x hx => ?_).bind
    (P := fun _ g => ∃ x, d.codec.Returned x ∧ g = d.setCodec x) ?_
  · exact Decoder.Broke.inv (d := d) ⟨hx.dict, hx.phase⟩ h.dict h.stk_wf
  · rintro v _ ⟨x, hx, rfl⟩
    exact (h.setCodec hp hx).symbol_meets (hx.phase.trans hp) _

/-- `D_HDR` keeps the invariant (R221). -/
theorem Decoder.Inv.hdr_meets (h : d.Inv) (hp : d.codec.phase = .dHdr) :
    d.hdr.Meets (fun _ => Decoder.Inv) Decoder.Inv := by
  have hb : d.codec.busy = true := Codec.busy_of_phase hp
  unfold Decoder.hdr
  rcases d.codec.srcPull_cases with ⟨-, heq⟩ | ⟨b, bs, -, heq⟩ <;> rw [heq]
  · exact Decoder.inv_of_not_busy h.dict h.stk_wf rfl
  · dsimp only [Decoder.header]
    split
    · rename_i hm
      refine Decoder.inv_dSymbol (h.dict.configure_clear hm) h.stk_wf rfl (h.unpacker hb) (h.stack hb) ?_
      exact Decoder.symbolInv_of_clear rfl (h.header hp).1
    · exact Decoder.inv_of_not_busy h.dict h.stk_wf rfl

/-- `DEC_START` makes a decoder ready for its header (R220). -/
theorem Decoder.start_inv (h : d.codec.dict.Inv) (hs : Mem.wf d.stk) : d.start.Inv where
  dict := h
  stk_wf := hs
  phase := ⟨nofun, nofun⟩
  unpacker _ := BitBuf.settled_empty
  stack _ := rfl
  header _ := ⟨rfl, rfl⟩
  symbol hp := nomatch hp

/-- A decoder after reset. -/
theorem Decoder.reset_inv (port : Port) : (Decoder.reset port).Inv :=
  Decoder.inv_of_not_busy Dict.reset_inv List.Pairwise.nil rfl

end

end Sys2Proof.Machine
end

section
/-! A step of the block: which instruction it executes, and what an operation on one side leaves of the block. -/

namespace Sys2Proof.Machine

section
variable {s t : State} {i : Instr} {side other : Side} {ph : Phase} {b : Byte} {rest : List Event}

/-! ### The next instruction (R40, R252) -/

theorem State.popped_of_cons {ev : Event} (hs : s.sched = ev :: rest) : s.popped = { s with sched := rest } := by
  rw [State.popped, hs]
  rfl

theorem State.popped_of_nil (hs : s.sched = []) : s.popped = s := by
  rw [State.popped, hs, List.tail_nil, ← hs]

@[simp] theorem State.popped_codec (s : State) (side : Side) : s.popped.codec side = s.codec side := by
  cases side <;> rfl

theorem State.nextInstr_of_run (hs : s.sched = .run side :: rest) :
    s.nextInstr = phaseInstr side (s.codec side).phase := by
  rw [State.nextInstr, hs]

theorem State.nextInstr_of_writeCmd (hs : s.sched = .writeCmd side b :: rest) : s.nextInstr = cmdInstr side b := by
  rw [State.nextInstr, hs]

theorem State.nextInstr_of_nil (hs : s.sched = []) :
    s.nextInstr = s.turn.bind fun side => phaseInstr side (s.codec side).phase := by
  rw [State.nextInstr, hs]

theorem step_of_nextInstr (h : s.nextInstr = some i) : step s = exec i s.popped := by
  rw [step, State.advance, h]

theorem step_of_no_instr (h : s.nextInstr = none) : step s = s.hostStep := by
  rw [step, State.advance, h]

/-- A scheduled step of a side is the rule of its phase (R40). -/
theorem step_run (hs : s.sched = .run side :: rest) (hi : phaseInstr side (s.codec side).phase = some i) :
    step s = exec i { s with sched := rest } := by
  rw [step_of_nextInstr ((State.nextInstr_of_run hs).trans hi), State.popped_of_cons hs]

/-- A write of `CMD` is the command it asks for (R99). -/
theorem step_writeCmd (hs : s.sched = .writeCmd side b :: rest) (hi : cmdInstr side b = some i) :
    step s = exec i { s with sched := rest } := by
  rw [step_of_nextInstr ((State.nextInstr_of_writeCmd hs).trans hi), State.popped_of_cons hs]

/-- With nothing scheduled the side whose turn it is does the rule of its phase (log entry 9). -/
theorem step_turn (hs : s.sched = []) (ht : s.turn = some side) (hi : phaseInstr side (s.codec side).phase = some i) :
    step s = exec i s := by
  have hnext : s.nextInstr = some i := by rw [State.nextInstr_of_nil hs, ht, Option.bind_some, hi]
  rw [step_of_nextInstr hnext, State.popped_of_nil hs]

theorem State.turn_of_enc_busy (h : s.enc.codec.busy = true) : s.turn = some .enc := if_pos h

theorem State.turn_of_dec_busy (he : s.enc.codec.busy = false) (hd : s.dec.codec.busy = true) : s.turn = some .dec := by
  rw [State.turn, he, hd]
  rfl

theorem State.turn_of_rest (he : s.enc.codec.busy = false) (hd : s.dec.codec.busy = false) : s.turn = none := by
  rw [State.turn, he, hd]
  rfl

theorem State.turn_busy (h : s.turn = some side) : (s.codec side).busy = true := by
  unfold State.turn at h
  split at h
  · cases h; assumption
  · split at h
    · cases h; assumption
    · cases h

/-- The four rules of R40, each in its own phase on its own side. -/
theorem phaseInstr_eq_some (h : phaseInstr side ph = some i) :
    (side = .enc ∧ ph = .eFirst ∧ i = .eFirst) ∨ (side = .enc ∧ ph = .eNext ∧ i = .eNext) ∨
      (side = .dec ∧ ph = .dHdr ∧ i = .dHdr) ∨ (side = .dec ∧ ph = .dSymbol ∧ i = .dSymbol) := by
  cases side <;> cases ph <;> cases h <;> simp

/-- A phase that has a rule is busy. -/
theorem phaseInstr_of_not_busy (h : ph.busy = false) : phaseInstr side ph = none := by
  cases hi : phaseInstr side ph with
  | none => rfl
  | some i =>
    rcases phaseInstr_eq_some hi with ⟨-, rfl, -⟩ | ⟨-, rfl, -⟩ | ⟨-, rfl, -⟩ | ⟨-, rfl, -⟩ <;> cases h

/-- A write of `CMD` starts the command of its own side or none (R252). -/
theorem cmdInstr_eq_some (h : cmdInstr side b = some i) :
    (side = .enc ∧ ∃ m ig, i = .compress m ig) ∨ (side = .dec ∧ ∃ ig, i = .decompress ig) := by
  unfold cmdInstr at h
  split at h
  · cases h; exact .inl ⟨rfl, _, _, rfl⟩
  · cases h; exact .inr ⟨rfl, _, rfl⟩
  · cases h

theorem cmdInstr_compress (m : BitVec 5) (ig : BitVec 2) : cmdInstr .enc (ig ++ m ++ 0#1) = some (.compress m ig) := by
  have hdec : decodeCmd (ig ++ m ++ 0#1) = .compress m ig := Laws.Encoding.compress m ig rfl _ rfl
  unfold cmdInstr
  rw [hdec]

theorem cmdInstr_decompress (ig : BitVec 7) : cmdInstr .dec (ig ++ 1#1) = some (.decompress ig) := by
  have hdec : decodeCmd (ig ++ 1#1) = .decompress ig := Laws.Encoding.decompress ig rfl _ rfl
  unfold cmdInstr
  rw [hdec]

/-- The next instruction is the rule of the phase of one of the two instances, or the command written to it. -/
theorem State.nextInstr_cases (h : s.nextInstr = some i) :
    ∃ side, phaseInstr side (s.codec side).phase = some i ∨
      ∃ b, s.sched.head? = some (.writeCmd side b) ∧ cmdInstr side b = some i := by
  cases hs : s.sched with
  | nil =>
    rw [State.nextInstr_of_nil hs, Option.bind_eq_some_iff] at h
    obtain ⟨side, -, hi⟩ := h
    exact ⟨side, .inl hi⟩
  | cons ev rest =>
    cases ev with
    | run side => exact ⟨side, .inl (State.nextInstr_of_run hs ▸ h)⟩
    | writeCmd side b => exact ⟨side, .inr ⟨b, rfl, State.nextInstr_of_writeCmd hs ▸ h⟩⟩
    | readStatus | assertReset | connect | focus => rw [State.nextInstr, hs] at h; cases h

/-! ### An operation on one side -/

section
variable {α : Type} {f : Encoder → Ans Encoder α} {g : Decoder → Ans Decoder α} {res : α → Result}

/-- An operation on the encoder leaves the decoder alone. -/
theorem onEnc_dec (h : onEnc s f res = .next t) : t.dec = s.dec := by
  rcases Ans.toStep_eq_next.1 h with ⟨_, _, -, rfl⟩ | ⟨_, -, rfl⟩ <;> rfl

/-- An operation on the decoder leaves the encoder alone. -/
theorem onDec_enc (h : onDec s g res = .next t) : t.enc = s.enc := by
  rcases Ans.toStep_eq_next.1 h with ⟨_, _, -, rfl⟩ | ⟨_, -, rfl⟩ <;> rfl

/-- An operation that keeps the encoder's invariant keeps that of the block. -/
theorem onEnc_keeps_inv (h : s.Inv) (hf : (f s.enc).Meets (fun _ => Encoder.Inv) Encoder.Inv) (res : α → Result) :
    ∃ t, onEnc s f res = .next t ∧ t.Inv :=
  hf.toStep (fun _ _ he => ⟨he, h.dec, h.encRest, h.decRest⟩) fun _ he => ⟨he, h.dec, h.encRest, h.decRest⟩

/-- An operation that keeps the decoder's invariant keeps that of the block. -/
theorem onDec_keeps_inv (h : s.Inv) (hg : (g s.dec).Meets (fun _ => Decoder.Inv) Decoder.Inv) (res : α → Result) :
    ∃ t, onDec s g res = .next t ∧ t.Inv :=
  hg.toStep (fun _ _ hd => ⟨h.enc, hd, h.encRest, h.decRest⟩) fun _ hd => ⟨h.enc, hd, h.encRest, h.decRest⟩

end

/-! ### The step keeps the invariant -/

theorem State.Inv.popped (h : s.Inv) : s.popped.Inv := ⟨h.enc, h.dec, h.encRest, h.decRest⟩

/-- An encoder or decoder that meets its invariant is in no busy phase of the other kind (R40). -/
theorem State.Inv.not_busy_of_no_rule (h : s.Inv) (hn : phaseInstr side (s.codec side).phase = none) :
    (s.codec side).busy = false := by
  cases side with
  | enc =>
    obtain ⟨hhdr, hsymbol⟩ := h.enc.phase
    cases hp : s.enc.codec.phase with
    | idle | done | failed => exact Codec.busy_of_phase hp
    | eFirst | eNext => rw [State.codec_enc, hp] at hn; cases hn
    | dHdr => exact absurd hp hhdr
    | dSymbol => exact absurd hp hsymbol
  | dec =>
    obtain ⟨hfirst, hnext⟩ := h.dec.phase
    cases hp : s.dec.codec.phase with
    | idle | done | failed => exact Codec.busy_of_phase hp
    | dHdr | dSymbol => rw [State.codec_dec, hp] at hn; cases hn
    | eFirst => exact absurd hp hfirst
    | eNext => exact absurd hp hnext

/-- The rule of a phase keeps the invariant of the block. -/
theorem State.Inv.exec_phaseInstr (h : s.Inv) (hi : phaseInstr side (s.codec side).phase = some i) :
    ∃ t, exec i s = .next t ∧ t.Inv := by
  rcases phaseInstr_eq_some hi with ⟨rfl, hp, rfl⟩ | ⟨rfl, hp, rfl⟩ | ⟨rfl, hp, rfl⟩ | ⟨rfl, hp, rfl⟩
  · exact onEnc_keeps_inv h (h.enc.first_meets hp) _
  · exact onEnc_keeps_inv h (h.enc.next_meets hp) _
  · exact onDec_keeps_inv h (h.dec.hdr_meets hp) _
  · exact onDec_keeps_inv h (h.dec.dSymbol_meets hp) _

/-- A command, obeyed or ignored, keeps the invariant of the block (R250 to R252). -/
theorem State.Inv.exec_cmdInstr (h : s.Inv) (hi : cmdInstr side b = some i) : ∃ t, exec i s = .next t ∧ t.Inv := by
  rcases cmdInstr_eq_some hi with ⟨-, m, ig, rfl⟩ | ⟨-, ig, rfl⟩
  · rw [exec, execCompress]
    split
    · exact ⟨s, rfl, h⟩
    · have hs : (s.enc.setCodec (s.enc.codec.acceptCmd (ig ++ m ++ 0#1))).Sound := h.enc.sound.congr rfl rfl
      exact onEnc_keeps_inv h (hs.start_meets m.toNat) _
  · rw [exec, execDecompress]
    split
    · exact ⟨s, rfl, h⟩
    · exact onDec_keeps_inv (g := fun d => .ok () (d.decompress ig)) h
        (Decoder.start_inv (d := s.dec.setCodec _) h.dec.dict h.dec.stk_wf) _

theorem State.Inv.exec_nextInstr (h : s.Inv) (hi : s.nextInstr = some i) : ∃ t, exec i s.popped = .next t ∧ t.Inv := by
  obtain ⟨side, hi | ⟨b, -, hi⟩⟩ := State.nextInstr_cases hi
  · exact h.popped.exec_phaseInstr (side := side) (by rwa [State.popped_codec])
  · exact h.popped.exec_cmdInstr hi

/-- A side that has no rule to do waits. -/
theorem State.Inv.waitStep (h : s.Inv) (hn : phaseInstr side (s.codec side).phase = none) :
    waitStep side s = .next s := by
  rw [Machine.waitStep, h.not_busy_of_no_rule hn]
  rfl

/-- Wiring a port keeps the invariant: it does not speak of ports. -/
theorem Encoder.Inv.setPort {e : Encoder} (h : e.Inv) (port : Port) :
    Encoder.Inv { e with codec := { e.codec with port := port } } :=
  ⟨h.dict, h.index_wf, h.index_exact, h.phase, h.packer, h.first, h.matching⟩

theorem Decoder.Inv.setPort {d : Decoder} (h : d.Inv) (port : Port) :
    Decoder.Inv { d with codec := { d.codec with port := port } } :=
  ⟨h.dict, h.stk_wf, h.phase, h.unpacker, h.stack, h.header, h.symbol⟩

theorem State.Inv.connectStep (h : s.Inv) (hb : (s.codec side).busy = false) (source : List Byte) (status : SinkStatus)
    (answers : List SinkAnswer) : ∃ t, connectStep side source status answers s = .next t ∧ t.Inv := by
  rw [Machine.connectStep, hb]
  refine ⟨_, rfl, ?_⟩
  cases side with
  | enc => exact ⟨h.enc.setPort _, h.dec, h.encRest, h.decRest⟩
  | dec => exact ⟨h.enc, h.dec.setPort _, h.encRest, h.decRest⟩

theorem State.Inv.resetStep (h : s.Inv) (side : Side) : ∃ t, resetStep side s = .next t ∧ t.Inv := by
  cases side with
  | enc => exact ⟨_, rfl, Encoder.reset_inv _ _, h.dec, h.encRest, h.decRest⟩
  | dec => exact ⟨_, rfl, h.enc, Decoder.reset_inv _, h.encRest, h.decRest⟩

/-- A change of focus exchanges two instances that both meet their invariant (R290). -/
theorem State.Inv.focusStep_enc (h : s.Inv) {k : Nat} (hk : k < s.encRest.length) :
    ∃ t, focusStep .enc k s = .next t ∧ t.Inv := by
  rw [focusStep, List.getElem?_eq_getElem hk]
  refine ⟨_, rfl, h.encRest _ (List.getElem_mem hk), h.dec, fun e he => ?_, h.decRest⟩
  rcases List.mem_or_eq_of_mem_set he with he | rfl
  · exact h.encRest e he
  · exact h.enc

theorem State.Inv.focusStep_dec (h : s.Inv) {k : Nat} (hk : k < s.decRest.length) :
    ∃ t, focusStep .dec k s = .next t ∧ t.Inv := by
  rw [focusStep, List.getElem?_eq_getElem hk]
  refine ⟨_, rfl, h.enc, h.decRest _ (List.getElem_mem hk), h.encRest, fun d hd => ?_⟩
  rcases List.mem_or_eq_of_mem_set hd with hd | rfl
  · exact h.decRest d hd
  · exact h.dec

/-- A host action within the model keeps the invariant. -/
theorem State.Inv.hostStep (h : s.Inv) (hm : s.hostInModel = true) (hn : s.nextInstr = none) :
    ∃ t, s.hostStep = .next t ∧ t.Inv := by
  unfold State.hostStep State.hostInModel at *
  cases hs : s.sched with
  | nil =>
    rw [State.nextInstr_of_nil hs] at hn
    cases ht : s.turn with
    | none => exact ⟨s, rfl, h⟩
    | some side =>
      rw [ht, Option.bind_some] at hn
      exact ⟨s, h.waitStep hn, h⟩
  | cons ev rest =>
    rw [hs] at hm
    cases ev with
    | run side =>
      rw [State.nextInstr_of_run hs] at hn
      exact ⟨s.popped, h.popped.waitStep (by rwa [State.popped_codec]), h.popped⟩
    | writeCmd side b => exact ⟨s.popped, rfl, h.popped⟩
    | readStatus side => exact ⟨_, rfl, h.enc, h.dec, h.encRest, h.decRest⟩
    | assertReset side => exact h.popped.resetStep side
    | connect side source status answers =>
      have hb : (s.codec side).busy = false := by simpa using hm
      exact h.popped.connectStep (by rwa [State.popped_codec]) source status answers
    | focus side k =>
      cases side with
      | enc => exact h.popped.focusStep_enc (of_decide_eq_true hm)
      | dec => exact h.popped.focusStep_dec (of_decide_eq_true hm)

end

/-- Settles O53: the next instruction is one of four rules and two commands, each of which meets the triple of its own
lemma; everything else is a host action. -/
theorem stepKeepsInvariant : Obligations.StepKeepsInvariant := by
  intro s h hm
  cases hi : s.nextInstr with
  | some i => rw [step_of_nextInstr hi]; exact h.exec_nextInstr hi
  | none => rw [step_of_no_instr hi]; exact h.hostStep hm hi

/-- Settles O52: after reset both sides are at rest with an emptied dictionary. -/
theorem resetMeetsInvariant : Obligations.ResetMeetsInvariant :=
  ⟨Encoder.reset_inv _ _, Decoder.reset_inv _, nofun, nofun⟩

/-- Settles O1: the registers of one fixed state. -/
theorem resetLeavesStatedValues : Obligations.ResetLeavesStatedValues := by
  unfold Obligations.ResetLeavesStatedValues
  decide

/-- Settles O56, from the three ways a step comes by its instruction. -/
theorem stepRunsDecodedInstruction : Obligations.StepRunsDecodedInstruction := by
  have hencBusy : ∀ {s : State} {ph}, s.enc.codec.phase = ph → ph.busy = true → s.turn = some .enc := fun hp hb =>
    State.turn_of_enc_busy ((Codec.busy_of_phase hp).trans hb)
  have hdecBusy : ∀ {s : State} {ph}, s.enc.codec.busy = false → s.dec.codec.phase = ph → ph.busy = true →
      s.turn = some .dec := fun he hp hb => State.turn_of_dec_busy he ((Codec.busy_of_phase hp).trans hb)
  refine ⟨fun s m ig rest hs => step_writeCmd hs (cmdInstr_compress m ig),
    fun s ig rest hs => step_writeCmd hs (cmdInstr_decompress ig),
    fun s rest hs => ⟨fun hp => step_run hs (congrArg (phaseInstr .enc) hp),
      fun hp => step_run hs (congrArg (phaseInstr .enc) hp)⟩,
    fun s rest hs => ⟨fun hp => step_run hs (congrArg (phaseInstr .dec) hp),
      fun hp => step_run hs (congrArg (phaseInstr .dec) hp)⟩,
    fun s hs => ⟨fun hp => step_turn hs (hencBusy hp rfl) (congrArg (phaseInstr .enc) hp),
      fun hp => step_turn hs (hencBusy hp rfl) (congrArg (phaseInstr .enc) hp),
      fun he hp => step_turn hs (hdecBusy he hp rfl) (congrArg (phaseInstr .dec) hp),
      fun he hp => step_turn hs (hdecBusy he hp rfl) (congrArg (phaseInstr .dec) hp), fun he hd => ?_⟩⟩
  have ht := State.turn_of_rest he hd
  rw [step_of_no_instr (by rw [State.nextInstr_of_nil hs, ht]; rfl), State.hostStep, hs, ht]

end Sys2Proof.Machine
end

section
/-! The `STATUS` register (R42): its fields, and the steps that leave it alone. -/

namespace Sys2Proof.Machine

section
variable {s t : State} {i : Instr} {side other : Side}

/-- The fields of the concatenation that `STATUS` is. -/
theorem statusFields (cause : BitVec 3) (failed done busy : Bool) :
    let r : BitVec 8 :=
      0#2 ++ (if failed then cause else 0#3) ++ BitVec.ofBool failed ++ BitVec.ofBool done ++ BitVec.ofBool busy
    r.getLsbD 0 = busy ∧ r.getLsbD 1 = done ∧ r.getLsbD 2 = failed ∧
      r.extractLsb' 3 3 = (if failed then cause else 0) ∧ r.extractLsb' 6 2 = 0 := by
  revert cause failed done busy
  decide

theorem Codec.busy_eq_decide (c : Codec) : c.busy = decide (c.phase ≠ .idle ∧ c.phase ≠ .done ∧ c.phase ≠ .failed) := by
  unfold Codec.busy
  cases c.phase <;> rfl

theorem Codec.done_eq_decide (c : Codec) : c.done = decide (c.phase = .done) := by
  unfold Codec.done
  cases c.phase <;> rfl

theorem Codec.failed_eq_decide (c : Codec) : c.failed = decide (c.phase = .failed) := by
  unfold Codec.failed
  cases c.phase <;> rfl

/-- The side that is not the encoder's. -/
theorem State.codec_of_ne_enc (h : t.dec = s.dec) (hne : side ≠ .enc) : t.codec side = s.codec side := by
  cases side with
  | enc => exact absurd rfl hne
  | dec => exact congrArg Decoder.codec h

/-- The side that is not the decoder's. -/
theorem State.codec_of_ne_dec (h : t.enc = s.enc) (hne : side ≠ .dec) : t.codec side = s.codec side := by
  cases side with
  | enc => exact congrArg Encoder.codec h
  | dec => exact absurd rfl hne

/-- A rule or a command of one side leaves the other side alone. -/
theorem exec_other_codec (hi : (∃ ph, phaseInstr other ph = some i) ∨ ∃ b, cmdInstr other b = some i)
    (h : exec i s = .next t) (hne : side ≠ other) : t.codec side = s.codec side := by
  rcases hi with ⟨ph, hi⟩ | ⟨b, hi⟩
  · rcases phaseInstr_eq_some hi with ⟨rfl, -, rfl⟩ | ⟨rfl, -, rfl⟩ | ⟨rfl, -, rfl⟩ | ⟨rfl, -, rfl⟩
    · exact State.codec_of_ne_enc (onEnc_dec h) hne
    · exact State.codec_of_ne_enc (onEnc_dec h) hne
    · exact State.codec_of_ne_dec (onDec_enc h) hne
    · exact State.codec_of_ne_dec (onDec_enc h) hne
  · rcases cmdInstr_eq_some hi with ⟨rfl, m, ig, rfl⟩ | ⟨rfl, ig, rfl⟩
    · rw [exec, execCompress] at h
      split at h
      · cases h; rfl
      · exact State.codec_of_ne_enc (onEnc_dec h) hne
    · rw [exec, execDecompress] at h
      split at h
      · cases h; rfl
      · exact State.codec_of_ne_dec (onDec_enc h) hne

/-- The next instruction leaves a side alone that is at rest and gets no command. -/
theorem exec_nextInstr_codec (hi : s.nextInstr = some i) (h : exec i s.popped = .next t)
    (hb : (s.codec side).busy = false) (hw : ∀ b, s.sched.head? ≠ some (.writeCmd side b)) :
    t.codec side = s.codec side := by
  obtain ⟨other, hi | ⟨b, hhead, hi⟩⟩ := State.nextInstr_cases hi
  · refine (exec_other_codec (.inl ⟨_, hi⟩) h ?_).trans (s.popped_codec side)
    rintro rfl
    rw [phaseInstr_of_not_busy hb] at hi
    cases hi
  · refine (exec_other_codec (.inr ⟨b, hi⟩) h ?_).trans (s.popped_codec side)
    rintro rfl
    exact hw b hhead

theorem waitStep_codec (h : waitStep other s = .next t) : t.codec side = s.codec side := by
  unfold waitStep at h
  split at h
  · cases h
  · cases h; rfl

theorem resetStep_other_codec (h : resetStep other s = .next t) (hne : side ≠ other) : t.codec side = s.codec side := by
  cases other with
  | enc => cases h; exact State.codec_of_ne_enc rfl hne
  | dec => cases h; exact State.codec_of_ne_dec rfl hne

/-- Wiring a port does not touch `STATUS`. -/
theorem connectStep_statusReg {source : List Byte} {status : SinkStatus} {answers : List SinkAnswer}
    (h : connectStep other source status answers s = .next t) :
    (t.codec side).statusReg = (s.codec side).statusReg := by
  unfold connectStep at h
  dsimp only at h
  split at h
  · cases h
  · cases h
    cases other <;> cases side <;> rfl

theorem focusStep_other_codec {k : Nat} (h : focusStep other k s = .next t) (hne : side ≠ other) :
    t.codec side = s.codec side := by
  unfold focusStep at h
  cases other with
  | enc =>
    dsimp only at h
    split at h
    · cases h; exact State.codec_of_ne_enc rfl hne
    · cases h
  | dec =>
    dsimp only at h
    split at h
    · cases h; exact State.codec_of_ne_dec rfl hne
    · cases h

/-- A host action that is neither a reset of a side nor a change of its focus leaves its `STATUS` alone. -/
theorem State.hostStep_statusReg (h : s.hostStep = .next t)
    (hev : ∀ ev, s.sched.head? = some ev → ev ≠ .assertReset side ∧ ∀ k, ev ≠ .focus side k) :
    (t.codec side).statusReg = (s.codec side).statusReg := by
  have hfrom : t.codec side = s.popped.codec side → (t.codec side).statusReg = (s.codec side).statusReg := fun h => by
    rw [h, State.popped_codec]
  unfold State.hostStep at h
  cases hs : s.sched with
  | nil =>
    rw [hs] at h
    dsimp only at h
    split at h
    · exact congrArg _ (waitStep_codec h)
    · cases h; rfl
  | cons ev rest =>
    obtain ⟨hreset, hfocus⟩ := hev ev (by rw [hs]; rfl)
    rw [hs] at h
    cases ev with
    | run other => exact hfrom (waitStep_codec h)
    | writeCmd other b => cases h; exact hfrom rfl
    | readStatus other => cases h; cases side <;> rfl
    | assertReset other => exact hfrom (resetStep_other_codec h fun heq => hreset (heq ▸ rfl))
    | connect other source status answers => exact (connectStep_statusReg h).trans (congrArg _ (s.popped_codec side))
    | focus other k => exact hfrom (focusStep_other_codec h fun heq => hfocus k (heq ▸ rfl))

end

/-- Settles O3: the fields by the concatenation; the read is one host action; and a step touches a side at rest only
by a command written to it, its reset, or a change of focus. -/
theorem statusRegisterFields : Obligations.StatusRegisterFields := by
  refine ⟨fun c => ?_, fun s side rest hs => ?_, fun s t side h hb hev => ?_⟩
  · obtain ⟨h0, h1, h2, h3, h6⟩ := statusFields c.cause c.failed c.done c.busy
    refine ⟨h0.trans c.busy_eq_decide, h1.trans c.done_eq_decide, h2.trans c.failed_eq_decide, h3.trans ?_, h6⟩
    rw [c.failed_eq_decide]
    simp only [decide_eq_true_eq]
  · rw [step_of_no_instr (by rw [State.nextInstr, hs]), State.hostStep, hs, State.popped_of_cons hs]
    cases side <;> rfl
  · cases hi : s.nextInstr with
    | some i =>
      rw [step_of_nextInstr hi] at h
      exact congrArg _ (exec_nextInstr_codec hi h hb fun b hb' => (hev _ hb').2.1 b rfl)
    | none =>
      rw [step_of_no_instr hi] at h
      exact State.hostStep_statusReg h fun ev hev' => ⟨(hev ev hev').1, (hev ev hev').2.2⟩

end Sys2Proof.Machine
end

section
/-! A decoder's step runs the token its stream holds (R222). -/

namespace Sys2Proof.Machine

section
variable {d g : Decoder} {c : Code} {x : Codec}

/-- In `D_SYMBOL`: the codeword read, then what it stands for. -/
theorem Decoder.dSymbol_of_readCode {v : Nat} (h : d.codec.dict.Inv)
    (hx : d.codec.readCode d.codec.dict.n.toNat = .ok v x) :
    d.dSymbol = (d.setCodec x).symbol (BitVec.ofNat 16 v) := by
  obtain ⟨hlo, hhi⟩ := h.alphabet
  rw [Decoder.dSymbol, Decoder.onCodec, Codec.abDec_of_alphabet hlo hhi, hx]
  rfl

theorem Decoder.symbol_data (h : isDataCode c = true) (d : Decoder) :
    d.symbol c = (d.data c).bind fun _ g => .ok () (g.goto .dSymbol) := by
  obtain ⟨hclear, hend⟩ := (isDataCode_iff c).1 h
  exact (if_neg hend).trans (if_neg hclear)

/-- Going to the phase one is in. -/
theorem Decoder.goto_self {ph : Phase} (h : d.codec.phase = ph) : d.goto ph = d := by
  subst h
  rfl

/-- `END` (R223). -/
theorem Decoder.symbol_eq_finish (hc : c.toNat = 257) : d.symbol c = .ok () (d.setCodec d.codec.finish) := if_pos hc

/-- At a symbol boundary the phase that `D_SYMBOL` writes after `CLEAR` is the phase there is. -/
theorem Decoder.symbol_eq_clear (hp : d.codec.phase = .dSymbol) (hc : c.toNat = 256) : d.symbol c = .ok () d.clear := by
  have hend : c.toNat ≠ 257 := by omega
  have hgoto : d.clear.goto .dSymbol = d.clear := Decoder.goto_self hp
  rw [← hgoto]
  exact (if_neg hend).trans (if_pos hc)

/-- At a symbol boundary the phase that `D_SYMBOL` writes after a data code is the phase there is. -/
theorem Decoder.Inv.symbol_eq_data (h : d.Inv) (hp : d.codec.phase = .dSymbol) (hc : isDataCode c = true) :
    d.symbol c = d.data c := by
  have hdata := Decoder.data_meets h.dict (h.symbol hp) hc
  rw [Decoder.symbol_data hc]
  cases heq : d.data c with
  | ok a g =>
    rw [heq] at hdata
    obtain ⟨-, -, hphase, -, -⟩ := hdata
    rw [Ans.bind_ok, Decoder.goto_self (hphase.trans hp)]
  | failed g => rfl
  | fault f => rfl

end

/-- Settles O57: `AB_DEC` is `readCodeword` on the bits ahead, and on the decoder that has read them `D_SYMBOL` does
what the token does. -/
theorem stepRunsTokenAhead : Obligations.StepRunsTokenAhead := by
  intro s rest v bits hs h hp hread
  obtain ⟨hlo, hhi⟩ := h.dict.alphabet
  rcases Codec.readCode_cases hlo hhi (h.unpacker (Codec.busy_of_phase hp)) with
    ⟨v', x, hread', hok, htook⟩ | ⟨hread', -⟩
  case inr => rw [hread] at hread'; cases hread'
  rw [hread] at hread'
  obtain ⟨rfl, rfl⟩ := Prod.mk.inj (Option.some.inj hread')
  have hinv : (s.dec.setCodec x).Inv := h.setCodec hp htook.returned
  have hstep : step s = onDec (({ s with sched := rest } : State).setCodec .dec x)
      (fun d => d.symbol (BitVec.ofNat 16 v)) fun _ => .unit := by
    rw [step_run hs (congrArg (phaseInstr .dec) hp), exec, execDSymbol, onDec, Decoder.dSymbol_of_readCode h.dict hok]
    rfl
  have hphase : (s.dec.setCodec x).codec.phase = .dSymbol := htook.returned.phase.trans hp
  refine ⟨x.buf, x.port.source, _, rfl, rfl, ?_, ?_, ?_⟩
  all_goals rw [← htook.frame, hstep]
  · rintro rfl
    exact congrArg (Ans.toStep · _ _) (Decoder.symbol_eq_finish rfl)
  · rintro rfl
    exact congrArg (Ans.toStep · _ _) (Decoder.symbol_eq_clear hphase rfl)
  · intro t hclear hend hdata
    have hv := readCodeword_lt hlo hhi hread
    have hc : isDataCode (BitVec.ofNat 16 v) = true := by
      rw [isDataCode_iff, BitVec.toNat_ofNat, Nat.mod_eq_of_lt (by omega)]
      exact ⟨hclear, hend⟩
    rw [← hdata]
    exact congrArg (Ans.toStep · _ _) (hinv.symbol_eq_data hphase hc)

end Sys2Proof.Machine
end

section
/-! Where the model stops (log entries 2, 8, 13, 14, 15, 20). -/

namespace Sys2Proof.Machine

section
variable {s t : State} {i : Instr} {side : Side} {α : Type} {res : α → Result} {r : Refusal}

/-! ### What is never refused -/

theorem onCodec_ne_refused {f : Codec → Ans Codec α} : onCodec side s f res ≠ .refused r :=
  Ans.toStep_ne_refused _ _ _ _

theorem onEnc_ne_refused {f : Encoder → Ans Encoder α} : onEnc s f res ≠ .refused r := Ans.toStep_ne_refused _ _ _ _

theorem onDec_ne_refused {f : Decoder → Ans Decoder α} : onDec s f res ≠ .refused r := Ans.toStep_ne_refused _ _ _ _

theorem dictInsertOn_ne_refused {p : Code} {b : Byte} : dictInsertOn side p b s ≠ .refused r := by
  cases side with
  | enc => exact Ans.toStep_ne_refused (s.enc.dictInsert p b) _ _ _
  | dec => exact nofun

theorem execCompress_ne_refused {m : BitVec 5} {ig : BitVec 2} : execCompress m ig s ≠ .refused r := by
  unfold execCompress
  split
  · exact nofun
  · exact onEnc_ne_refused

theorem execDecompress_ne_refused {ig : BitVec 7} : execDecompress ig s ≠ .refused r := by
  unfold execDecompress
  split
  · exact nofun
  · exact onDec_ne_refused

theorem execAbs_refused {p : Code} (h : execAbs side p s = .refused r) : r = .notACodeword := by
  unfold execAbs at h
  dsimp only at h
  split at h
  · cases side with
    | enc => exact absurd h onCodec_ne_refused
    | dec => cases h
  · cases h; rfl

theorem execAbl_refused {p : Code} {e : BitVec 1} (h : execAbl side p e s = .refused r) : r = .notACodeword := by
  unfold execAbl at h
  dsimp only at h
  split at h
  · cases side with
    | enc => exact absurd h onCodec_ne_refused
    | dec => cases h
  · cases h; rfl

/-- Only a codeword format is ever refused, and by that name (log entry 13). -/
theorem exec_refused (h : exec i s = .refused r) :
    r = .notACodeword ∧ ((∃ side p, i = .abs side p) ∨ ∃ side p e, i = .abl side p e) := by
  cases i with
  | abs side p => exact ⟨execAbs_refused h, .inl ⟨_, _, rfl⟩⟩
  | abl side p e => exact ⟨execAbl_refused h, .inr ⟨_, _, _, rfl⟩⟩
  | compress => exact absurd h execCompress_ne_refused
  | decompress => exact absurd h execDecompress_ne_refused
  | dictReset side => cases side <;> cases h
  | dictInsertGrowing | dictInsertRecycling | dictInsertNoVictim => exact absurd h dictInsertOn_ne_refused
  | sinkPush | putBits | flushBits | abEnc | abDec => exact absurd h onCodec_ne_refused
  | encStart | eFirst | eNext | encMiss | emitData | encFlushDict | encFinish => exact absurd h onEnc_ne_refused
  | hdr | lit | str | strKwKwK | dHdr | dSymbol | data | expand | decInsert => exact absurd h onDec_ne_refused
  | pad | abParams | dictAssigned | dictLookup | dictIsLeaf | succ | dictVictim | dictPending | srcPull | getBits
  | alphaStep | raiseFail | finish | indexAdd | indexRemove | encExtend | monReset | monUpdate | clear | endTok
  | decStart | decNext =>
    cases h

/-! ### Operands out of their range (log entry 13) -/

/-- An insertion, whatever its operands. -/
theorem State.Inv.dictInsertOn_next (h : s.Inv) (side : Side) (p : Code) (b : Byte) :
    ∃ t, dictInsertOn side p b s = .next t := by
  cases side with
  | enc => exact Ans.toStep_next (Encoder.dictInsert_runs h.enc.dict p b) _ _
  | dec => exact ⟨_, rfl⟩

/-- A string token of a code that is no string code. -/
theorem State.Inv.strToken_next (h : s.Inv) {c : Code} (hc : isStringCode c = false) :
    ∃ t, onDec s (fun d => d.strToken c) .byte = .next t := by
  rw [Bool.eq_false_iff, Ne, isStringCode_iff] at hc
  have hpend := Decoder.isPending_of_lt h.dec.dict (c := c) (by omega)
  have hmeets := Decoder.strToken_meets h.dec.dict (c := c) fun hp => absurd (hpend.symm.trans hp) Bool.false_ne_true
  exact Ans.toStep_next hmeets.runs _ _

theorem Decoder.decInsert_runs (fb : Byte) (d : Decoder) : (d.decInsert fb).runs = true := by
  unfold Decoder.decInsert
  cases d.prev <;> rfl

/-- `DATA` of 256 or 257. -/
theorem State.Inv.data_next (h : s.Inv) {c : Code} (hc : isDataCode c = false) :
    ∃ t, onDec s (fun d => d.data c) (fun _ => .unit) = .next t := by
  rw [Bool.eq_false_iff, Ne, isDataCode_iff] at hc
  have hpend := Decoder.isPending_of_lt h.dec.dict (c := c) (by omega)
  have hmeets := Decoder.dataToken_meets h.dec.dict (c := c) fun hp => absurd (hpend.symm.trans hp) Bool.false_ne_true
  exact Ans.toStep_next
    (Ans.runs_bind hmeets.runs fun fb g _ => Ans.runs_bind (g.decInsert_runs fb) fun _ _ _ => rfl) _ _

/-- An instruction with an operand out of its range runs. -/
theorem State.Inv.exec_next_of_not_wf (h : s.Inv) (hwf : i.wf = false) : ∃ t, exec i s = .next t := by
  cases i with
  | str c | strKwKwK c => exact h.strToken_next hwf
  | data c => exact h.data_next hwf
  | putBits val wd => exact Ans.toStep_next (Codec.putField_runs val wd _) _ _
  | abEnc v n => exact Ans.toStep_next (Codec.abEnc_runs _ _ _) _ _
  | abDec n => exact Ans.toStep_next (Codec.abDec_runs _ _) _ _
  | emitData c => exact Ans.toStep_next (Encoder.emitData_runs _ _) _ _
  | dictInsertGrowing side p b | dictInsertRecycling side p b | dictInsertNoVictim side p b =>
    exact h.dictInsertOn_next side p b
  | getBits | abParams | dictLookup | dictIsLeaf | succ | dictVictim | dictPending => exact ⟨_, rfl⟩
  | _ => cases hwf

/-! ### Named stops -/

theorem Encoder.next_of_no_match {e : Encoder} (h : e.wCode = none) : e.next = .fault .noMatch := by
  rw [Encoder.next, h]

theorem Encoder.miss_of_no_match {e : Encoder} (h : e.wCode = none) (b : Byte) : e.miss b = .fault .noMatch := by
  rw [Encoder.miss, h]

/-- The walk stops at a string code with no pair, where the stack has room (R229). -/
theorem Decoder.walk_of_no_pair {d : Decoder} {c : Code} (fuel : Nat) (hc : 258 ≤ c.toNat)
    (hroom : d.sp.toNat ≠ d.codec.dict.max.toNat - 258) (hpair : d.codec.dict.pair c = none) :
    Decoder.walk (fuel + 1) c d = .fault .unspecifiedRead := by
  have hstr : Config.firstString ≤ c.toNat := hc
  have hguard : ¬ d.sp.toNat = d.codec.dict.max.toNat - Config.firstString := hroom
  rw [Decoder.walk, if_pos hstr, if_neg hguard, hpair]

/-- `EXPAND` of a string code with no pair reads it at once (log entry 2). -/
theorem Decoder.expand_of_no_pair {d : Decoder} {c : Code} (hc : 258 ≤ c.toNat) (hmax : 258 < d.codec.dict.max.toNat)
    (hpair : d.codec.dict.pair c = none) : d.expand c = .fault .unspecifiedRead := by
  rw [Decoder.expand, Decoder.walk_of_no_pair (d := { d with sp := 0 }) _ hc (Nat.sub_pos_of_lt hmax).ne hpair]
  rfl

theorem focusStep_enc_of_le {k : Nat} (hk : s.encRest.length ≤ k) : focusStep .enc k s = .refused .noSuchInstance := by
  rw [focusStep, List.getElem?_eq_none hk]

theorem focusStep_dec_of_le {k : Nat} (hk : s.decRest.length ≤ k) : focusStep .dec k s = .refused .noSuchInstance := by
  rw [focusStep, List.getElem?_eq_none hk]

theorem Dict.pair_of_not_assigned {d : Dict} {c : Code} (h : d.assigned c = false) : d.pair c = none :=
  if_neg (Bool.eq_false_iff.1 h)

theorem Dict.pair_of_no_term {d : Dict} {c : Code} (h : readMem d.term c.toNat = none) : d.pair c = none := by
  rw [Option.eq_none_iff_forall_ne_some]
  rintro ⟨p, b⟩ hpair
  obtain ⟨-, -, hb⟩ := (Dict.pair_eq_some _ _ _ _).1 hpair
  rw [h] at hb
  cases hb

end

/-- Settles O50: a stop is either a refused codeword format, or one of the named faults and refusals. -/
theorem stopsAreNamed : Obligations.StopsAreNamed := by
  refine ⟨fun i s r => exec_refused, fun i s h hwf => h.exec_next_of_not_wf hwf, fun s b hw => ⟨?_, ?_⟩,
    fun s c hc hmax hterm => ?_, fun s c hmax has => ?_, fun s side rest hs hb hn => ?_,
    fun s side source status answers rest hs hb => ?_, fun s k rest hs hk => ?_, fun s k rest hs hk => ?_⟩
  · rw [exec, execENext, onEnc, Encoder.next_of_no_match hw]
    rfl
  · rw [exec, execEncMiss, onEnc, Encoder.miss_of_no_match hw]
    rfl
  · have hpair := Dict.pair_of_no_term hterm
    rw [exec, execExpand, onDec, Decoder.expand_of_no_pair ((isStringCode_iff c).1 hc) hmax hpair]
    rfl
  · have hc : 258 ≤ c.toNat := by
      rw [Bool.eq_false_iff, Ne, Dict.assigned_iff] at has
      omega
    rw [exec, execExpand, onDec, Decoder.expand_of_no_pair hc hmax (Dict.pair_of_not_assigned has)]
    rfl
  · rw [step_of_no_instr ((State.nextInstr_of_run hs).trans hn), State.hostStep, hs]
    exact if_pos ((congrArg Codec.busy (s.popped_codec side)).trans hb)
  · rw [step_of_no_instr (by rw [State.nextInstr, hs]), State.hostStep, hs]
    exact if_pos ((congrArg Codec.busy (s.popped_codec side)).trans hb)
  · rw [step_of_no_instr (by rw [State.nextInstr, hs]), State.hostStep, hs]
    exact focusStep_enc_of_le (s := s.popped) hk
  · rw [step_of_no_instr (by rw [State.nextInstr, hs]), State.hostStep, hs]
    exact focusStep_dec_of_le (s := s.popped) hk

end Sys2Proof.Machine
end

section
/-! What every instruction leaves of the streams and the memories (R60, R66, R315, R316): a sink only grows at its end,
a source only loses its head, and canonical memories stay canonical. -/

namespace Sys2Proof.Machine

/-- From `c` to `d` the sink keeps its bytes in front, the source is an end part, and `prefix` and `term` stay canonical. -/
structure Codec.Forward (c d : Codec) : Prop where
  sink : c.port.sink <+: d.port.sink
  source : d.port.source <:+ c.port.source
  pfx_wf : Mem.wf c.dict.pfx → Mem.wf d.dict.pfx
  term_wf : Mem.wf c.dict.term → Mem.wf d.dict.term

/-- An encoder goes forward where its common part does and its index stays canonical. -/
structure Encoder.Forward (e f : Encoder) : Prop where
  codec : e.codec.Forward f.codec
  index_wf : Mem.wf e.index → Mem.wf f.index

/-- A decoder goes forward where its common part does and its expansion stack stays canonical. -/
structure Decoder.Forward (d g : Decoder) : Prop where
  codec : d.codec.Forward g.codec
  stk_wf : Mem.wf d.stk → Mem.wf g.stk

/-- The block goes forward where both instances at the focus do. -/
structure State.Forward (s t : State) : Prop where
  enc : s.enc.Forward t.enc
  dec : s.dec.Forward t.dec

section
variable {c d : Codec} {e f : Encoder} {x y : Decoder} {s t : State}

theorem Codec.Forward.refl (c : Codec) : c.Forward c := ⟨List.prefix_refl _, List.suffix_refl _, id, id⟩

/-- Registers outside the port and the arrays are free. -/
theorem Codec.Forward.regs (ho : d.port = c.port) (h1 : d.dict.pfx = c.dict.pfx) (h2 : d.dict.term = c.dict.term) :
    c.Forward d :=
  ⟨by rw [ho], by rw [ho], by rw [h1]; exact id, by rw [h2]; exact id⟩

theorem Encoder.Forward.refl (e : Encoder) : e.Forward e := ⟨.refl _, id⟩

theorem Decoder.Forward.refl (d : Decoder) : d.Forward d := ⟨.refl _, id⟩

theorem State.Forward.refl (s : State) : s.Forward s := ⟨.refl _, .refl _⟩

theorem Codec.BitStep.forward (h : c.BitStep d) : c.Forward d :=
  ⟨h.sink, h.source, by rw [h.dict]; exact id, by rw [h.dict]; exact id⟩

theorem Encoder.Steps.forward (h : e.Steps f) : e.Forward f := ⟨⟨h.sink, h.source, h.pfx_wf, h.term_wf⟩, h.index_wf⟩

theorem Decoder.Steps.forward (h : x.Steps y) : x.Forward y := ⟨⟨h.sink, h.source, h.pfx_wf, h.term_wf⟩, h.stk_wf⟩

theorem State.Forward.codec (h : s.Forward t) (side : Side) : (s.codec side).Forward (t.codec side) := by
  cases side with
  | enc => exact h.enc.codec
  | dec => exact h.dec.codec

theorem State.Forward.memWf (h : s.Forward t) (hs : s.MemWf) : t.MemWf where
  encPfx := h.enc.codec.pfx_wf hs.encPfx
  encTerm := h.enc.codec.term_wf hs.encTerm
  index := h.enc.index_wf hs.index
  decPfx := h.dec.codec.pfx_wf hs.decPfx
  decTerm := h.dec.codec.term_wf hs.decTerm
  stk := h.dec.stk_wf hs.stk

end

/-! ### An operation on one instance -/

section
variable {s t : State} {side : Side} {α : Type} {res : α → Result}

/-- The step that an operation on a part becomes goes forward where the part put back does. -/
theorem Ans.All.toStep_forward {σ : Type} {a : Ans σ α} {put : σ → State} {P : σ → Prop} (ha : a.All P)
    (hput : ∀ x r, P x → s.Forward { put x with result := r }) (h : a.toStep put res = .next t) : s.Forward t := by
  rcases Ans.toStep_eq_next.1 h with ⟨v, x, rfl, rfl⟩ | ⟨x, rfl, rfl⟩
  · exact hput x _ ha
  · exact hput x _ ha

theorem onCodec_forward {f : Codec → Ans Codec α} (h : onCodec side s f res = .next t)
    (hf : (f (s.codec side)).All (s.codec side).Forward) : s.Forward t := by
  refine hf.toStep_forward (fun c r hc => ?_) h
  cases side with
  | enc => exact ⟨⟨hc, id⟩, .refl _⟩
  | dec => exact ⟨.refl _, hc, id⟩

theorem onEnc_forward {f : Encoder → Ans Encoder α} (h : onEnc s f res = .next t) (hf : (f s.enc).All s.enc.Forward) :
    s.Forward t := by
  refine hf.toStep_forward (fun e r he => ?_) h
  exact ⟨he, .refl _⟩

theorem onDec_forward {f : Decoder → Ans Decoder α} (h : onDec s f res = .next t) (hf : (f s.dec).All s.dec.Forward) :
    s.Forward t := by
  refine hf.toStep_forward (fun d r hd => ?_) h
  exact ⟨.refl _, hd⟩

/-- An operation that moves bits. -/
theorem onCodec_bits_forward {f : Codec → Ans Codec α} (h : onCodec side s f res = .next t)
    (hf : (f (s.codec side)).All (s.codec side).BitStep) : s.Forward t :=
  onCodec_forward h (hf.mono fun _ => Codec.BitStep.forward)

/-- An encoder's rule. -/
theorem onEnc_rule_forward {f : Encoder → Ans Encoder α} (h : onEnc s f res = .next t)
    (hf : (f s.enc).All s.enc.Steps) : s.Forward t :=
  onEnc_forward h (hf.mono fun _ => Encoder.Steps.forward)

/-- A decoder's rule. -/
theorem onDec_rule_forward {f : Decoder → Ans Decoder α} (h : onDec s f res = .next t)
    (hf : (f s.dec).All s.dec.Steps) : s.Forward t :=
  onDec_forward h (hf.mono fun _ => Decoder.Steps.forward)

theorem report_forward {r : Result} (h : report s r = .next t) : s.Forward t := by
  cases h
  exact ⟨.refl _, .refl _⟩

/-! ### Instructions with cases of their own -/

theorem execCompress_forward {m : BitVec 5} {ig : BitVec 2} (h : execCompress m ig s = .next t) : s.Forward t := by
  unfold execCompress at h
  split at h
  · cases h; exact .refl s
  · refine onEnc_forward h ((Encoder.start_steps _ _).mono fun f hf => ?_)
    exact ⟨⟨hf.sink, hf.source, hf.pfx_wf, hf.term_wf⟩, hf.index_wf⟩

theorem execDecompress_forward {ig : BitVec 7} (h : execDecompress ig s = .next t) : s.Forward t := by
  unfold execDecompress at h
  split at h
  · cases h; exact .refl s
  · cases h; exact ⟨.refl _, .regs rfl rfl rfl, id⟩

theorem execAbs_forward {p : Code} (h : execAbs side p s = .next t) : s.Forward t := by
  unfold execAbs at h
  dsimp only at h
  split at h
  · cases side with
    | enc => exact onCodec_bits_forward h ((Codec.putBits_step _ _ _).bind fun _ _ hd => hd)
    | dec => exact report_forward h
  · cases h

theorem execAbl_forward {p : Code} {e : BitVec 1} (h : execAbl side p e s = .next t) : s.Forward t := by
  unfold execAbl at h
  dsimp only at h
  split at h
  · cases side with
    | enc =>
      exact onCodec_bits_forward h ((Codec.putBits_step _ _ _).bind fun _ d hd =>
        ((d.putBits_step _ _).mono fun _ he => hd.trans he).bind fun _ _ he => he)
    | dec => exact report_forward h
  · cases h

theorem dictInsertOn_forward {p : Code} {b : Byte} (h : dictInsertOn side p b s = .next t) : s.Forward t := by
  unfold dictInsertOn at h
  cases side with
  | enc => exact onEnc_rule_forward h (Encoder.dictInsert_steps p b _)
  | dec => exact onDec_rule_forward h (Decoder.dictInsert_steps p b _)

theorem execDictReset_forward (h : execDictReset side s = .next t) : s.Forward t := by
  cases side with
  | enc => cases h; exact ⟨⟨.regs rfl rfl rfl, fun _ => List.Pairwise.nil⟩, .refl _⟩
  | dec => cases h; exact ⟨.refl _, .regs rfl rfl rfl, id⟩

theorem execMonUpdate_forward {mlen : BitVec 16} {wd : BitVec 5} (h : execMonUpdate mlen wd s = .next t) :
    s.Forward t := by
  obtain ⟨q, i, o, z, hm, -⟩ := s.enc.monUpdate_cases mlen.toNat wd.toNat
  refine onEnc_forward h ?_
  rw [hm]
  exact ⟨.refl _, id⟩

/-! ### Every instruction -/

/-- No instruction rewinds a stream or takes a memory out of canonical form. -/
theorem exec_forward {i : Instr} (h : exec i s = .next t) : s.Forward t := by
  cases i with
  | compress => exact execCompress_forward h
  | decompress => exact execDecompress_forward h
  | abs => exact execAbs_forward h
  | abl => exact execAbl_forward h
  | pad => cases h; exact .refl s
  | abParams | dictAssigned | dictLookup | dictIsLeaf | succ | dictVictim | dictPending => exact report_forward h
  | srcPull => rw [exec, execSrcPull] at h; exact onCodec_bits_forward h (Codec.srcPull_step _)
  | sinkPush => exact onCodec_bits_forward h (Codec.sinkPush_step _ _)
  | putBits => exact onCodec_bits_forward h (Codec.putField_step _ _ _)
  | flushBits => exact onCodec_bits_forward h (Codec.flushBits_step _)
  | getBits => rw [exec, execGetBits] at h; exact onCodec_bits_forward h (Codec.getField_step _ _)
  | abEnc => exact onCodec_bits_forward h (Codec.abEnc_step _ _ _)
  | abDec => exact onCodec_bits_forward h (Codec.abDec_step _ _)
  | raiseFail side cause => rw [exec, execRaiseFail] at h; exact onCodec_bits_forward h (Codec.BitStep.fail _ cause)
  | finish => rw [exec, execFinish] at h; exact onCodec_forward h (Codec.Forward.regs rfl rfl rfl)
  | alphaStep => rw [exec, execAlphaStep] at h; exact onCodec_forward h (Codec.Forward.regs rfl rfl rfl)
  | dictReset => exact execDictReset_forward h
  | dictInsertGrowing | dictInsertRecycling | dictInsertNoVictim => exact dictInsertOn_forward h
  | indexAdd => cases h; exact ⟨⟨.refl _, fun hw => wf_writeMem hw _ _⟩, .refl _⟩
  | indexRemove => cases h; exact ⟨⟨.refl _, fun hw => wf_eraseMem hw _⟩, .refl _⟩
  | encStart => exact onEnc_rule_forward h (Encoder.start_steps _ _)
  | eFirst => exact onEnc_rule_forward h (Encoder.first_steps _)
  | eNext => exact onEnc_rule_forward h (Encoder.next_steps _)
  | encMiss => exact onEnc_rule_forward h (Encoder.miss_steps _ _)
  | emitData => exact onEnc_rule_forward h (Encoder.emitData_steps _ _)
  | encFlushDict => exact onEnc_rule_forward h (Encoder.flushDict_steps _)
  | encFinish => exact onEnc_rule_forward h (Encoder.encFinish_steps _)
  | encExtend | monReset => cases h; exact ⟨⟨.refl _, id⟩, .refl _⟩
  | monUpdate => exact execMonUpdate_forward h
  | hdr => exact onDec_rule_forward h (Decoder.header_steps _ _)
  | lit => exact onDec_rule_forward h (Decoder.lit_steps _ _)
  | str | strKwKwK => exact onDec_rule_forward h (Decoder.strToken_steps _ _)
  | dHdr => exact onDec_rule_forward h (Decoder.hdr_steps _)
  | dSymbol => exact onDec_rule_forward h (Decoder.dSymbol_steps _)
  | data => exact onDec_rule_forward h (Decoder.data_steps _ _)
  | expand => exact onDec_rule_forward h (Decoder.expand_steps _ _)
  | decInsert => exact onDec_rule_forward h (Decoder.decInsert_steps _ _)
  | clear | endTok | decStart | decNext => cases h; exact ⟨.refl _, .regs rfl rfl rfl, id⟩

end

/-- Settles O47: an instruction takes the block forward (`exec_forward`), and so the streams of either side. -/
theorem streamsNeverRewind : Obligations.StreamsNeverRewind := fun _ _ _ side h =>
  have hc := (exec_forward h).codec side
  ⟨hc.sink, hc.source⟩

/-- Settles O51: an instruction takes the block forward (`exec_forward`), and so keeps all six memories canonical. -/
theorem instructionsKeepCanonicalMemory : Obligations.InstructionsKeepCanonicalMemory := fun _ _ _ hs h =>
  (exec_forward h).memWf hs

end Sys2Proof.Machine
end

section
/-! The codeword of a code below the alphabet size: which of the two formats it has, and that reading it back gives the
code (R92, R93, R143). -/

namespace Sys2Proof.Machine

section
variable {n v p : Nat} {rest : List Bool}

/-- The first `t` codes have their own bits for a codeword (R92). -/
theorem codewordBits_of_short (h : v < (abParams n).2) : codewordBits n v = bitsOf (abParams n).1 v := if_pos h

/-- The codeword of a value assembled from long fields is those fields (R93). -/
theorem codewordBits_longValue {e : Nat} (hp : (abParams n).2 ≤ p) (he : e < 2) :
    codewordBits n (longValue (abParams n).2 p e) = bitsOf (abParams n).1 p ++ bitsOf 1 e := by
  have hsum : 2 * p + e - (abParams n).2 + (abParams n).2 = 2 * p + e := Nat.sub_add_cancel (by omega)
  have hdiv : (2 * p + e) / 2 = p := by omega
  have hmod : (2 * p + e) % 2 = e := by omega
  rw [longValue, codewordBits, if_neg (by omega), hsum, hdiv, hmod]

/-- A code below the alphabet size is short, or it is assembled from long fields in their range (R92, R93). -/
theorem short_or_long (h1 : 258 ≤ n) (h2 : n ≤ 65536) (hv : v < n) :
    v < (abParams n).2 ∨
      ∃ p, ∃ e : Bool, (abParams n).2 ≤ p ∧ p < 2 ^ (abParams n).1 ∧ v = longValue (abParams n).2 p e.toNat := by
  obtain ⟨-, ht⟩ := abParams_spec h1 h2
  by_cases hs : v < (abParams n).2
  · exact .inl hs
  · refine .inr ⟨(v + (abParams n).2) / 2, (v + (abParams n).2) % 2 == 1, by omega, by omega, ?_⟩
    have hbit : ((v + (abParams n).2) % 2 == 1).toNat = (v + (abParams n).2) % 2 := by
      rcases Nat.mod_two_eq_zero_or_one (v + (abParams n).2) with h | h <;> rw [h] <;> rfl
    rw [longValue, hbit]
    omega

/-- A short field fits its `k` bits (R140). -/
theorem lt_two_pow_of_short (h1 : 258 ≤ n) (h2 : n ≤ 65536) (h : v < (abParams n).2) : v < 2 ^ (abParams n).1 := by
  obtain ⟨-, ht⟩ := abParams_spec h1 h2
  have hpow : 2 ^ (abParams n).1 ≤ n := Nat.log2_self_le (by omega)
  omega

/-- No codeword is empty. -/
theorem codewordBits_length_pos (h : 258 ≤ n) (v : Nat) : 0 < (codewordBits n v).length := by
  have hk : 0 < (abParams n).1 := (Nat.le_log2 (by omega)).2 (by omega)
  unfold codewordBits
  dsimp only
  split <;> simp [hk]

/-- The bits of a field that fits are read back as the field. -/
theorem ofBits_take_bitsOf {k : Nat} (hp : p < 2 ^ k) : ofBits ((bitsOf k p ++ rest).take k) = p := by
  rw [List.take_left' (length_bitsOf _ _), ofBits_bitsOf, Nat.mod_eq_of_lt hp]

theorem readCodeword_short (hp : p < 2 ^ (abParams n).1) (ht : p < (abParams n).2) :
    readCodeword n (bitsOf (abParams n).1 p ++ rest) = some (p, rest) := by
  unfold readCodeword
  dsimp only
  rw [if_neg (by simp), ofBits_take_bitsOf hp, if_pos ht, List.drop_left' (length_bitsOf _ _)]

theorem readCodeword_long (hp : p < 2 ^ (abParams n).1) (ht : (abParams n).2 ≤ p) (e : Bool) :
    readCodeword n (bitsOf (abParams n).1 p ++ e :: rest) = some (longValue (abParams n).2 p e.toNat, rest) := by
  unfold readCodeword
  dsimp only
  rw [if_neg (by simp), ofBits_take_bitsOf hp, if_neg (by omega), List.drop_left' (length_bitsOf _ _)]

/-- Reading takes exactly the codeword and answers its code (R143). -/
theorem readCodeword_codewordBits (h1 : 258 ≤ n) (h2 : n ≤ 65536) (hv : v < n) (rest : List Bool) :
    readCodeword n (codewordBits n v ++ rest) = some (v, rest) := by
  rcases short_or_long h1 h2 hv with hs | ⟨p, e, ht, hp, rfl⟩
  · rw [codewordBits_of_short hs]
    exact readCodeword_short (lt_two_pow_of_short h1 h2 hs) hs
  · have he : bitsOf 1 e.toNat = [e] := by cases e <;> rfl
    rw [codewordBits_longValue ht e.toNat_lt, he, List.append_assoc]
    exact readCodeword_long hp ht e

end

end Sys2Proof.Machine
end

section
/-! Packing: the bits of the packed bytes are the bits packed, and zeros up to the end of the last byte (R62, R96). -/

namespace Sys2Proof

/-- The number a list of bits stands for has these bits, and zeros above them. -/
theorem bitsOf_ofBits {w : Nat} {bs : List Bool} (h : bs.length ≤ w) :
    bitsOf w (ofBits bs) = bs ++ List.replicate (w - bs.length) false := by
  induction bs generalizing w with
  | nil =>
    have hzero : ∀ w, bitsOf w 0 = List.replicate w false := fun w => by
      induction w with
      | zero => rfl
      | succ w ih => exact congrArg (false :: ·) ih
    exact hzero w
  | cons b bs ih =>
    cases w with
    | zero => cases h
    | succ w =>
      have hmod : ((b.toNat + 2 * ofBits bs) % 2 == 1) = b := by
        cases b <;> simp [Nat.add_mod]
      have hdiv : (b.toNat + 2 * ofBits bs) / 2 = ofBits bs := by
        have := b.toNat_lt
        omega
      rw [ofBits, bitsOf, hmod, hdiv, ih (Nat.le_of_succ_le_succ h), List.length_cons, Nat.succ_sub_succ]
      rfl

@[simp] theorem length_bytesBits (bs : List Byte) : (bytesBits bs).length = 8 * bs.length := by
  induction bs with
  | nil => rfl
  | cons b bs ih => rw [bytesBits, List.length_append, length_bitsOf, ih, List.length_cons]; omega

@[simp] theorem bytesBits_append (as bs : List Byte) : bytesBits (as ++ bs) = bytesBits as ++ bytesBits bs := by
  induction as with
  | nil => rfl
  | cons a as ih => rw [List.cons_append, bytesBits, ih, bytesBits, List.append_assoc]

/-- The bits of the byte that up to 8 bits make. -/
theorem bitsOf_byte {bs : List Bool} (h : bs.length ≤ 8) :
    bitsOf 8 (BitVec.ofNat 8 (ofBits bs)).toNat = bs ++ List.replicate (8 - bs.length) false := by
  have hlt : ofBits bs < 2 ^ 8 := (ofBits_lt bs).trans_le (Nat.pow_le_pow_right (by decide) h)
  rw [BitVec.toNat_ofNat, Nat.mod_eq_of_lt hlt, bitsOf_ofBits h]

theorem bytesBits_packBytes (bits : List Bool) :
    ∃ pad, bytesBits (packBytes bits) = bits ++ List.replicate pad false := by
  induction bits using packBytes.induct with
  | case1 b0 b1 b2 b3 b4 b5 b6 b7 bs ih =>
    obtain ⟨pad, ih⟩ := ih
    refine ⟨pad, ?_⟩
    rw [packBytes, bytesBits, bitsOf_byte (by simp), ih]
    rfl
  | case2 => exact ⟨0, rfl⟩
  | case3 bs hlong hne =>
    have hlen : bs.length ≤ 8 := by
      match bs, hlong with
      | b0 :: b1 :: b2 :: b3 :: b4 :: b5 :: b6 :: b7 :: bs, hlong => exact (hlong b0 b1 b2 b3 b4 b5 b6 b7 bs rfl).elim
      | [], _ | [_], _ | [_, _], _ | [_, _, _], _ | [_, _, _, _], _ | [_, _, _, _, _], _ | [_, _, _, _, _, _], _
      | [_, _, _, _, _, _, _], _ => simp
    refine ⟨8 - bs.length, ?_⟩
    rw [packBytes, bytesBits, bitsOf_byte hlen, bytesBits, List.append_nil]
    all_goals assumption

end Sys2Proof
end

section
/-! Whole streams: what is written for a list of tokens is read back as those tokens (R90, R145). -/

namespace Sys2Proof.Machine

section
variable {maxN n v : Nat} {tok : Instr} {toks : List Instr}

/-- A token keeps the alphabet size between 258 and `MAX` (R176). -/
theorem alphaAfter_range (h1 : 258 ≤ n) (h2 : n ≤ maxN) (tok : Instr) :
    258 ≤ alphaAfter maxN n tok ∧ alphaAfter maxN n tok ≤ maxN := by
  unfold alphaAfter
  split
  · exact ⟨Nat.le_refl 258, h1.trans h2⟩
  · exact ⟨h1, h2⟩
  · omega

/-- The first of the tokens a stream may hold is not `END`; its code is below the alphabet size, and stands for it
(R95). -/
theorem tokenValue_of_writable (hn : 258 ≤ n) (h : writable maxN n (tok :: toks)) :
    tok ≠ .endTok ∧ ∃ v, tokenValue tok = some v ∧ v < n ∧ decodeToken none (BitVec.ofNat 16 v) = tok := by
  cases tok with
  | lit b => exact ⟨nofun, b.toNat, rfl, by omega, Laws.Encoding.lit b rfl _ rfl⟩
  | clear => exact ⟨nofun, 256, rfl, by omega, Laws.Encoding.clear rfl _ rfl⟩
  | str c =>
    obtain ⟨⟨hc, hlt⟩, -⟩ := h
    exact ⟨nofun, c.toNat, rfl, hlt, Laws.Encoding.str c hc _ rfl⟩
  | _ => exact h.1.elim

theorem writeTokens_cons (hv : tokenValue tok = some v) :
    writeTokens maxN n (tok :: toks) = codewordBits n v ++ writeTokens maxN (alphaAfter maxN n tok) toks := by
  rw [writeTokens, hv]

/-- One symbol of the reader: the codeword ahead is its token's, and the rest is read unless that is `END` (R96). -/
theorem readTokens_codeword (h1 : 258 ≤ n) (h2 : n ≤ 65536) (hv : v < n)
    (htok : decodeToken none (BitVec.ofNat 16 v) = tok) (fuel : Nat) (rest : List Bool) :
    readTokens (fuel + 1) maxN n (codewordBits n v ++ rest) =
      if tok = .endTok then .ok [.endTok]
      else (readTokens fuel maxN (alphaAfter maxN n tok) rest).map (tok :: ·) := by
  rw [readTokens, readCodeword_codewordBits h1 h2 hv]
  dsimp only
  rw [htok]

/-- Tokens and `END`, written and read from the same alphabet size, with fuel for every bit of them. -/
theorem readTokens_writeTokens (hmax : maxN ≤ 65536) (h1 : 258 ≤ n) (h2 : n ≤ maxN) (hw : writable maxN n toks)
    {fuel : Nat} (hf : (writeTokens maxN n (toks ++ [.endTok])).length ≤ fuel) (rest : List Bool) :
    readTokens fuel maxN n (writeTokens maxN n (toks ++ [.endTok]) ++ rest) = .ok (toks ++ [.endTok]) := by
  induction toks generalizing n fuel with
  | nil =>
    have hend : writeTokens maxN n ([] ++ [.endTok]) = codewordBits n 257 := by
      rw [List.nil_append, writeTokens_cons (v := 257) rfl, writeTokens, List.append_nil]
    have hpos := codewordBits_length_pos h1 257
    rw [hend] at hf ⊢
    obtain ⟨fuel, rfl⟩ := Nat.exists_eq_add_one_of_ne_zero (n := fuel) (by omega)
    rw [readTokens_codeword h1 (h2.trans hmax) (by omega) (tok := .endTok) (by decide), if_pos rfl]
    rfl
  | cons tok toks ih =>
    obtain ⟨hne, v, hval, hv, htok⟩ := tokenValue_of_writable h1 hw
    obtain ⟨hlo, hhi⟩ := alphaAfter_range h1 h2 tok
    have hpos := codewordBits_length_pos h1 v
    rw [List.cons_append, writeTokens_cons hval] at hf ⊢
    rw [List.length_append] at hf
    obtain ⟨fuel, rfl⟩ := Nat.exists_eq_add_one_of_ne_zero (n := fuel) (by omega)
    rw [List.append_assoc, readTokens_codeword h1 (h2.trans hmax) hv htok, if_neg hne, ih hlo hhi hw.2 (by omega)]
    rfl

end

/-- Settles O59: the bits of the packed bytes begin with what `writeTokens` wrote (`bytesBits_packBytes`), and reading
that gives the tokens back and stops at `END` (`readTokens_writeTokens`). -/
theorem streamDecodesToItsTokens : Obligations.StreamDecodesToItsTokens := by
  intro b toks more hb hw
  obtain ⟨hlo, hhi⟩ := (isLegalMaxbits_iff _).1 hb
  have hmin : 2 ^ 9 ≤ 2 ^ b.toNat := Nat.pow_le_pow_right (by decide) hlo
  have hmax : 2 ^ b.toNat ≤ 2 ^ 16 := Nat.pow_le_pow_right (by decide) hhi
  obtain ⟨pad, hpad⟩ := bytesBits_packBytes (writeTokens (2 ^ b.toNat) 258 (toks ++ [.endTok]))
  have hlen := congrArg List.length hpad
  rw [length_bytesBits, List.length_append] at hlen
  rw [encodeStream, List.cons_append, decodeStream, if_pos hb, bytesBits_append, Config.firstString, hpad,
    List.append_assoc, readTokens_writeTokens hmax (Nat.le_refl 258) (by omega) hw
      (by rw [List.length_append]; omega)]
  rfl

end Sys2Proof.Machine
end

section
/-! The packer with a sink that never refuses: a field's bits follow those written before (R122). -/

namespace Sys2Proof.Machine

/-- The operation returns `a`, and all it did is append these bits to those written so far: bytes reached the
sink, and the buffer is settled. -/
def Codec.Appends {α : Type} (c : Codec) (bits : List Bool) (a : α) (x : Ans Codec α) : Prop :=
  ∃ bytes buf, x = .ok a { c.pushed bytes with buf := buf } ∧
    bytesBits bytes ++ buf.bits = c.buf.bits ++ bits ∧ buf.settled = true

section
variable {c : Codec}

/-- Returning appends nothing. -/
theorem Codec.Appends.ret {α : Type} (h : c.buf.settled = true) (a : α) : c.Appends [] a (.ok a c) :=
  ⟨[], c.buf, by rw [Codec.pushed_nil], (List.append_nil _).symm, h⟩

/-- A field appended, and then the bits the next statement appends. -/
theorem Codec.Appends.bind {α β : Type} {a : α} {b : β} {bits more : List Bool} {x : Ans Codec α}
    {f : α → Codec → Ans Codec β} (hx : c.Appends bits a x)
    (hf : ∀ bytes buf, buf.settled = true →
      Codec.Appends { c.pushed bytes with buf := buf } more b (f a { c.pushed bytes with buf := buf })) :
    c.Appends (bits ++ more) b (x.bind f) := by
  obtain ⟨bytes, buf, rfl, hbits, hs⟩ := hx
  obtain ⟨bytes', buf', hret, hbits', hs'⟩ := hf bytes buf hs
  refine ⟨bytes ++ bytes', buf', ?_, ?_, hs'⟩
  · rw [Ans.bind_ok, hret, ← Codec.pushed_pushed]
    rfl
  · rw [bytesBits_append, List.append_assoc, hbits', ← List.append_assoc, hbits, List.append_assoc]

/-- Returning another value appends nothing more. -/
theorem Codec.Appends.bind_ret {α β : Type} {a : α} {bits : List Bool} {x : Ans Codec α} (hx : c.Appends bits a x)
    (b : β) : c.Appends bits b (x.bind fun _ d => .ok b d) := by
  obtain ⟨bytes, buf, rfl, hbits, hs⟩ := hx
  exact ⟨bytes, buf, rfl, hbits, hs⟩

/-- The step of the block that such an operation on the encoder becomes. -/
theorem Codec.Appends.toStep {α : Type} {s : State} {i : Instr} {f : Codec → Ans Codec α} {res : α → Result}
    {bits : List Bool} {a : α} (hi : exec i s = onCodec .enc s f res)
    (h : s.enc.codec.Appends bits a (f s.enc.codec)) :
    ∃ bytes buf,
      exec i s = .next { s.setCodec .enc { s.enc.codec.pushed bytes with buf := buf } with result := res a } ∧
      bytesBits bytes ++ buf.bits = s.enc.codec.buf.bits ++ bits ∧ buf.settled = true := by
  obtain ⟨bytes, buf, hret, hbits, hs⟩ := h
  exact ⟨bytes, buf, by rw [hi, onCodec, State.codec_enc, hret, Ans.toStep_ok], hbits, hs⟩

/-- The oldest 8 bits in hand are those of the byte the packer pushes. -/
theorem BitBuf.bits_eq_byte {u : BitBuf} (h : 8 ≤ u.nbits.toNat) :
    u.bits = bytesBits [u.acc.setWidth 8] ++ (u.drop 8).bits := by
  have hbyte : bitsOf 8 (u.acc.setWidth 8).toNat = bitsOf 8 u.acc.toNat := by
    rw [BitVec.toNat_setWidth]
    conv_rhs => rw [← Nat.mod_add_div u.acc.toNat (2 ^ 8), bitsOf_add_mul]
  rw [bytesBits, bytesBits, List.append_nil, hbyte, BitBuf.drop_bits h, ← take_bitsOf h, ← BitBuf.bits,
    List.take_append_drop]

/-- Draining whole bytes appends nothing: they go from the buffer to the sink (R122). -/
theorem Codec.drain_appends (fuel : Nat) (hn : c.neverRefused = true) (hc : c.buf.clean)
    (hlt : c.buf.nbits.toNat < 8 * (fuel + 1)) : c.Appends [] () (Codec.drain fuel c) := by
  induction fuel generalizing c with
  | zero => exact .ret ((BitBuf.settled_iff_clean _).2 ⟨by omega, hc⟩) ()
  | succ fuel ih =>
    rw [Codec.drain]
    split
    · rename_i h8
      obtain ⟨bytes, buf, hret, hbits, hs⟩ :=
        ih (c := { c.pushed [c.buf.acc.setWidth 8] with buf := c.buf.drop 8 }) hn (BitBuf.drop_clean hc h8)
          (by show (c.buf.drop 8).nbits.toNat < _; rw [BitBuf.drop_nbits]; omega)
      refine ⟨[c.buf.acc.setWidth 8] ++ bytes, buf, ?_, ?_, hs⟩
      · rw [Codec.sinkPush_never hn, Ans.bind_ok, ← Codec.pushed_pushed]
        exact hret
      · rw [bytesBits_append, List.append_assoc, hbits, List.append_nil, List.append_nil, BitBuf.bits_eq_byte h8]
    · exact .ret ((BitBuf.settled_iff_clean _).2 ⟨by omega, hc⟩) ()

/-- `PUTBITS` of a field that fits appends the field (R122). -/
theorem Codec.putBits_appends {val wd : Nat} (hn : c.neverRefused = true) (hs : c.buf.settled = true)
    (hv : val < 2 ^ wd) (hw : wd ≤ 16) : c.Appends (bitsOf wd val) () (c.putBits val wd) := by
  obtain ⟨h7, hclean⟩ := (BitBuf.settled_iff_clean _).1 hs
  obtain ⟨bytes, buf, hret, hbits, hs'⟩ :=
    Codec.drain_appends (c := { c with buf := c.buf.append val wd }) 8 hn (BitBuf.append_clean hclean hv (by omega))
      (by show (c.buf.append val wd).nbits.toNat < _; rw [BitBuf.append_nbits (by omega)]; omega)
  refine ⟨bytes, buf, hret, ?_, hs'⟩
  rw [hbits, List.append_nil]
  exact BitBuf.append_bits hclean hv (by omega)

end

end Sys2Proof.Machine
end

section
/-! The two codeword formats, on an encoder and on a decoder (R92 to R94). -/

namespace Sys2Proof.Machine

section
variable {s : State} {side : Side} {p : Code} {e : BitVec 1}

theorem exec_abs_enc (h : shortInRange s.enc.codec.dict.n.toNat p = true) :
    exec (.abs .enc p) s =
      onCodec .enc s (fun c => (c.putBits p.toNat (abParams s.enc.codec.dict.n.toNat).1).bind fun _ c =>
        .ok (abParams s.enc.codec.dict.n.toNat).1 c) fun wd => .value wd := if_pos h

theorem exec_abl_enc (h : longInRange s.enc.codec.dict.n.toNat p = true) :
    exec (.abl .enc p e) s =
      onCodec .enc s (fun c => (c.putBits p.toNat (abParams s.enc.codec.dict.n.toNat).1).bind fun _ c =>
        (c.putBits e.toNat 1).bind fun _ c => .ok ((abParams s.enc.codec.dict.n.toNat).1 + 1) c) fun wd => .value wd :=
  if_pos h

theorem exec_abs_dec (h : shortInRange s.dec.codec.dict.n.toNat p = true) :
    exec (.abs .dec p) s = .next { s with result := .code p } := if_pos h

theorem exec_abl_dec (h : longInRange s.dec.codec.dict.n.toNat p = true) :
    exec (.abl .dec p e) s =
      .next { s with
        result := .code (BitVec.ofNat 16 (longValue (abParams s.dec.codec.dict.n.toNat).2 p.toNat e.toNat)) } :=
  if_pos h

theorem exec_abs_refused (h : shortInRange (s.codec side).dict.n.toNat p = false) :
    exec (.abs side p) s = .refused .notACodeword := if_neg (Bool.eq_false_iff.1 h)

theorem exec_abl_refused (h : longInRange (s.codec side).dict.n.toNat p = false) :
    exec (.abl side p e) s = .refused .notACodeword := if_neg (Bool.eq_false_iff.1 h)

end

section
variable {c : Codec} {n p : Nat}

/-- The field of a short codeword, written by `PUTBITS`, is the codeword (R92). -/
theorem Codec.putShort_appends (hn : c.neverRefused = true) (hs : c.buf.settled = true) (h1 : 258 ≤ n) (h2 : n ≤ 65536)
    (hp : p < (abParams n).2) (wd : Nat) :
    c.Appends (codewordBits n p) wd ((c.putBits p (abParams n).1).bind fun _ d => .ok wd d) := by
  rw [codewordBits_of_short hp]
  exact (Codec.putBits_appends hn hs (lt_two_pow_of_short h1 h2 hp) (abParams_spec h1 h2).1).bind_ret wd

/-- The fields of a long codeword, written one after the other, are the codeword of `2 * p + e - t` (R93). -/
theorem Codec.putLong_appends {e : Nat} (hn : c.neverRefused = true) (hs : c.buf.settled = true) (h1 : 258 ≤ n)
    (h2 : n ≤ 65536) (ht : (abParams n).2 ≤ p) (hp : p < 2 ^ (abParams n).1) (he : e < 2) (wd : Nat) :
    c.Appends (codewordBits n (longValue (abParams n).2 p e)) wd
      ((c.putBits p (abParams n).1).bind fun _ d => (d.putBits e 1).bind fun _ g => .ok wd g) := by
  rw [codewordBits_longValue ht he]
  refine (Codec.putBits_appends hn hs hp (abParams_spec h1 h2).1).bind fun bytes buf hs' => ?_
  exact (Codec.putBits_appends (c := { c.pushed bytes with buf := buf }) hn hs' he (by decide)).bind_ret wd

end

/-- Settles O17: on an encoder the fields written are the codeword (`Codec.putShort_appends`,
`Codec.putLong_appends`); a decoder assembles the operand; fields out of range are refused. -/
theorem codewordFormats : Obligations.CodewordFormats := by
  intro s
  refine ⟨fun p hn hnever hs hp => ?_, fun p e hn hnever hs hp => ?_,
    fun p hp => exec_abs_dec ((shortInRange_iff _ _).2 hp), fun p e hp => exec_abl_dec hp,
    fun side p hp => exec_abs_refused hp, fun side p e hp => exec_abl_refused hp⟩
  all_goals obtain ⟨hlo, hhi⟩ := (isAlphabet_iff _).1 hn
  · obtain ⟨bytes, buf, hexec, hbits, -⟩ :=
      Codec.Appends.toStep (exec_abs_enc ((shortInRange_iff _ _).2 hp)) (Codec.putShort_appends hnever hs hlo hhi hp _)
    exact ⟨bytes, buf, hexec, hbits⟩
  · obtain ⟨ht, hk⟩ := (longInRange_iff _ _).1 hp
    obtain ⟨bytes, buf, hexec, hbits, -⟩ :=
      Codec.Appends.toStep (exec_abl_enc hp) (Codec.putLong_appends hnever hs hlo hhi ht hk e.isLt _)
    exact ⟨bytes, buf, hexec, hbits⟩

/-- Settles O58: the model's decoder, run on each of the words written out. -/
theorem encodedWordsDecode : Obligations.EncodedWordsDecode := by
  unfold Obligations.EncodedWordsDecode
  exact ⟨rfl, rfl, rfl, rfl, rfl, rfl, rfl, rfl, rfl, rfl, rfl, rfl⟩

end Sys2Proof.Machine
end

section
/-! One transaction on a port, and the bit packer and unpacker, as instructions (spec/40_bitio.md R120 to R124). -/

namespace Sys2Proof.Machine

/-! ### The source port (R120) -/

theorem exec_srcPull (s : State) (side : Side) :
    exec (.srcPull side) s =
      .next { s.setCodec side (s.codec side).srcPull.2 with result := pullResult (s.codec side).srcPull.1 } := rfl

/-- Settles O7: of the two outcomes of `Codec.srcPull_cases`, the source selects one. -/
theorem sourcePullTakesNextByte : Obligations.SourcePullTakesNextByte := by
  intro s side
  rw [exec_srcPull]
  rcases (s.codec side).srcPull_cases with ⟨hs, h⟩ | ⟨b, bs, hs, h⟩ <;> rw [hs, h]
  · refine ⟨nofun, fun _ => ?_⟩
    rw [State.setCodec_codec]
    rfl
  · refine ⟨fun _ _ heq => ?_, nofun⟩
    cases heq
    rfl

/-! ### The sink port (R121) -/

section
variable {p : Port} {as : List SinkAnswer}

/-- Past the end of its script a sink accepts (log entry 6). -/
theorem Port.push_script_end (hp : p.status = .mayRefuse) (ha : p.answers = []) (b : Byte) :
    p.push b = (true, p.accept b) := by rw [Port.push, hp, ha]

theorem Port.push_script_ok (hp : p.status = .mayRefuse) (ha : p.answers = .ok :: as) (b : Byte) :
    p.push b = (true, { p with answers := as }.accept b) := by rw [Port.push, hp, ha]

theorem Port.push_script_refuse (hp : p.status = .mayRefuse) (ha : p.answers = .refuse :: as) (b : Byte) :
    p.push b = (false, { p with answers := as }.refuse b) := by rw [Port.push, hp, ha]

/-- A refused byte was kept or was not (spec/93 U3). -/
theorem Port.refuse_eq (p : Port) (b : Byte) :
    ∃ kept : List Byte, (kept = [] ∨ kept = [b]) ∧
      p.refuse b = { p with sink := p.sink ++ kept, draws := p.draws + 1 } := by
  unfold Port.refuse
  split
  · exact ⟨[b], .inr rfl, rfl⟩
  · exact ⟨[], .inl rfl, by rw [List.append_nil]⟩

end

theorem Codec.sinkPush_of_accepted {c : Codec} {b : Byte} {port : Port} (h : c.port.push b = (true, port)) :
    c.sinkPush b = .ok () { c with port := port } := by rw [Codec.sinkPush, h]

theorem Codec.sinkPush_of_refused {c : Codec} {b : Byte} {port : Port} (h : c.port.push b = (false, port)) :
    c.sinkPush b = .failed ({ c with port := port }.raiseFail .sinkFail) := by rw [Codec.sinkPush, h]

theorem exec_sinkPush (s : State) (side : Side) (b : Byte) :
    exec (.sinkPush side b) s = ((s.codec side).sinkPush b).toStep (s.setCodec side) fun _ => .unit := rfl

section
variable {s : State} {side : Side} {b : Byte} {port : Port}

theorem exec_sinkPush_of_accepted (h : (s.codec side).port.push b = (true, port)) :
    exec (.sinkPush side b) s =
      .next { s.setCodec side { s.codec side with port := port } with result := .unit } := by
  rw [exec_sinkPush, Codec.sinkPush_of_accepted h, Ans.toStep_ok]

theorem exec_sinkPush_of_refused (h : (s.codec side).port.push b = (false, port)) :
    exec (.sinkPush side b) s =
      .next { s.setCodec side ({ s.codec side with port := port }.raiseFail .sinkFail) with result := .failed } := by
  rw [exec_sinkPush, Codec.sinkPush_of_refused h, Ans.toStep_failed]

end

/-- Settles O8: the port answers in one of four ways, and `SINK_PUSH` goes on or fails as it answers. -/
theorem sinkPushDeliversOrFails : Obligations.SinkPushDeliversOrFails := by
  intro s side b
  refine ⟨fun hp => exec_sinkPush_of_accepted (Port.push_neverRefuses hp b),
    fun hp ha => exec_sinkPush_of_accepted (Port.push_script_end hp ha b),
    fun as hp ha => exec_sinkPush_of_accepted (Port.push_script_ok hp ha b), fun as hp ha => ?_⟩
  obtain ⟨kept, hkept, hport⟩ := Port.refuse_eq { (s.codec side).port with answers := as } b
  refine ⟨kept, hkept, ?_⟩
  rw [exec_sinkPush_of_refused (Port.push_script_refuse hp ha b), hport]
  rfl

/-! ### The packer (R122, R123) -/

/-- Settles O9: in its range `PUTBITS` is the pseudocode of R122, which appends the field
(`Codec.putBits_appends`). -/
theorem putBitsAppendsField : Obligations.PutBitsAppendsField := by
  intro s val wd hwf hnever hs
  obtain ⟨hwidth, hfits⟩ := Bool.and_eq_true_iff.1 hwf
  have happ := Codec.putBits_appends hnever hs ((fitsField_iff _ _).1 hfits) ((isFieldWidth_iff _).1 hwidth).2
  rw [← Codec.putField_of_wf hwf] at happ
  exact Codec.Appends.toStep (f := fun c => c.putField val wd) (res := fun _ => .unit) rfl happ

section
variable {c : Codec} {port : Port}

theorem Codec.flushBits_of_empty (h : c.buf.nbits = 0) : c.flushBits = .ok () c := by
  rw [Codec.flushBits, h]
  rfl

theorem Codec.flushBits_of_bits (h : c.buf.nbits ≠ 0) :
    c.flushBits =
      (c.sinkPush (c.buf.acc.setWidth 8)).bind fun _ d => .ok () { d with buf := { acc := 0, nbits := 0 } } :=
  if_pos (Nat.pos_of_ne_zero fun h0 => h (BitVec.eq_of_toNat_eq h0))

end

theorem exec_flushBits (s : State) :
    exec .flushBits s = s.enc.codec.flushBits.toStep (s.setCodec .enc) fun _ => .unit := rfl

/-- Settles O10: with bits in hand `FLUSHBITS` is one sink transaction, and it goes on only where the byte was
accepted. -/
theorem flushBitsPushesLastByte : Obligations.FlushBitsPushesLastByte := by
  intro s
  refine ⟨fun h => ?_, fun h => ⟨fun port hpush => ?_, fun port hpush => ?_⟩⟩ <;> rw [exec_flushBits]
  · rw [Codec.flushBits_of_empty h]
    rfl
  · rw [Codec.flushBits_of_bits h, Codec.sinkPush_of_accepted hpush]
    rfl
  · rw [Codec.flushBits_of_bits h, Codec.sinkPush_of_refused hpush]
    exact ⟨_, rfl, rfl, rfl, rfl, rfl⟩

/-! ### The unpacker (R124) -/

theorem exec_getBits_of_wf {wd : BitVec 5} (h : (Instr.getBits wd).wf = true) (s : State) :
    exec (.getBits wd) s =
      .next { s.setCodec .dec (s.dec.codec.getBits wd.toNat).2 with
        result := bitsResult (s.dec.codec.getBits wd.toNat).1 } := by
  rw [← Codec.getField_of_wf h]
  rfl

/-- Settles O11: of the two outcomes of `Codec.getBits_cases`, the number of bits ahead selects one. -/
theorem getBitsTakesFieldOnDemand : Obligations.GetBitsTakesFieldOnDemand := by
  intro s wd hwf hs
  rw [exec_getBits_of_wf hwf]
  rcases Codec.getBits_cases ((isFieldWidth_iff _).1 hwf).2 hs with
    ⟨hlen, d, hget, htook, hahead⟩ | ⟨hlen, buf, hget, hbits⟩
  · refine ⟨fun _ => ⟨d.buf, d.port.source, ?_, hahead, htook.settled⟩, fun hlt => absurd hlen hlt.not_ge⟩
    rw [hget, ← htook.frame]
    rfl
  · refine ⟨fun hle => absurd hle hlen.not_ge, fun _ => ⟨buf, ?_, hbits⟩⟩
    rw [hget]
    rfl

end Sys2Proof.Machine
end

section
/-! The adjusted-binary code at an alphabet size (spec/41_abcode.md R140 to R146): its parameters, its widths, and that
every bit pattern is read as the codeword it is. -/

namespace Sys2Proof.Machine

section
variable {n v p : Nat} {bits : List Bool}

/-! ### The parameters (R140) -/

/-- `k` is at least 8, and `t` is between 1 and `2 ^ k` (R140). -/
theorem abParams_bounds (h1 : 258 ≤ n) (h2 : n ≤ 65536) :
    8 ≤ (abParams n).1 ∧ 2 ^ (abParams n).1 ≤ n ∧ 1 ≤ (abParams n).2 ∧ (abParams n).2 ≤ 2 ^ (abParams n).1 := by
  obtain ⟨-, ht⟩ := abParams_spec h1 h2
  have hpow : 2 ^ (abParams n).1 ≤ n := Nat.log2_self_le (by omega)
  have hlt : n < 2 ^ ((abParams n).1 + 1) := Nat.lt_log2_self
  rw [Nat.pow_succ'] at hlt
  exact ⟨(Nat.le_log2 (by omega)).2 (by omega), hpow, by omega, by omega⟩

/-- At a power of two every value is short, in a fixed width (R140, R146). -/
theorem abParams_two_pow (m : Nat) : abParams (2 ^ m) = (m, 2 ^ m) := by
  rw [abParams, Nat.log2_two_pow, Nat.pow_succ', Nat.two_mul, Nat.add_sub_cancel]

/-! ### The widths (R98) -/

theorem codewordBits_length (n v : Nat) :
    (codewordBits n v).length = if v < (abParams n).2 then (abParams n).1 else (abParams n).1 + 1 := by
  unfold codewordBits
  dsimp only
  split <;> simp

/-- With 16 bits in a short codeword the alphabet has 65536 codes, and all of them are short. -/
theorem codewordBits_length_le (h1 : 258 ≤ n) (h2 : n ≤ 65536) (hv : v < n) : (codewordBits n v).length ≤ 16 := by
  obtain ⟨hk, ht⟩ := abParams_spec h1 h2
  obtain ⟨-, hpow, -, -⟩ := abParams_bounds h1 h2
  rw [codewordBits_length]
  split
  · exact hk
  · have hne : (abParams n).1 ≠ 16 := fun h => by rw [h] at ht hpow; omega
    omega

/-! ### What is read (R94, R144) -/

/-- Bits enough for a field begin with one. -/
theorem exists_bitsOf_append {k : Nat} (h : k ≤ bits.length) : ∃ p rest, p < 2 ^ k ∧ bits = bitsOf k p ++ rest := by
  have hlen : (bits.take k).length = k := List.length_take_of_le h
  refine ⟨ofBits (bits.take k), bits.drop k, (ofBits_lt _).trans_eq (congrArg (2 ^ ·) hlen), ?_⟩
  rw [bitsOf_ofBits hlen.le, hlen, Nat.sub_self, List.replicate_zero, List.append_nil, List.take_append_drop]

theorem readCodeword_of_length_lt (h : bits.length < (abParams n).1) : readCodeword n bits = none := if_pos h

/-- A long codeword that lacks its last bit is none. -/
theorem readCodeword_bitsOf_of_long (hp : p < 2 ^ (abParams n).1) (ht : (abParams n).2 ≤ p) :
    readCodeword n (bitsOf (abParams n).1 p) = none := by
  have hfield : ofBits ((bitsOf (abParams n).1 p).take (abParams n).1) = p := by
    simpa using ofBits_take_bitsOf (rest := []) hp
  unfold readCodeword
  dsimp only
  rw [if_neg (by simp), hfield, if_neg ht.not_gt, List.drop_of_length_le (by simp)]

/-- Any bits are too few for a codeword, or they begin with the codeword of the value read (R144). -/
theorem readCodeword_cases (n : Nat) (bits : List Bool) :
    (readCodeword n bits = none ∧ bits.length ≤ (abParams n).1) ∨
      ∃ v rest, readCodeword n bits = some (v, rest) ∧ bits = codewordBits n v ++ rest := by
  rcases Nat.lt_or_ge bits.length (abParams n).1 with hlt | hle
  · exact .inl ⟨readCodeword_of_length_lt hlt, hlt.le⟩
  · obtain ⟨p, rest, hp, rfl⟩ := exists_bitsOf_append hle
    rcases Nat.lt_or_ge p (abParams n).2 with hs | ht
    · exact .inr ⟨p, rest, readCodeword_short hp hs, by rw [codewordBits_of_short hs]⟩
    · cases rest with
      | nil =>
        rw [List.append_nil]
        exact .inl ⟨readCodeword_bitsOf_of_long hp ht, (length_bitsOf _ _).le⟩
      | cons e rest =>
        have he : bitsOf 1 e.toNat = [e] := by cases e <;> rfl
        refine .inr ⟨_, rest, readCodeword_long hp ht e, ?_⟩
        rw [codewordBits_longValue ht e.toNat_lt, he, List.append_assoc]
        rfl

end

/-- Settles O15: a code below the alphabet size is short or long, and either format is read back
(`readCodeword_codewordBits`). -/
theorem codewordInverse : Obligations.CodewordInverse :=
  fun _ _ rest h1 h2 hv => readCodeword_codewordBits h1 h2 hv rest

/-- Settles O16: whatever is read is the codeword it was read from (`readCodeword_cases`); the widths are those of the
two formats. -/
theorem codewordComplete : Obligations.CodewordComplete := by
  refine ⟨fun n bits v rest h1 h2 h => ⟨readCodeword_lt h1 h2 h, ?_⟩, fun n bits h1 h2 hlong => ?_,
    fun n v h1 h2 hv => ⟨codewordBits_length n v, ?_, codewordBits_length_le h1 h2 hv⟩, fun m v _ _ hv => ?_⟩
  · rcases readCodeword_cases n bits with ⟨hnone, -⟩ | ⟨v', rest', hsome, hbits⟩
    · rw [hnone] at h; cases h
    · rw [hsome] at h; cases h; exact hbits
  · rcases readCodeword_cases n bits with ⟨-, hle⟩ | ⟨v, rest, hsome, -⟩
    · exact absurd hlong hle.not_gt
    · rw [hsome]; rfl
  · obtain ⟨hk, -⟩ := abParams_bounds h1 h2
    rw [codewordBits_length]
    split <;> omega
  · rw [codewordBits_of_short (by rw [abParams_two_pow]; exact hv), abParams_two_pow]

end Sys2Proof.Machine
end

section
/-! The adjusted-binary code as instructions: `AB_PARAMS`, `AB_ENC` and `AB_DEC` (spec/41_abcode.md R140 to R142). -/

namespace Sys2Proof.Machine

/-! ### `AB_PARAMS` (R140) -/

theorem exec_abParams_of_alphabet {n : BitVec 17} (h : isAlphabet n = true) (s : State) :
    exec (.abParams n) s = .next { s with result := .params (abParams n.toNat).1 (abParams n.toNat).2 } := by
  rw [← abParamsOf_of_alphabet h]
  rfl

/-- Settles O12, from the equation of `k` and `t` (`abParams_spec`) and their ranges (`abParams_bounds`). -/
theorem abParamsOfAlphabet : Obligations.AbParamsOfAlphabet := by
  intro s n hn
  obtain ⟨h1, h2⟩ := (isAlphabet_iff n).1 hn
  obtain ⟨hk, ht⟩ := abParams_spec h1 h2
  obtain ⟨hk8, hpow, ht1, htk⟩ := abParams_bounds h1 h2
  refine ⟨_, _, exec_abParams_of_alphabet hn s, hpow, ?_, ?_, ht1, htk, hk8, hk, ?_⟩ <;> omega

/-! ### `AB_ENC` (R141) -/

section
variable {c : Codec} {n v : Nat}

theorem Codec.writeCode_of_short (h : v < (abParams n).2) (c : Codec) :
    c.writeCode v n = (c.putBits v (abParams n).1).bind fun _ d => .ok (abParams n).1 d := if_pos h

/-- The fields that `AB_ENC` takes from `v + t` are those the value is assembled from (R93). -/
theorem Codec.writeCode_longValue {p e : Nat} (ht : (abParams n).2 ≤ p) (he : e < 2) (c : Codec) :
    c.writeCode (longValue (abParams n).2 p e) n =
      (c.putBits p (abParams n).1).bind fun _ d => (d.putBits e 1).bind fun _ g => .ok ((abParams n).1 + 1) g := by
  have hsum : longValue (abParams n).2 p e + (abParams n).2 = 2 * p + e := Nat.sub_add_cancel (by omega)
  have hp : (2 * p + e) >>> 1 = p := by rw [Nat.shiftRight_eq_div_pow]; omega
  have hlow : (2 * p + e) &&& 1 = e := by rw [Nat.and_one_is_mod]; omega
  unfold Codec.writeCode
  dsimp only
  rw [if_neg (by rw [longValue]; omega), hsum, hp, hlow]

/-- The codeword of a code below the alphabet size is written, and its width answered (R141). -/
theorem Codec.writeCode_appends (hn : c.neverRefused = true) (hs : c.buf.settled = true) (h1 : 258 ≤ n)
    (h2 : n ≤ 65536) (hv : v < n) :
    c.Appends (codewordBits n v) (codewordBits n v).length (c.writeCode v n) := by
  rcases short_or_long h1 h2 hv with hshort | ⟨p, e, ht, hp, rfl⟩
  · rw [codewordBits_length, if_pos hshort, Codec.writeCode_of_short hshort]
    exact Codec.putShort_appends hn hs h1 h2 hshort _
  · rw [codewordBits_length, if_neg (by rw [longValue]; omega), Codec.writeCode_longValue ht e.toNat_lt]
    exact Codec.putLong_appends hn hs h1 h2 ht hp e.toNat_lt _

end

/-- Settles O13: in its range `AB_ENC` writes the codeword of its operand (`Codec.writeCode_appends`). -/
theorem abEncWritesCodeword : Obligations.AbEncWritesCodeword := by
  intro s v n hwf hnever hs
  obtain ⟨hn, hlt⟩ := Bool.and_eq_true_iff.1 hwf
  obtain ⟨h1, h2⟩ := (isAlphabet_iff n).1 hn
  have hv : v.toNat < n.toNat := of_decide_eq_true hlt
  have happ := Codec.writeCode_appends hnever hs h1 h2 hv
  rw [← Codec.abEnc_of_lt h1 h2 hv] at happ
  exact Codec.Appends.toStep (f := fun c => c.abEnc v.toNat n.toNat) (res := fun wd => .value wd) rfl happ

/-! ### `AB_DEC` (R142) -/

/-- With no codeword ahead the source is read to its end, and the run fails (R142, R273). -/
theorem Codec.readCode_of_none {c : Codec} {n : Nat} (h1 : 258 ≤ n) (h2 : n ≤ 65536) (hc : c.buf.settled = true)
    (h : readCodeword n c.ahead = none) :
    ∃ buf, c.readCode n =
      .failed (({ c with buf := buf, port := { c.port with source := [] } } : Codec).raiseFail .truncated) := by
  unfold Codec.readCode
  unfold readCodeword at h
  dsimp only at h ⊢
  rcases Codec.getBits_cases (abParams_spec h1 h2).1 hc with ⟨hlen, d, hd, htook, hahead⟩ | ⟨-, buf, hd, -⟩ <;> rw [hd]
  · rw [if_neg hlen.not_gt, ← hahead] at h
    dsimp only
    split at h
    · cases h
    · rename_i hlong
      rw [if_neg hlong]
      rcases Codec.getBits_cases (wd := 1) (by decide) htook.settled with ⟨hlen', -⟩ | ⟨-, buf, he, -⟩
      · obtain ⟨e, rest, hcons⟩ := List.exists_cons_of_length_pos hlen'
        rw [hcons] at h
        cases h
      · rw [he, htook.frame]
        exact ⟨buf, rfl⟩
  · exact ⟨buf, rfl⟩

theorem exec_abDec_of_alphabet {n : BitVec 17} (h : isAlphabet n = true) (s : State) :
    exec (.abDec n) s =
      (s.dec.codec.readCode n.toNat).toStep (s.setCodec .dec) fun v => .code (BitVec.ofNat 16 v) := by
  obtain ⟨h1, h2⟩ := (isAlphabet_iff n).1 h
  rw [← Codec.abDec_of_alphabet h1 h2]
  rfl

/-- Settles O14: `AB_DEC` is `readCodeword` on the bits ahead (`Codec.readCode_cases`, `Codec.readCode_of_none`). -/
theorem abDecReadsCodeword : Obligations.AbDecReadsCodeword := by
  intro s n hn hs
  obtain ⟨h1, h2⟩ := (isAlphabet_iff n).1 hn
  rw [exec_abDec_of_alphabet hn]
  refine ⟨fun v rest hread => ?_, fun hread => ?_⟩
  · rcases Codec.readCode_cases h1 h2 hs with ⟨v', d, hread', hok, htook⟩ | ⟨hnone, -⟩
    · rw [hread] at hread'
      obtain ⟨rfl, rfl⟩ := Prod.mk.inj (Option.some.inj hread')
      refine ⟨d.buf, d.port.source, ?_, rfl, htook.settled⟩
      rw [hok, ← htook.frame, Ans.toStep_ok]
    · rw [hread] at hnone
      cases hnone
  · obtain ⟨buf, hfail⟩ := Codec.readCode_of_none h1 h2 hs hread
    exact ⟨buf, by rw [hfail]; rfl⟩

end Sys2Proof.Machine
end

section
/-! The queries of the dictionary: the leaf test and the cyclic successor (spec/42_dictionary.md R161, R165, R166). -/

namespace Sys2Proof.Machine

theorem exec_dictAssigned (s : State) (side : Side) (c : Code) :
    exec (.dictAssigned side c) s = .next { s with result := .flag ((s.codec side).dict.assigned c) } := rfl

theorem exec_dictIsLeaf (s : State) (side : Side) (c : Code) :
    exec (.dictIsLeaf side c) s = .next { s with result := .flag ((s.codec side).dict.leafAnswer c) } := rfl

theorem exec_succ (s : State) (side : Side) (c : Code) :
    exec (.succ side c) s = .next { s with result := .code ((s.codec side).dict.succAnswer c) } := rfl

section
variable {d : Dict} {c x : Code}

theorem Dict.assigned_eq_decide (d : Dict) (c : Code) :
    d.assigned c = decide (c.toNat < 258 ∨ c.toNat < d.nextFree.toNat) := (Bool.decide_or _ _).symm

/-- A code has the prefix `c` where some listed cell says so: `isLeaf` as a statement about cells. -/
theorem Dict.isLeaf_iff_cells :
    d.isLeaf c = true ↔
      ∀ cell ∈ d.pfx, 258 ≤ cell.1 → cell.1 < d.nextFree.toNat → cell.1 ≠ c.toNat → cell.2 ≠ c := by
  simp only [Dict.isLeaf, List.all_eq_true, Bool.not_eq_true', Bool.and_eq_false_imp, Bool.and_eq_true,
    decide_eq_true_eq, bne_iff_ne, beq_eq_false_iff_ne, and_imp]
  exact Iff.rfl

/-- No assigned string code but a leaf itself has the leaf as its prefix, in every dictionary (R165). -/
theorem Dict.not_prefix_of_isLeaf (hl : d.isLeaf c = true) (hx : d.isAssignedString x = true) (hne : x ≠ c) :
    readMem d.pfx x.toNat ≠ some c := by
  obtain ⟨hlo, hhi⟩ := (Dict.isAssignedString_iff _ _).1 hx
  exact fun hread => Dict.isLeaf_iff_cells.1 hl _ (mem_of_readMem hread) hlo hhi (mt BitVec.eq_of_toNat_eq hne) rfl

/-- `DICT_ISLEAF` is R165's test: in canonical form every listed cell is what is read. -/
theorem Dict.Inv.isLeaf_iff (h : d.Inv) :
    d.isLeaf c = true ↔ ¬ ∃ x : Code, x ≠ c ∧ d.isAssignedString x = true ∧ readMem d.pfx x.toNat = some c := by
  refine ⟨fun hl ⟨x, hne, hx, hread⟩ => Dict.not_prefix_of_isLeaf hl hx hne hread, fun hno => ?_⟩
  rw [Dict.isLeaf_iff_cells]
  rintro ⟨a, q⟩ hmem hlo hhi hne rfl
  have hcode : (BitVec.ofNat 16 a).toNat = a := by
    have := h.max_range
    have := h.free_hi
    rw [BitVec.toNat_ofNat, Nat.mod_eq_of_lt (by omega)]
  refine hno ⟨BitVec.ofNat 16 a, ?_, (Dict.isAssignedString_iff _ _).2 ?_, ?_⟩
  · rintro rfl
    exact hne hcode.symm
  · rw [hcode]
    exact ⟨hlo, hhi⟩
  · rw [hcode]
    exact readMem_of_mem h.pfx_wf hmem

theorem Dict.succ_eq_ite (d : Dict) (c : Code) : d.succ c = if c.toNat + 1 < d.max.toNat then c + 1 else 258 := by
  have hstep : BitVec.ofNat 16 (c.toNat + 1) = c + 1 := BitVec.eq_of_toNat_eq (by simp)
  rw [← hstep]
  rfl

end

/-- Settles O19: within its range each answer is the query of its rule (`Dict.assigned_eq_decide`,
`Dict.Inv.isLeaf_iff`, `Dict.succ_eq_ite`). -/
theorem dictionaryQueries : Obligations.DictionaryQueries := by
  intro s side c
  refine ⟨?_, ⟨_, exec_dictIsLeaf s side c, fun h hc => ?_⟩, ⟨_, exec_succ s side c, fun hlo hhi => ?_⟩⟩
  · rw [exec_dictAssigned, Dict.assigned_eq_decide]
  · rw [Dict.leafAnswer_of_assigned hc]
    exact h.isLeaf_iff
  · rw [Dict.succAnswer_of_inScan ((Dict.inScan_iff _ _).2 ⟨hlo, hhi⟩), Dict.succ_eq_ite]

end Sys2Proof.Machine
end

section
/-! The index of an encoder (spec/42_dictionary.md R162 to R164). -/

namespace Sys2Proof.Machine

theorem pairKey_eq_iff {p q : Code} {a b : Byte} : pairKey q a = pairKey p b ↔ q = p ∧ a = b :=
  ⟨pairKey_inj, by rintro ⟨rfl, rfl⟩; rfl⟩

/-- After `INDEX_ADD(p, b, c)` the pair `(p, b)` gives `c` (R163). -/
theorem Encoder.indexAdd_lookup (e : Encoder) (p : Code) (b : Byte) (c q : Code) (a : Byte) :
    (e.indexAdd p b c).lookup q a = if q = p ∧ a = b then some c else e.lookup q a := by
  rw [Encoder.lookup, Encoder.indexAdd_index, readMem_writeMem, ← Encoder.lookup]
  simp only [pairKey_eq_iff]

/-- After `INDEX_REMOVE(p, b)` the pair `(p, b)` is absent (R164). -/
theorem Encoder.indexRemove_lookup {e : Encoder} (h : Mem.wf e.index) (p : Code) (b : Byte) (q : Code) (a : Byte) :
    (e.indexRemove p b).lookup q a = if q = p ∧ a = b then none else e.lookup q a := by
  rw [Encoder.lookup, Encoder.indexRemove_index, readMem_eraseMem h, ← Encoder.lookup]
  simp only [pairKey_eq_iff]

theorem exec_dictLookup (s : State) (p : Code) (b : Byte) :
    exec (.dictLookup p b) s = .next { s with result := codeResult (s.enc.lookupAnswer p b) } := rfl

theorem exec_indexAdd (s : State) (p : Code) (b : Byte) (c : Code) :
    exec (.indexAdd p b c) s = .next { s with enc := s.enc.indexAdd p b c, result := .unit } := rfl

theorem exec_indexRemove (s : State) (p : Code) (b : Byte) :
    exec (.indexRemove p b) s = .next { s with enc := s.enc.indexRemove p b, result := .unit } := rfl

/-- Settles O20, from the lookups after an addition (`Encoder.indexAdd_lookup`) and a removal
(`Encoder.indexRemove_lookup`). -/
theorem indexOperations : Obligations.IndexOperations := by
  intro s p b hp
  refine ⟨?_, fun c _ => ⟨_, exec_indexAdd s p b c, s.enc.indexAdd_lookup p b c⟩,
    fun hwf => ⟨_, exec_indexRemove s p b, Encoder.indexRemove_lookup hwf p b⟩⟩
  rw [exec_dictLookup, Encoder.lookupAnswer_of_data hp]

end Sys2Proof.Machine
end

section
/-! The victim scan (spec/42_dictionary.md R167): the first qualifying code in cyclic order from the cursor. -/

namespace Sys2Proof.Machine

section
variable {d : Dict} {c v excl : Code} {fuel : Nat}

/-- The scan passes a code over. -/
def Dict.passedOver (d : Dict) (excl c : Code) : Prop := c = excl ∨ d.isLeaf c = false

theorem Dict.not_passedOver_iff : ¬ d.passedOver excl c ↔ c ≠ excl ∧ d.isLeaf c = true := by
  rw [Dict.passedOver, not_or, Bool.not_eq_false]

theorem Dict.scan_succ_of_passedOver (h : d.passedOver excl c) :
    d.scan excl (fuel + 1) c = d.scan excl fuel (d.succ c) := by
  refine if_neg fun hc => ?_
  rw [Bool.and_eq_true, bne_iff_ne] at hc
  exact Dict.not_passedOver_iff.2 hc h

theorem Dict.scan_succ_of_not_passedOver (h : ¬ d.passedOver excl c) : d.scan excl (fuel + 1) c = some c := by
  refine if_pos ?_
  rw [Bool.and_eq_true, bne_iff_ne]
  exact Dict.not_passedOver_iff.1 h

/-- A scan that answers a code passed over every code before it, and found it within its fuel. -/
theorem Dict.scan_eq_some (h : d.scan excl fuel c = some v) :
    ∃ j < fuel, v = d.succ^[j] c ∧ ∀ i < j, d.passedOver excl (d.succ^[i] c) := by
  induction fuel generalizing c with
  | zero => cases h
  | succ fuel ih =>
    by_cases hc : d.passedOver excl c
    · rw [Dict.scan_succ_of_passedOver hc] at h
      obtain ⟨j, hj, hv, hbefore⟩ := ih h
      refine ⟨j + 1, Nat.succ_lt_succ hj, hv, fun i hi => ?_⟩
      cases i with
      | zero => exact hc
      | succ i => exact hbefore i (Nat.lt_of_succ_lt_succ hi)
    · rw [Dict.scan_succ_of_not_passedOver hc] at h
      cases h
      exact ⟨0, fuel.succ_pos, rfl, nofun⟩

/-- A scan that answers none passed over as many codes as it had fuel. -/
theorem Dict.scan_eq_none (h : d.scan excl fuel c = none) (i : Nat) (hi : i < fuel) :
    d.passedOver excl (d.succ^[i] c) := by
  induction fuel generalizing c i with
  | zero => exact absurd hi i.not_lt_zero
  | succ fuel ih =>
    by_cases hc : d.passedOver excl c
    · rw [Dict.scan_succ_of_passedOver hc] at h
      cases i with
      | zero => exact hc
      | succ i => exact ih h i (Nat.lt_of_succ_lt_succ hi)
    · rw [Dict.scan_succ_of_not_passedOver hc] at h
      cases h

theorem Dict.succ_toNat (hmax : d.max.toNat ≤ 65536) :
    (d.succ c).toNat = if c.toNat + 1 < d.max.toNat then c.toNat + 1 else 258 := by
  unfold Dict.succ
  split
  · rw [BitVec.toNat_ofNat, Nat.mod_eq_of_lt (by omega)]
  · rfl

/-- The `i`-th successor of a string code, counted from 258 modulo the number of string codes below `MAX` (R166). -/
theorem Dict.iterate_succ_toNat (hmax : d.max.toNat ≤ 65536) (hc : d.inScan c = true) (i : Nat) :
    (d.succ^[i] c).toNat = 258 + (c.toNat - 258 + i) % (d.max.toNat - 258) := by
  obtain ⟨hlo, hhi⟩ := (Dict.inScan_iff _ _).1 hc
  induction i with
  | zero => rw [Function.iterate_zero_apply, Nat.add_zero, Nat.mod_eq_of_lt (by omega)]; omega
  | succ i ih =>
    have hlt : (c.toNat - 258 + i) % (d.max.toNat - 258) < d.max.toNat - 258 := Nat.mod_lt _ (by omega)
    rw [Function.iterate_succ_apply', Dict.succ_toNat hmax, ih, ← Nat.add_assoc, ← Nat.mod_add_mod (c.toNat - 258 + i)]
    generalize (c.toNat - 258 + i) % (d.max.toNat - 258) = r at hlt ⊢
    split
    · rw [Nat.mod_eq_of_lt (by omega), Nat.add_assoc]
    · rw [show r + 1 = d.max.toNat - 258 by omega, Nat.mod_self]

/-- Every string code below `MAX` comes up among the first `MAX - 258` successors of any other. -/
theorem Dict.exists_iterate_succ_eq (hmax : d.max.toNat ≤ 65536) (hc : d.inScan c = true) (hv : d.inScan v = true) :
    ∃ i < d.max.toNat - 258, d.succ^[i] c = v := by
  obtain ⟨hclo, hchi⟩ := (Dict.inScan_iff _ _).1 hc
  obtain ⟨hvlo, hvhi⟩ := (Dict.inScan_iff _ _).1 hv
  have key := Dict.iterate_succ_toNat hmax hc
  rcases Nat.lt_or_ge v.toNat c.toNat with hlt | hle
  · refine ⟨v.toNat + (d.max.toNat - 258) - c.toNat, by omega, BitVec.eq_of_toNat_eq ?_⟩
    rw [key, show c.toNat - 258 + (v.toNat + (d.max.toNat - 258) - c.toNat) =
      v.toNat - 258 + (d.max.toNat - 258) by omega, Nat.add_mod_right, Nat.mod_eq_of_lt (by omega)]
    omega
  · refine ⟨v.toNat - c.toNat, by omega, BitVec.eq_of_toNat_eq ?_⟩
    rw [key, Nat.mod_eq_of_lt (by omega)]
    omega

/-- Which codes the scan visits, where every string code below `MAX` is assigned. -/
theorem Dict.isAssignedString_eq_inScan (h : d.nextFree = d.max) (c : Code) : d.isAssignedString c = d.inScan c := by
  rw [Dict.isAssignedString, Dict.inScan, h]

end

theorem exec_dictVictim (s : State) (side : Side) (excl : Code) :
    exec (.dictVictim side excl) s = .next { s with result := codeResult ((s.codec side).dict.victim excl) } := rfl

/-- Settles O21: what the scan answers (`Dict.scan_some`, `Dict.scan_eq_some`, `Dict.scan_eq_none`); a scan that ends
without an answer has passed over every string code, since their cycle has `MAX - 258` codes
(`Dict.exists_iterate_succ_eq`). -/
theorem victimIsFirstLeafFromCursor : Obligations.VictimIsFirstLeafFromCursor := by
  intro s side excl hexcl hfree hmax hlo hhi
  have hcur := (Dict.inScan_iff _ _).2 ⟨hlo, hhi⟩
  refine ⟨_, exec_dictVictim s side excl, fun v hv => ?_, fun hnone c hc => ?_⟩
  · rw [Dict.victim_of_data hexcl] at hv
    obtain ⟨hscan, hne, hleaf⟩ := Dict.scan_some (by omega) hmax _ hcur hv
    rw [Dict.isAssignedString_eq_inScan hfree]
    exact ⟨hne, hleaf, hscan, Dict.scan_eq_some hv⟩
  · rw [Dict.victim_of_data hexcl] at hnone
    rw [Dict.isAssignedString_eq_inScan hfree] at hc
    obtain ⟨i, hi, rfl⟩ := Dict.exists_iterate_succ_eq hmax hcur hc
    exact Dict.scan_eq_none hnone i hi

end Sys2Proof.Machine
end

section
/-! `DICT_RESET`, `ALPHA_STEP` and `DICT_PENDING` as instructions (spec/42_dictionary.md R160, R172, R176). -/

namespace Sys2Proof.Machine

/-! ### `DICT_RESET` and `ALPHA_STEP` (R160, R176) -/

theorem exec_dictReset_enc (s : State) :
    exec (.dictReset .enc) s = .next { s with enc := s.enc.dictReset, result := .unit } := rfl

theorem exec_dictReset_dec (s : State) :
    exec (.dictReset .dec) s = .next { s with dec := s.dec.dictReset, result := .unit } := rfl

theorem exec_alphaStep (s : State) (side : Side) :
    exec (.alphaStep side) s =
      .next { s.setCodec side ((s.codec side).setDict (s.codec side).dict.alphaStep) with result := .unit } := rfl

/-- Settles O18: on either side the instruction is that side's `DICT_RESET`, written out. -/
theorem dictResetEmptiesDictionary : Obligations.DictResetEmptiesDictionary :=
  ⟨exec_dictReset_enc, exec_dictReset_dec⟩

/-- Settles O25: the instruction is `ALPHA_STEP` of the dictionary, written out. -/
theorem alphaStepSaturates : Obligations.AlphaStepSaturates := exec_alphaStep

/-! ### The slot of an insertion (R172) -/

theorem exec_dictPending (s : State) (side : Side) (excl : Code) :
    exec (.dictPending side excl) s = .next { s with result := codeResult ((s.codec side).dict.pending excl) } := rfl

section
variable {s t : State} {side : Side} {d : Dict} {e f : Encoder} {p v : Code} {b : Byte} {r : Option Code}

theorem Dict.hasFree_of_lt (h : d.nextFree.toNat < d.max.toNat) : d.hasFree = true := (Dict.hasFree_iff d).2 h

theorem Dict.not_hasFree_of_le (h : d.max.toNat ≤ d.nextFree.toNat) : d.hasFree = false :=
  Bool.eq_false_iff.2 (mt (Dict.hasFree_iff d).1 h.not_gt)

/-- The slot an insertion answers is the pending one (R172). -/
theorem Dict.insert_fst (d : Dict) (p : Code) (b : Byte) : (d.insert p b).1 = d.pending p := by
  rcases d.insert_cases p b with ⟨hf, heq⟩ | ⟨hf, v, hv, heq⟩ | ⟨hf, hv, heq⟩ <;> rw [heq]
  · rw [Dict.pending_of_hasFree hf]
  · rw [Dict.pending_of_not_hasFree hf, hv]
  · rw [Dict.pending_of_not_hasFree hf, hv]

/-- The index changes nothing about the slot: an encoder's insertion that returns answers the pending one. -/
theorem Encoder.dictInsert_answers_pending (h : e.dictInsert p b = .ok r f) : r = e.codec.dict.pending p := by
  rcases e.dictInsert_cases p b with ⟨hf, heq⟩ | ⟨hf, v, hv, heq⟩ | ⟨hf, hv, heq⟩ <;> rw [heq] at h
  · cases h
    rw [Dict.pending_of_hasFree hf]
  · rw [Dict.pending_of_not_hasFree hf, hv]
    rcases e.insertRecycling_cases v p b with ⟨q, a, -, -, heq⟩ | ⟨heq, -⟩ <;> rw [heq] at h <;> cases h
    rfl
  · cases h
    rw [Dict.pending_of_not_hasFree hf, hv]

theorem Encoder.dictInsert_ne_failed : e.dictInsert p b ≠ .failed f := by
  rcases e.dictInsert_cases p b with ⟨-, heq⟩ | ⟨-, v, -, heq⟩ | ⟨-, -, heq⟩ <;> rw [heq]
  · nofun
  · rcases e.insertRecycling_cases v p b with ⟨q, a, -, -, heq⟩ | ⟨heq, -⟩ <;> rw [heq] <;> nofun
  · nofun

/-- `DICT_INSERT` on either side records the pending slot as its result. -/
theorem dictInsertOn_result (h : dictInsertOn side p b s = .next t) :
    t.result = codeResult ((s.codec side).dict.pending p) := by
  cases side with
  | enc =>
    rcases Ans.toStep_eq_next.1 h with ⟨r, f, hok, rfl⟩ | ⟨f, hfail, -⟩
    · rw [Encoder.dictInsert_answers_pending hok, State.codec_enc]
    · exact absurd hfail Encoder.dictInsert_ne_failed
  | dec =>
    cases h
    rw [Dict.insert_fst, State.codec_dec]

end

/-- Settles O22: `DICT_PENDING` answers in the two cases of the free list, and the insertion answers the same slot
(`dictInsertOn_result`). -/
theorem pendingIsNextInsertionSlot : Obligations.PendingIsNextInsertionSlot := by
  intro s side excl _
  rw [exec_dictPending]
  refine ⟨?_, fun b t h => ?_⟩
  · split
    · rename_i hlt
      rw [Dict.pending_of_hasFree (Dict.hasFree_of_lt hlt)]
      rfl
    · rename_i hge
      rw [Dict.pending_of_not_hasFree (Dict.not_hasFree_of_le (Nat.le_of_not_lt hge))]
  · rw [dictInsertOn_result h]

end Sys2Proof.Machine
end

section
/-! The three cases of `DICT_INSERT` as instructions (spec/42_dictionary.md R168 to R170). -/

namespace Sys2Proof.Machine

section
variable {d : Dict} {e : Encoder} {p v q : Code} {a b : Byte} {s : State}

theorem Dict.insert_of_hasFree (hf : d.hasFree = true) : d.insert p b = (some d.freeHead, d.grow p b) := if_pos hf

theorem Dict.insert_of_victim (hf : d.hasFree = false) (hv : d.victim p = some v) :
    d.insert p b = (some v, d.recycle v p b) := by
  rw [Dict.insert, if_neg (Bool.eq_false_iff.1 hf), hv]

theorem Dict.insert_of_no_victim (hf : d.hasFree = false) (hv : d.victim p = none) : d.insert p b = (none, d) := by
  rw [Dict.insert, if_neg (Bool.eq_false_iff.1 hf), hv]

theorem Encoder.dictInsert_of_hasFree (hf : e.codec.dict.hasFree = true) :
    e.dictInsert p b = .ok (some e.codec.dict.freeHead) (e.insertGrowing p b) := if_pos hf

theorem Encoder.dictInsert_of_victim (hf : e.codec.dict.hasFree = false) (hv : e.codec.dict.victim p = some v) :
    e.dictInsert p b = e.insertRecycling v p b := by
  rw [Encoder.dictInsert, if_neg (Bool.eq_false_iff.1 hf), hv]

theorem Encoder.dictInsert_of_no_victim (hf : e.codec.dict.hasFree = false) (hv : e.codec.dict.victim p = none) :
    e.dictInsert p b = .ok none e := by
  rw [Encoder.dictInsert, if_neg (Bool.eq_false_iff.1 hf), hv]

theorem Encoder.insertRecycling_of_pair (hq : readMem e.codec.dict.pfx v.toNat = some q)
    (ha : readMem e.codec.dict.term v.toNat = some a) :
    e.insertRecycling v p b =
      .ok (some v) (((e.indexRemove q a).setDict (e.codec.dict.recycle v p b)).indexAdd p b v) := by
  rw [Encoder.insertRecycling, hq, ha]

/-- The growing insertion, with the counter of the free list as the register steps it (R168). -/
theorem Dict.grow_eq (d : Dict) (p : Code) (b : Byte) :
    d.grow p b =
      { d.store d.freeHead p b with
        nextFree := d.nextFree + 1
        full := d.full || d.nextFree + 1 == d.max } := by
  have hstep : BitVec.ofNat 17 (d.nextFree.toNat + 1) = d.nextFree + 1 := BitVec.eq_of_toNat_eq (by simp)
  rw [← hstep]
  rfl

/-- `DICT_INSERT` on the encoder, in terms of the encoder's insertion. -/
theorem dictInsertOn_enc (s : State) (p : Code) (b : Byte) :
    dictInsertOn .enc p b s = (s.enc.dictInsert p b).toStep (fun e => { s with enc := e }) codeResult := rfl

theorem dictInsertOn_dec (s : State) (p : Code) (b : Byte) :
    dictInsertOn .dec p b s =
      .next { s with
        dec := s.dec.setDict (s.dec.codec.dict.insert p b).2
        result := codeResult (s.dec.codec.dict.insert p b).1 } := rfl

/-- The three rows of `DICT_INSERT` are one operation (log entry 12). -/
theorem exec_dictInsertGrowing (side : Side) (p : Code) (b : Byte) (s : State) :
    exec (.dictInsertGrowing side p b) s = dictInsertOn side p b s := rfl

theorem exec_dictInsertRecycling (side : Side) (p : Code) (b : Byte) (s : State) :
    exec (.dictInsertRecycling side p b) s = dictInsertOn side p b s := rfl

theorem exec_dictInsertNoVictim (side : Side) (p : Code) (b : Byte) (s : State) :
    exec (.dictInsertNoVictim side p b) s = dictInsertOn side p b s := rfl

/-- Without a victim nothing but the result changes, on either side (R170). -/
theorem dictInsertOn_of_no_victim {side : Side} (hf : (s.codec side).dict.hasFree = false)
    (hv : (s.codec side).dict.victim p = none) : dictInsertOn side p b s = .next { s with result := .noCode } := by
  cases side with
  | enc =>
    rw [dictInsertOn_enc, Encoder.dictInsert_of_no_victim hf hv]
    rfl
  | dec =>
    rw [State.codec_dec] at hf hv
    rw [dictInsertOn_dec, Dict.insert_of_no_victim hf hv]
    rfl

end

/-- Settles O23: on either side the insertion takes its growing case (`Dict.grow_eq`). -/
theorem insertGrowingTakesFreeHead : Obligations.InsertGrowingTakesFreeHead := by
  intro s p b _
  refine ⟨fun hlt => ?_, fun hlt => ?_⟩
  · rw [exec_dictInsertGrowing, dictInsertOn_enc, Encoder.dictInsert_of_hasFree (Dict.hasFree_of_lt hlt),
      Encoder.insertGrowing, Dict.grow_eq]
    rfl
  · rw [exec_dictInsertGrowing, dictInsertOn_dec, Dict.insert_of_hasFree (Dict.hasFree_of_lt hlt), Dict.grow_eq]
    rfl

/-- Settles O24: with no free code the victim selects the case, and the encoder reads the victim's old pair. -/
theorem insertRecyclingOrNothing : Obligations.InsertRecyclingOrNothing := by
  intro s p b _
  refine ⟨fun hle v hv q a hq ha => ?_, fun hle v hv => ?_, fun side hle hv => ?_⟩
  · rw [exec_dictInsertRecycling, dictInsertOn_enc, Encoder.dictInsert_of_victim (Dict.not_hasFree_of_le hle) hv,
      Encoder.insertRecycling_of_pair hq ha]
    rfl
  · rw [exec_dictInsertRecycling, dictInsertOn_dec, Dict.insert_of_victim (Dict.not_hasFree_of_le hle) hv]
    rfl
  · rw [exec_dictInsertNoVictim, dictInsertOn_of_no_victim (Dict.not_hasFree_of_le hle) hv]

end Sys2Proof.Machine
end

section
/-! The prefix forest under insertion (spec/10_state.md R46 item 1; spec/42_dictionary.md R173). A code has a string
where some number of prefixes leads to a literal; then as many as there are assigned string codes do
(`Dict.stringIn_isSome_of_exists`), so an insertion has only to leave every code a string, of whatever length. -/

namespace Sys2Proof.Machine

section
variable {d t : Dict} {c p v : Code} {b : Byte} {k l : Nat}

/-! ### Chains of prefixes -/

theorem Dict.stringIn_zero_isSome : (d.stringIn 0 c).isSome = true ↔ c.toNat ≤ 255 := by
  unfold Dict.stringIn
  split <;> simp [*]

theorem Dict.stringIn_succ_isSome :
    (d.stringIn (k + 1) c).isSome = true ↔
      c.toNat ≤ 255 ∨
        d.denotes c = true ∧
          ∃ q b, readMem d.pfx c.toNat = some q ∧ readMem d.term c.toNat = some b ∧ (d.stringIn k q).isSome = true := by
  rw [Dict.stringIn]
  by_cases hlit : c.toNat ≤ 255
  · simp [hlit]
  · by_cases hden : d.denotes c = true
    · rw [if_neg hlit, if_pos hden]
      cases readMem d.pfx c.toNat <;> cases readMem d.term c.toNat <;> simp [hlit, hden]
    · simp [hlit, hden]

theorem Dict.stringIn_isSome_of_literal (h : c.toNat ≤ 255) : (d.stringIn k c).isSome = true := by
  cases k with
  | zero => exact Dict.stringIn_zero_isSome.2 h
  | succ k => exact Dict.stringIn_succ_isSome.2 (.inl h)

/-- More prefixes may be followed. -/
theorem Dict.stringIn_isSome_mono (hkl : k ≤ l) (h : (d.stringIn k c).isSome = true) :
    (d.stringIn l c).isSome = true := by
  induction k generalizing c l with
  | zero => exact Dict.stringIn_isSome_of_literal (Dict.stringIn_zero_isSome.1 h)
  | succ k ih =>
    obtain ⟨l, rfl⟩ := Nat.exists_eq_add_of_le' (Nat.succ_pos k |>.trans_le hkl)
    rcases Dict.stringIn_succ_isSome.1 h with hlit | ⟨hden, q, b, hq, hb, hstr⟩
    · exact Dict.stringIn_isSome_of_literal hlit
    · exact Dict.stringIn_succ_isSome.2 (.inr ⟨hden, q, b, hq, hb, ih (Nat.le_of_succ_le_succ hkl) hstr⟩)

theorem Dict.isAssignedString_of_not_literal (h : d.denotes c = true) (hlit : ¬ c.toNat ≤ 255) :
    d.isAssignedString c = true :=
  Dict.isAssignedString_of_denotes h (by have := (Dict.denotes_iff d c).1 h; omega)

/-! ### How long a chain can be -/

/-- The assigned string codes whose string is found within `k` prefixes. -/
def Dict.within (d : Dict) (k : Nat) : Finset Nat :=
  {x ∈ Finset.Ico 258 d.nextFree.toNat | (d.stringIn k (BitVec.ofNat 16 x)).isSome = true}

theorem Dict.mem_within : c.toNat ∈ d.within k ↔ d.isAssignedString c = true ∧ (d.stringIn k c).isSome = true := by
  rw [Dict.within, Finset.mem_filter, Finset.mem_Ico, Dict.isAssignedString_iff, BitVec.ofNat_toNat, BitVec.setWidth_eq]

theorem Dict.within_subset_succ (d : Dict) (k : Nat) : d.within k ⊆ d.within (k + 1) :=
  Finset.monotone_filter_right _ fun _ _ => Dict.stringIn_isSome_mono k.le_succ

theorem Dict.card_within_le (d : Dict) (k : Nat) : (d.within k).card ≤ d.nextFree.toNat - 258 :=
  (Finset.card_filter_le _ _).trans (Nat.card_Ico _ _).le

/-- A code whose chain takes `k` prefixes and no fewer has `k` string codes on that chain, all different: one more for
each prefix. -/
theorem Dict.le_card_within (h : (d.stringIn k c).isSome = true) (hmin : ∀ j < k, ¬ (d.stringIn j c).isSome = true) :
    k ≤ (d.within k).card := by
  induction k generalizing c with
  | zero => exact Nat.zero_le _
  | succ k ih =>
    have hlit : ¬ c.toNat ≤ 255 := fun hlit => hmin k k.lt_succ_self (Dict.stringIn_isSome_of_literal hlit)
    obtain ⟨hden, q, b, hq, hb, hstr⟩ := (Dict.stringIn_succ_isSome.1 h).resolve_left hlit
    have hprefix : k ≤ (d.within k).card := ih hstr fun j hj hshort =>
      hmin (j + 1) (Nat.succ_lt_succ hj) (Dict.stringIn_succ_isSome.2 (.inr ⟨hden, q, b, hq, hb, hshort⟩))
    have hnew : d.within k ⊂ d.within (k + 1) :=
      (Finset.ssubset_iff_of_subset (d.within_subset_succ k)).2
        ⟨c.toNat, Dict.mem_within.2 ⟨Dict.isAssignedString_of_not_literal hden hlit, h⟩,
          fun hmem => hmin k k.lt_succ_self (Dict.mem_within.1 hmem).2⟩
    exact hprefix.trans_lt (Finset.card_lt_card hnew)

/-- A chain that ends at all takes no more prefixes than there are assigned string codes. -/
theorem Dict.stringIn_isSome_of_exists (h : ∃ k, (d.stringIn k c).isSome = true) :
    (d.stringIn (d.nextFree.toNat - 258) c).isSome = true := by
  have hlen := (Dict.le_card_within (Nat.find_spec h) fun _ => Nat.find_min h).trans (d.card_within_le _)
  exact Dict.stringIn_isSome_mono hlen (Nat.find_spec h)

/-! ### A pair into a slot -/

/-- A pair written into a slot that is no other code's prefix leaves the other codes their chains. -/
theorem Dict.stringIn_isSome_store (hpfx : t.pfx = writeMem d.pfx v.toNat p)
    (hterm : t.term = writeMem d.term v.toNat b)
    (hmono : ∀ c, d.denotes c = true → t.denotes c = true)
    (hleaf : ∀ c, c ≠ v → d.isAssignedString c = true → readMem d.pfx c.toNat ≠ some v)
    (hne : c ≠ v) (h : (d.stringIn k c).isSome = true) : (t.stringIn k c).isSome = true := by
  induction k generalizing c with
  | zero => exact Dict.stringIn_zero_isSome.2 (Dict.stringIn_zero_isSome.1 h)
  | succ k ih =>
    by_cases hlit : c.toNat ≤ 255
    · exact Dict.stringIn_isSome_of_literal hlit
    · obtain ⟨hden, q, a, hq, ha, hstr⟩ := (Dict.stringIn_succ_isSome.1 h).resolve_left hlit
      have haddr : c.toNat ≠ v.toNat := mt BitVec.eq_of_toNat_eq hne
      have hqv : q ≠ v := by
        rintro rfl
        exact hleaf c hne (Dict.isAssignedString_of_not_literal hden hlit) hq
      refine Dict.stringIn_succ_isSome.2 (.inr ⟨hmono c hden, q, a, ?_, ?_, ih hqv hstr⟩)
      · rw [hpfx, readMem_writeMem_other _ _ haddr, hq]
      · rw [hterm, readMem_writeMem_other _ _ haddr, ha]

/-- A pair written into a slot that is no code's prefix, the slot being the one code that becomes assigned, if any. -/
theorem Dict.Forest.store (h : d.Forest) (hpfx : t.pfx = writeMem d.pfx v.toNat p)
    (hterm : t.term = writeMem d.term v.toNat b) (hmono : ∀ c, d.denotes c = true → t.denotes c = true)
    (hold : ∀ c, c ≠ v → t.denotes c = true → d.denotes c = true)
    (hleaf : ∀ c, c ≠ v → d.isAssignedString c = true → readMem d.pfx c.toNat ≠ some v)
    (hp : d.denotes p = true) (hpv : p ≠ v) : t.Forest := by
  intro c hc
  have hother : ∀ c, c ≠ v → d.denotes c = true → (t.stringIn (d.nextFree.toNat - 258) c).isSome = true :=
    fun c hne hden => Dict.stringIn_isSome_store hpfx hterm hmono hleaf hne (h c hden)
  refine Dict.stringIn_isSome_of_exists ?_
  by_cases hcv : c = v
  · subst hcv
    refine ⟨_, Dict.stringIn_succ_isSome.2 (.inr ⟨hc, p, b, ?_, ?_, hother p hpv hp⟩)⟩
    · rw [hpfx, readMem_writeMem_same]
    · rw [hterm, readMem_writeMem_same]
  · exact ⟨_, hother c hcv (hold c hcv hc)⟩

/-! ### Insertion -/

/-- A code with no string is the prefix of no assigned code. -/
theorem Dict.Inv.not_prefix_of_not_denotes (h : d.Inv) (hv : d.denotes v = false) (hc : d.isAssignedString c = true) :
    readMem d.pfx c.toNat ≠ some v := by
  obtain ⟨q, a, hq, -, hden⟩ := h.closed c hc
  rw [hq]
  rintro ⟨⟩
  exact Bool.false_ne_true (hv.symm.trans hden)

theorem Dict.Inv.freeHead_not_denotes (h : d.Inv) (hf : d.hasFree = true) : d.denotes d.freeHead = false := by
  have hlo : 258 ≤ d.nextFree.toNat := h.free_lo
  rw [Bool.eq_false_iff, Ne, Dict.denotes_iff, h.freeHead_toNat hf]
  omega

/-- The growing insertion: the free head was no code's prefix (R168). -/
theorem Dict.Forest.grow (h : d.Forest) (hi : d.Inv) (hf : d.hasFree = true) (hp : d.denotes p = true) (b : Byte) :
    (d.grow p b).Forest := by
  have hnf := hi.grow_nextFree_toNat hf p b
  have hfresh := hi.freeHead_not_denotes hf
  refine h.store (Dict.grow_pfx _ _ _) (Dict.grow_term _ _ _) (fun c => Dict.denotes_mono (by omega))
    (fun c hne hc => ?_) (fun c _ => hi.not_prefix_of_not_denotes hfresh) hp ?_
  · rw [Dict.denotes_iff] at hc ⊢
    rw [Ne, ← BitVec.toNat_inj, hi.freeHead_toNat hf] at hne
    omega
  · rintro rfl
    exact Bool.false_ne_true (hfresh.symm.trans hp)

/-- A victim for a data code is a leaf, and not that code (R167). -/
theorem Dict.Inv.victim_isLeaf (h : d.Inv) (hp : isDataCode p = true) (hv : d.victim p = some v) :
    v ≠ p ∧ d.isLeaf v = true := by
  obtain ⟨hlo, hhi⟩ := h.max_range
  rw [Dict.victim_of_data hp] at hv
  exact (Dict.scan_some (by omega) hhi _ ((Dict.inScan_iff _ _).2 ⟨h.cursor_lo, h.cursor_hi⟩) hv).2

theorem Dict.isDataCode_of_denotes (h : d.denotes c = true) : isDataCode c = true :=
  (isDataCode_iff c).2 ((Dict.denotes_iff d c).1 h).2

/-- The recycling insertion: a victim is a leaf, so no code's prefix (R169). -/
theorem Dict.Forest.recycle (h : d.Forest) (hi : d.Inv) (hv : d.victim p = some v) (hp : d.denotes p = true)
    (b : Byte) : (d.recycle v p b).Forest := by
  obtain ⟨hne, hleaf⟩ := hi.victim_isLeaf (Dict.isDataCode_of_denotes hp) hv
  exact h.store (Dict.recycle_pfx _ _ _ _) (Dict.recycle_term _ _ _ _) (fun _ hc => hc) (fun _ _ hc => hc)
    (fun c hc has => Dict.not_prefix_of_isLeaf hleaf has hc) hp hne.symm

end

/-- Settles O54: an insertion grows, recycles a leaf, or writes nothing (`Dict.insert_cases`). -/
theorem insertKeepsForest : Obligations.InsertKeepsForest := by
  intro d p b hi h hp
  rcases d.insert_cases p b with ⟨hf, heq⟩ | ⟨-, v, hv, heq⟩ | ⟨-, -, heq⟩ <;> rw [heq]
  · exact h.grow hi hf hp b
  · exact h.recycle hi hv hp b
  · exact h

end Sys2Proof.Machine
end

section
/-! The encoder's emissions with a sink that never refuses: which bits they write (spec/43_encoder.md R196, R200). -/

namespace Sys2Proof.Machine

/-- The rule returns `a`; it appended these bits to those written so far, left `t` as the dictionary, and changed nothing
else: an encoder's `Codec.Appends`. -/
def Encoder.Emits {α : Type} (e : Encoder) (t : Dict) (bits : List Bool) (a : α) (x : Ans Encoder α) : Prop :=
  ∃ bytes buf, x = .ok a (e.setCodec { e.codec.pushed bytes with dict := t, buf := buf }) ∧
    bytesBits bytes ++ buf.bits = e.codec.buf.bits ++ bits ∧ buf.settled = true

section
variable {e : Encoder} {c : Codec} {n v : Nat} {w : Code}

/-- `AB_ENC` of a code below the alphabet size appends its codeword (R141). -/
theorem Codec.abEnc_appends (hnever : c.neverRefused = true) (hs : c.buf.settled = true) (h1 : 258 ≤ n) (h2 : n ≤ 65536)
    (hv : v < n) : c.Appends (codewordBits n v) (codewordBits n v).length (c.abEnc v n) := by
  rw [Codec.abEnc_of_lt h1 h2 hv]
  exact Codec.writeCode_appends hnever hs h1 h2 hv

section
variable (hnever : e.codec.neverRefused = true) (hs : e.codec.buf.settled = true) (h1 : 258 ≤ e.codec.dict.n.toNat)
  (h2 : e.codec.dict.n.toNat ≤ 65536)
include hnever hs h1 h2

/-- `EMIT_CTRL` writes the codeword of its code, and `n` stays (R196). -/
theorem Encoder.emitCtrl_emits (hv : v < e.codec.dict.n.toNat) :
    e.Emits e.codec.dict (codewordBits e.codec.dict.n.toNat v) (codewordBits e.codec.dict.n.toNat v).length
      (e.emitCtrl v) := by
  obtain ⟨bytes, buf, hret, hbits, hs'⟩ := Codec.abEnc_appends hnever hs h1 h2 hv
  exact ⟨bytes, buf, by rw [Encoder.emitCtrl, Encoder.onCodec, hret]; rfl, hbits, hs'⟩

/-- `EMIT_DATA` writes the codeword of its code, then steps `n` (R196). -/
theorem Encoder.emitData_emits (hw : w.toNat < e.codec.dict.n.toNat) :
    e.Emits e.codec.dict.alphaStep (codewordBits e.codec.dict.n.toNat w.toNat)
      (codewordBits e.codec.dict.n.toNat w.toNat).length (e.emitData w) := by
  obtain ⟨bytes, buf, hret, hbits, hs'⟩ := Codec.abEnc_appends hnever hs h1 h2 hw
  exact ⟨bytes, buf, by rw [Encoder.emitData, Encoder.onCodec, hret]; rfl, hbits, hs'⟩

/-- `ENC_FLUSHDICT` writes `CLEAR`, and resets the dictionary and the monitor of what that leaves (R200). -/
theorem Encoder.flushDict_eq :
    ∃ bytes buf,
      e.flushDict = .ok () (e.setCodec { e.codec.pushed bytes with buf := buf }).dictReset.monReset ∧
      bytesBits bytes ++ buf.bits = e.codec.buf.bits ++ codewordBits e.codec.dict.n.toNat 256 ∧ buf.settled = true := by
  have hclear : Config.clear < e.codec.dict.n.toNat := Nat.lt_of_lt_of_le (by decide) h1
  obtain ⟨bytes, buf, hret, hbits, hs'⟩ := Encoder.emitCtrl_emits hnever hs h1 h2 hclear
  exact ⟨bytes, buf, by rw [Encoder.flushDict, hret]; rfl, hbits, hs'⟩

end

end

theorem exec_emitData_of_data {c : Code} (h : isDataCode c = true) (s : State) :
    exec (.emitData c) s = (s.enc.emitData c).toStep (fun e => { s with enc := e }) fun wd => .value wd := by
  rw [exec, execEmitData, onEnc, Encoder.dataCode_of_data h]

theorem exec_encFlushDict (s : State) :
    exec .encFlushDict s = s.enc.flushDict.toStep (fun e => { s with enc := e }) fun _ => .unit := rfl

/-- Settles O31: a data code is emitted as it is (`Encoder.emitData_emits`). -/
theorem emitDataWritesThenSteps : Obligations.EmitDataWritesThenSteps := by
  intro s c hdata hn hlt hnever hs
  obtain ⟨h1, h2⟩ := (isAlphabet_iff _).1 hn
  obtain ⟨bytes, buf, hret, hbits, hs'⟩ := Encoder.emitData_emits hnever hs h1 h2 hlt
  refine ⟨bytes, buf, ?_, hbits, hs'⟩
  rw [exec_emitData_of_data hdata, hret]
  rfl

/-- Settles O33: `CLEAR` is written before the resets (`Encoder.flushDict_eq`). -/
theorem flushDictWritesClear : Obligations.FlushDictWritesClear := by
  intro s hn hnever hs
  obtain ⟨h1, h2⟩ := (isAlphabet_iff _).1 hn
  obtain ⟨bytes, buf, hret, hbits, hs'⟩ := Encoder.flushDict_eq hnever hs h1 h2
  refine ⟨bytes, buf, ?_, hbits, hs'⟩
  rw [exec_encFlushDict, hret]
  rfl

end Sys2Proof.Machine
end

section
/-! The end of an encoder's run with a sink that never refuses: `END`, the padding, `DONE` (spec/43_encoder.md R192, R193,
R201). -/

namespace Sys2Proof.Machine

/-- The rule ends the run with success, `t` being its dictionary: it appended these bits to those written so far and
padded the last byte. -/
def Encoder.Ends (e : Encoder) (t : Dict) (bits : List Bool) (x : Ans Encoder Unit) : Prop :=
  ∃ bytes,
    x = .ok () (e.setCodec { e.codec.pushed bytes with dict := t, buf := { acc := 0, nbits := 0 }, phase := .done }) ∧
    endsPadded bytes (e.codec.buf.bits ++ bits)

section
variable {e : Encoder} {c : Codec} {t u : Dict} {w : Code} {bits more : List Bool}

/-- The byte of a settled packer is its bits in hand and zeros (R123). -/
theorem BitBuf.bytesBits_acc {b : BitBuf} (h : b.settled = true) :
    bytesBits [b.acc.setWidth 8] = b.bits ++ List.replicate (8 - b.nbits.toNat) false := by
  obtain ⟨h7, hclean⟩ := (BitBuf.settled_iff _).1 h
  have hacc : ofBits b.bits = b.acc.toNat := by rw [BitBuf.bits, ofBits_bitsOf, Nat.mod_eq_of_lt hclean]
  have hlen : b.bits.length ≤ 8 := by rw [BitBuf.length_bits]; omega
  rw [bytesBits, bytesBits, List.append_nil, ← BitVec.ofNat_toNat, ← hacc, bitsOf_byte hlen, BitBuf.length_bits]

/-- `FLUSHBITS` pads the last byte and empties the packer (R123). -/
theorem Codec.flushBits_pads (hnever : c.neverRefused = true) (hs : c.buf.settled = true) :
    ∃ bytes, c.flushBits = .ok () { c.pushed bytes with buf := { acc := 0, nbits := 0 } } ∧ endsPadded bytes c.buf.bits := by
  by_cases h0 : c.buf.nbits = 0
  · have hacc : c.buf.acc = 0 := by
      have hlt := ((BitBuf.settled_iff _).1 hs).2
      rw [h0] at hlt
      exact BitVec.eq_of_toNat_eq (Nat.lt_one_iff.1 hlt)
    have hbuf : c.buf = { acc := 0, nbits := 0 } := by rw [← h0, ← hacc]
    refine ⟨[], ?_, 0, by decide, ?_⟩
    · rw [Codec.flushBits_of_empty h0, Codec.pushed_nil, ← hbuf]
    · rw [hbuf]
      rfl
  · have hpos : 0 < c.buf.nbits.toNat := Nat.pos_of_ne_zero fun h => h0 (BitVec.eq_of_toNat_eq h)
    refine ⟨[c.buf.acc.setWidth 8], ?_, 8 - c.buf.nbits.toNat, by omega, BitBuf.bytesBits_acc hs⟩
    rw [Codec.flushBits_of_bits h0, Codec.sinkPush_never hnever, Ans.bind_ok]

/-- `ENC_FINISH` adds the padding only (R201). -/
theorem Encoder.encFinish_ends (hnever : e.codec.neverRefused = true) (hs : e.codec.buf.settled = true) :
    e.Ends e.codec.dict [] e.encFinish := by
  obtain ⟨bytes, hret, hpad⟩ := Codec.flushBits_pads hnever hs
  refine ⟨bytes, ?_, by rwa [List.append_nil]⟩
  rw [Encoder.encFinish, Encoder.onCodec, hret]
  rfl

/-- An emission, and then the end of the run. -/
theorem Encoder.Emits.bind_ends {α : Type} {a : α} {x : Ans Encoder α} {f : α → Encoder → Ans Encoder Unit}
    (hx : e.Emits t bits a x)
    (hf : ∀ bytes buf, buf.settled = true →
      Encoder.Ends (e.setCodec { e.codec.pushed bytes with dict := t, buf := buf }) u more
        (f a (e.setCodec { e.codec.pushed bytes with dict := t, buf := buf }))) :
    e.Ends u (bits ++ more) (x.bind f) := by
  obtain ⟨bytes, buf, rfl, hbits, hs⟩ := hx
  obtain ⟨bytes', hret, pad, hlt, hpad⟩ := hf bytes buf hs
  refine ⟨bytes ++ bytes', ?_, pad, hlt, ?_⟩
  · rw [Ans.bind_ok, hret, ← Codec.pushed_pushed]
    rfl
  · rw [bytesBits_append, hpad, ← List.append_assoc, ← List.append_assoc, ← List.append_assoc]
    exact congrArg (fun l => l ++ more ++ List.replicate pad false) hbits

/-- `END` and `ENC_FINISH` (R192, R193). -/
theorem Encoder.end_ends (hnever : e.codec.neverRefused = true) (hs : e.codec.buf.settled = true)
    (h1 : 258 ≤ e.codec.dict.n.toNat) (h2 : e.codec.dict.n.toNat ≤ 65536) :
    e.Ends e.codec.dict (codewordBits e.codec.dict.n.toNat 257)
      ((e.emitCtrl Config.endOfStream).bind fun _ f => f.encFinish) := by
  have hemit := Encoder.emitCtrl_emits (v := Config.endOfStream) hnever hs h1 h2 h1
  have hends := hemit.bind_ends (u := e.codec.dict) (more := []) (f := fun _ f => f.encFinish)
    fun bytes buf hs' => Encoder.encFinish_ends hnever hs'
  rwa [List.append_nil] at hends

/-- The last match, `END` with the stepped alphabet size, and `ENC_FINISH` (R193). -/
theorem Encoder.lastEmit_ends (hnever : e.codec.neverRefused = true) (hs : e.codec.buf.settled = true)
    (hi : e.codec.dict.Inv) (hw : w.toNat < e.codec.dict.n.toNat) :
    e.Ends e.codec.dict.alphaStep
      (codewordBits e.codec.dict.n.toNat w.toNat ++ codewordBits e.codec.dict.alphaStep.n.toNat 257)
      ((e.emitData w).bind fun _ f => (f.emitCtrl Config.endOfStream).bind fun _ g => g.encFinish) := by
  obtain ⟨h1, h2⟩ := hi.alphabet
  obtain ⟨h1', h2'⟩ := hi.alphaStep.alphabet
  exact (Encoder.emitData_emits hnever hs h1 h2 hw).bind_ends fun bytes buf hs' =>
    Encoder.end_ends (e := e.setCodec { e.codec.pushed bytes with dict := e.codec.dict.alphaStep, buf := buf })
      hnever hs' h1' h2'

/-! ### The source port in the matching loop (R192, R193) -/

theorem Codec.srcPull_of_nil (h : c.port.source = []) : c.srcPull = (none, c) := by
  rw [Codec.srcPull, Port.pull, h]

theorem Codec.srcPull_of_cons {b : Byte} {bs : List Byte} (h : c.port.source = b :: bs) :
    c.srcPull = (some b, { c with port := { c.port with source := bs } }) := by
  rw [Codec.srcPull, Port.pull, h]

theorem Encoder.first_of_eoi (h : e.codec.port.source = []) :
    e.first = (e.emitCtrl Config.endOfStream).bind fun _ f => f.encFinish := by
  rw [Encoder.first, Codec.srcPull_of_nil h]
  rfl

theorem Encoder.next_of_eoi (hw : e.wCode = some w) (h : e.codec.port.source = []) :
    e.next = (e.emitData w).bind fun _ f => (f.emitCtrl Config.endOfStream).bind fun _ g => g.encFinish := by
  rw [Encoder.next, hw, Codec.srcPull_of_nil h]
  rfl

/-- The encoder after the next byte of its source was pulled. -/
def Encoder.pulled (e : Encoder) (bs : List Byte) : Encoder :=
  e.setCodec { e.codec with port := { e.codec.port with source := bs } }

theorem Encoder.first_of_byte {b : Byte} {bs : List Byte} (h : e.codec.port.source = b :: bs) :
    e.first = .ok () (((e.pulled bs).setMatch (b.setWidth 16) 1).goto .eNext) := by
  rw [Encoder.first, Codec.srcPull_of_cons h]
  rfl

theorem Encoder.next_of_extended {b : Byte} {bs : List Byte} {x : Code} (hw : e.wCode = some w)
    (h : e.codec.port.source = b :: bs) (hx : e.lookup w b = some x) :
    e.next = .ok () (((e.pulled bs).extend x).goto .eNext) := by
  have hx' : (e.pulled bs).lookup w b = some x := hx
  rw [Encoder.pulled] at hx'
  rw [Encoder.next, hw, Codec.srcPull_of_cons h]
  dsimp only
  rw [hx']
  rfl

theorem Encoder.next_of_missed {b : Byte} {bs : List Byte} (hw : e.wCode = some w)
    (h : e.codec.port.source = b :: bs) (hx : e.lookup w b = none) :
    e.next = ((e.pulled bs).miss b).bind fun _ f => .ok () (f.goto .eNext) := by
  have hx' : (e.pulled bs).lookup w b = none := hx
  rw [Encoder.pulled] at hx'
  rw [Encoder.next, hw, Codec.srcPull_of_cons h]
  dsimp only
  rw [hx']
  rfl

end

/-! ### The instructions -/

theorem exec_eFirst (s : State) : exec .eFirst s = s.enc.first.toStep (fun e => { s with enc := e }) fun _ => .unit := rfl

theorem exec_eNext (s : State) : exec .eNext s = s.enc.next.toStep (fun e => { s with enc := e }) fun _ => .unit := rfl

theorem exec_encFinish (s : State) :
    exec .encFinish s = s.enc.encFinish.toStep (fun e => { s with enc := e }) fun _ => .unit := rfl

theorem exec_encExtend (c : Code) (s : State) :
    exec (.encExtend c) s = .next { s with enc := s.enc.extend c, result := .unit } := rfl

/-- `ENC_EXTEND` steps `mlen` as its 16-bit register does (R194). -/
theorem Encoder.extend_eq (c : Code) (e : Encoder) : e.extend c = { e with wCode := some c, mlen := e.mlen + 1 } := by
  have hstep : BitVec.ofNat 16 (e.mlen.toNat + 1) = e.mlen + 1 := BitVec.eq_of_toNat_eq (by simp)
  rw [← hstep]
  rfl

/-- Settles O34: `ENC_FINISH` ends the run with no bits but the padding (`Encoder.encFinish_ends`). -/
theorem encFinishPadsAndEnds : Obligations.EncFinishPadsAndEnds := by
  intro s hnever hs
  obtain ⟨bytes, hret, hpad⟩ := Encoder.encFinish_ends hnever hs
  rw [List.append_nil] at hpad
  exact ⟨bytes, by rw [exec_encFinish, hret]; rfl, hpad⟩

/-- Settles O26: the source selects the byte (`Encoder.first_of_byte`) or the end (`Encoder.end_ends`). -/
theorem firstByteStartsMatch : Obligations.FirstByteStartsMatch := by
  intro s
  refine ⟨fun b bs h => ?_, fun h hn hnever hs => ?_⟩
  · rw [exec_eFirst, Encoder.first_of_byte h]
    rfl
  · obtain ⟨h1, h2⟩ := (isAlphabet_iff _).1 hn
    obtain ⟨bytes, hret, hpad⟩ := Encoder.end_ends hnever hs h1 h2
    exact ⟨bytes, by rw [exec_eFirst, Encoder.first_of_eoi h, hret]; rfl, hpad⟩

/-- Settles O27: a byte that extends the match does so as `ENC_EXTEND` (`Encoder.extend_eq`). -/
theorem nextByteExtendsMatch : Obligations.NextByteExtendsMatch := by
  refine ⟨fun s c _ => ?_, fun s w b bs c hw h hc => ?_⟩
  · rw [exec_encExtend, Encoder.extend_eq]
  · rw [exec_eNext, Encoder.next_of_extended hw h hc, Encoder.extend_eq]
    rfl

/-- Settles O28: the last match is emitted and the run ends (`Encoder.lastEmit_ends`). -/
theorem endOfInputFinishesStream : Obligations.EndOfInputFinishesStream := by
  intro s w hw h hi hlt hnever hs
  obtain ⟨bytes, hret, hpad⟩ := Encoder.lastEmit_ends hnever hs hi hlt
  rw [← List.append_assoc] at hpad
  exact ⟨bytes, s.enc.codec.dict.alphaStep.n, by rw [exec_eNext, Encoder.next_of_eoi hw h, hret]; rfl,
    hi.alphaStep_n_toNat, hpad⟩

end Sys2Proof.Machine
end

section
/-! `ENC_MISS` (spec/43_encoder.md R195): it is its parts in order, and in a running encoder with a sink that never
refuses it completes and writes the codeword of the match (R203). -/

namespace Sys2Proof.Machine

/-! ### The parts in order -/

section
variable {e f g : Encoder} {w : Code} {b : Byte} {wd : Nat} {r : Option Code}

/-- `ENC_MISS` whose emission and insertion returned: the monitor, the flush it asks for, and the new match (R195). -/
theorem Encoder.miss_of_inserted (hc : e.wCode = some w) (hemit : e.emitData w = .ok wd f)
    (hins : f.dictInsert w b = .ok r g) :
    e.miss b =
      ((g.monUpdate g.mlen.toNat wd).2.flushIf (g.monUpdate g.mlen.toNat wd).1).bind fun _ k =>
        .ok () (k.setMatch (b.setWidth 16) 1) := by
  rw [Encoder.miss, hc]
  dsimp only
  rw [hemit, Ans.bind_ok, hins, Ans.bind_ok]

/-- The width `EMIT_DATA` answers fits the 5 bits of `MON_UPDATE`'s operand. -/
theorem Encoder.emitData_width (h : e.emitData w = .ok wd f) : (BitVec.ofNat 5 wd).toNat = wd := by
  have hwd : wd ≤ 17 := by
    rw [Encoder.emitData, Encoder.onCodec] at h
    cases hx : e.codec.abEnc w.toNat e.codec.dict.n.toNat with
    | ok a d =>
      rw [hx] at h
      cases h
      exact Codec.abEnc_width hx
    | failed | fault => rw [hx] at h; cases h
  rw [BitVec.toNat_ofNat, Nat.mod_eq_of_lt (by omega)]

end

theorem exec_encMiss (b : Byte) (s : State) :
    exec (.encMiss b) s = (s.enc.miss b).toStep (fun e => { s with enc := e }) fun _ => .unit := rfl

theorem exec_monUpdate (mlen : BitVec 16) (wd : BitVec 5) (s : State) :
    exec (.monUpdate mlen wd) s =
      .next { s with
        enc := (s.enc.monUpdate mlen.toNat wd.toNat).2
        result := .flag (s.enc.monUpdate mlen.toNat wd.toNat).1 } := rfl

/-- An `EMIT_DATA` that answers a width returned. -/
theorem exec_emitData_eq_value {s t : State} {c : Code} {wd : Nat} (hc : isDataCode c = true)
    (h : exec (.emitData c) s = .next t) (hwd : t.result = .value wd) :
    ∃ f, s.enc.emitData c = .ok wd f ∧ t = { s with enc := f, result := .value wd } := by
  rw [exec_emitData_of_data hc] at h
  rcases Ans.toStep_eq_next.1 h with ⟨x, f, hf, rfl⟩ | ⟨f, -, rfl⟩
  · cases hwd
    exact ⟨f, hf, rfl⟩
  · cases hwd

/-- A `DICT_INSERT` that answers a next state returned: it never fails. -/
theorem exec_dictInsertGrowing_enc_eq_next {s t : State} {p : Code} {b : Byte}
    (h : exec (.dictInsertGrowing .enc p b) s = .next t) :
    ∃ r f, s.enc.dictInsert p b = .ok r f ∧ t = { s with enc := f, result := codeResult r } := by
  rw [exec_dictInsertGrowing, dictInsertOn_enc] at h
  rcases Ans.toStep_eq_next.1 h with ⟨r, f, hf, rfl⟩ | ⟨f, hf, -⟩
  · exact ⟨r, f, hf, rfl⟩
  · exact absurd hf Encoder.dictInsert_ne_failed

/-- The flush if it is asked for, as instructions, returned where it did not fail. -/
theorem flushIf_eq_ok_of_exec {s t : State} {flush : Bool}
    (h : (if flush then exec .encFlushDict s else .next s) = .next t) (hok : t.result ≠ .failed) :
    ∃ f r, s.enc.flushIf flush = .ok () f ∧ t = { s with enc := f, result := r } := by
  cases flush with
  | false =>
    cases h
    exact ⟨s.enc, s.result, rfl, rfl⟩
  | true =>
    rcases Ans.toStep_eq_next.1 h with ⟨_, f, hf, rfl⟩ | ⟨f, -, rfl⟩
    · exact ⟨f, _, hf, rfl⟩
    · exact absurd rfl hok

/-- Settles O29: a byte that is not in the index is missed (`Encoder.next_of_missed`); and each part that answers a
next state returned on the encoder, so `ENC_MISS` runs through them (`Encoder.miss_of_inserted`). -/
theorem missIsItsPartsInOrder : Obligations.MissIsItsPartsInOrder := by
  refine ⟨fun s w b bs t hw hsrc hnew hmiss => ?_,
    fun s w b s1 s2 s3 s4 wd flush hw hdata h1 hwd h2 h3 hflag h4 hok => ?_⟩
  · rw [exec_eNext, Encoder.next_of_missed hw hsrc hnew]
    rcases Ans.toStep_eq_next.1 hmiss with ⟨_, f, hf, rfl⟩ | ⟨f, hf, rfl⟩
    · have hf' : (s.enc.pulled bs).miss b = .ok () f := hf
      rw [hf', if_neg nofun]
      rfl
    · have hf' : (s.enc.pulled bs).miss b = .failed f := hf
      rw [hf', if_pos rfl]
      rfl
  · obtain ⟨e1, hemit, rfl⟩ := exec_emitData_eq_value hdata h1 hwd
    obtain ⟨r, e2, hins, rfl⟩ := exec_dictInsertGrowing_enc_eq_next h2
    rw [exec_monUpdate, Encoder.emitData_width hemit] at h3
    cases h3
    cases hflag
    obtain ⟨e4, q, hflush, rfl⟩ := flushIf_eq_ok_of_exec h4 hok
    rw [exec_encMiss, Encoder.miss_of_inserted hw hemit hins, hflush]
    rfl

/-! ### With a sink that never refuses -/

/-- From `e` to `f` the encoder wrote these bits, and maybe more after them; it is in the same phase, its ports stay
wired, and its source is untouched. -/
structure Encoder.Wrote (e : Encoder) (bits : List Bool) (f : Encoder) : Prop where
  written : e.codec.written ++ bits <+: f.codec.written
  phase : f.codec.phase = e.codec.phase
  source : f.codec.port.source = e.codec.port.source
  status : f.codec.port.status = e.codec.port.status

section
variable {e f g : Encoder} {w : Code} {b : Byte} {bits : List Bool}

/-- Bytes and a buffer that append bits, whatever the dictionary and the other registers. -/
theorem Encoder.Wrote.of_appended {bytes : List Byte} {buf : BitBuf} {t : Dict}
    (h : bytesBits bytes ++ buf.bits = e.codec.buf.bits ++ bits)
    (hf : f.codec = { e.codec.pushed bytes with dict := t, buf := buf }) : e.Wrote bits f where
  written := by
    have hw : f.codec.written = bytesBits (e.codec.port.sink ++ bytes) ++ buf.bits := by rw [hf]; rfl
    rw [hw, bytesBits_append, List.append_assoc, h, ← List.append_assoc]
    exact List.prefix_refl _
  phase := by rw [hf]; rfl
  source := by rw [hf]; rfl
  status := by rw [hf]; rfl

/-- What writes only more bits after that. -/
theorem Encoder.Wrote.trans {more : List Bool} (h : e.Wrote bits f) (k : f.Wrote more g) : e.Wrote bits g where
  written := h.written.trans ((List.prefix_append _ _).trans k.written)
  phase := k.phase.trans h.phase
  source := k.source.trans h.source
  status := k.status.trans h.status

theorem Encoder.Wrote.refl (e : Encoder) : e.Wrote [] e := ⟨by rw [List.append_nil], rfl, rfl, rfl⟩

theorem Encoder.Wrote.neverRefused (h : e.Wrote bits f) (hnever : e.codec.neverRefused = true) :
    f.codec.neverRefused = true := by
  rw [Codec.neverRefused_iff] at hnever ⊢
  exact h.status.trans hnever

/-- Of the common part an insertion changes only the dictionary. -/
theorem Encoder.dictInsert_codec {r : Option Code} (h : e.dictInsert w b = .ok r f) : ∃ t, f.codec = e.codec.setDict t := by
  rcases e.dictInsert_cases w b with ⟨-, heq⟩ | ⟨-, v, -, heq⟩ | ⟨-, -, heq⟩ <;> rw [heq] at h
  · cases h
    exact ⟨_, rfl⟩
  · rcases e.insertRecycling_cases v w b with ⟨q, a, -, -, heq⟩ | ⟨heq, -⟩ <;> rw [heq] at h <;> cases h
    exact ⟨_, rfl⟩
  · cases h
    exact ⟨e.codec.dict, rfl⟩

/-- The flush after a miss completes (R200). -/
theorem Encoder.Running.flushIf_returns (h : e.Running) (hnever : e.codec.neverRefused = true) (flush : Bool) :
    ∃ f, e.flushIf flush = .ok () f ∧ e.Wrote [] f := by
  cases flush with
  | false => exact ⟨e, rfl, .refl e⟩
  | true =>
    obtain ⟨h1, h2⟩ := h.sound.dict.alphabet
    obtain ⟨bytes, buf, hret, hbits, -⟩ := Encoder.flushDict_eq hnever h.settled h1 h2
    exact ⟨_, hret, (Encoder.Wrote.refl e).trans (.of_appended hbits (t := e.codec.dict.clear) rfl)⟩

/-- A code that denotes a string is below `n` in a running encoder (R174, R203). -/
theorem Encoder.Running.lt_n_of_denotes (h : e.Running) (hw : e.codec.dict.denotes w = true) :
    w.toNat < e.codec.dict.n.toNat := by
  have hlo := h.sound.dict.alphabet.1
  rw [Dict.denotes_iff, ← h.n_eq] at hw
  omega

/-- The insertion after the emission of the match returns a running encoder (R174, R195). -/
theorem Encoder.Running.dictInsert_after_emit (h : e.Running) (hw : e.codec.dict.denotes w = true)
    (hnew : e.lookup w b = none) {buf : BitBuf} (hs : buf.settled = true) (bytes : List Byte) :
    ∃ r g, (e.setCodec { e.codec.pushed bytes with dict := e.codec.dict.alphaStep, buf := buf }).dictInsert w b = .ok r g ∧
      g.Running := by
  have hrun : ((e.setCodec { e.codec.pushed bytes with dict := e.codec.dict.alphaStep, buf := buf }).dictInsert w b).Meets
      (fun _ => Encoder.Running) Encoder.Inv :=
    h.insertAfterEmit_meets (d := { e.codec.pushed bytes with buf := buf }) hw hnew ⟨rfl, rfl, hs⟩
  cases hins : (e.setCodec { e.codec.pushed bytes with dict := e.codec.dict.alphaStep, buf := buf }).dictInsert w b with
  | ok r g => exact ⟨r, g, rfl, by rwa [hins] at hrun⟩
  | failed g => exact absurd hins Encoder.dictInsert_ne_failed
  | fault x => rw [hins] at hrun; exact hrun.elim

/-- `ENC_MISS` in a running encoder completes with the byte as its match, and the first bits it writes are the codeword
of the match it had (R195, R203). -/
theorem Encoder.Running.miss_returns (h : e.Running) (hnever : e.codec.neverRefused = true) (hc : e.wCode = some w)
    (hw : e.codec.dict.denotes w = true) (hnew : e.lookup w b = none) :
    ∃ f, e.miss b = .ok () f ∧ f.Running ∧ f.wCode = some (b.setWidth 16) ∧ f.mlen = 1 ∧
      e.Wrote (codewordBits e.codec.dict.n.toNat w.toNat) f := by
  obtain ⟨h1, h2⟩ := h.sound.dict.alphabet
  obtain ⟨bytes, buf, hemit, hbits, hs⟩ := Encoder.emitData_emits hnever h.settled h1 h2 (h.lt_n_of_denotes hw)
  obtain ⟨r, g, hins, hg⟩ := h.dictInsert_after_emit hw hnew hs bytes
  obtain ⟨t, ht⟩ := Encoder.dictInsert_codec hins
  have hwrote : e.Wrote (codewordBits e.codec.dict.n.toNat w.toNat) g := .of_appended hbits ht
  obtain ⟨flush, i, o, k, hmon, -⟩ := g.monUpdate_cases g.mlen.toNat (codewordBits e.codec.dict.n.toNat w.toNat).length
  have hm : ({ g with monIn := i, monOut := o, monOther := k } : Encoder).Running := hg.congr rfl rfl
  obtain ⟨f, hflush, hf⟩ := hm.flushIf_returns (hwrote.neverRefused hnever) flush
  have hret : e.miss b = .ok () (f.setMatch (b.setWidth 16) 1) := by
    rw [Encoder.miss_of_inserted hc hemit hins, hmon, hflush]
    rfl
  have hinv := h.miss_meets hc hw hnew
  rw [hret] at hinv
  exact ⟨_, hret, hinv.1, hinv.2, rfl, hwrote.trans (more := []) ⟨hf.written, hf.phase, hf.source, hf.status⟩⟩

/-- A rule that ends the run leaves every bit before the padding in the sink. -/
theorem Encoder.Ends.written {t : Dict} {x : Ans Encoder Unit} (h : e.Ends t bits x) :
    ∃ f, x = .ok () f ∧ e.codec.written ++ bits <+: f.codec.written := by
  obtain ⟨bytes, hret, pad, -, hpad⟩ := h
  refine ⟨_, hret, List.replicate pad false, ?_⟩
  show bytesBits e.codec.port.sink ++ e.codec.buf.bits ++ bits ++ List.replicate pad false =
    bytesBits (e.codec.port.sink ++ bytes) ++ []
  rw [bytesBits_append, hpad, List.append_nil, List.append_assoc, List.append_assoc, List.append_assoc]

end

/-- Settles O30: the miss returns (`Encoder.Running.miss_returns`), and its match is a byte, which denotes a string. -/
theorem missCompletes : Obligations.MissCompletes := by
  intro s w b hi hp hc hnew hnever
  obtain ⟨⟨w', hc', hw⟩, -⟩ := hi.matching hp
  cases hc.symm.trans hc'
  obtain ⟨f, hret, hrun, hmatch, hlen, hwrote⟩ :=
    (hi.running (Codec.busy_of_phase hp)).miss_returns hnever hc hw hnew
  have hphase := hwrote.phase.trans hp
  exact ⟨f, by rw [exec_encMiss, hret]; rfl, hrun.inv_eNext hphase hmatch (Dict.denotes_byte _ b), hmatch, hlen, hphase,
    hwrote.source⟩

/-- Settles O35: the match denotes a string, so it is below `n` (`Encoder.Running.lt_n_of_denotes`); a miss and the end of
the run write its codeword first (`Encoder.Running.miss_returns`, `Encoder.lastEmit_ends`). -/
theorem emittedCodeBelowAlphabet : Obligations.EmittedCodeBelowAlphabet := by
  intro s hi hp hnever
  obtain ⟨⟨w, hc, hw⟩, -⟩ := hi.matching hp
  have hrun := hi.running (Codec.busy_of_phase hp)
  have hlt := hrun.lt_n_of_denotes hw
  refine ⟨w, hc, Dict.isDataCode_of_denotes hw, hlt, fun b hnew => ?_, fun b bs hsrc hnew => ?_, fun hsrc => ?_⟩
  · obtain ⟨f, hret, -, -, -, hwrote⟩ := hrun.miss_returns hnever hc hw hnew
    exact ⟨_, by rw [exec_encMiss, hret]; rfl, hwrote.written⟩
  · have hpulled : (s.enc.pulled bs).Running := hrun.pulled bs
    obtain ⟨f, hret, -, -, -, hwrote⟩ := hpulled.miss_returns hnever hc hw hnew
    refine ⟨_, by rw [exec_eNext, Encoder.next_of_missed hc hsrc hnew, hret]; rfl, ?_⟩
    exact hwrote.written
  · obtain ⟨f, hret, hwritten⟩ := (Encoder.lastEmit_ends hnever hrun.settled hi.dict hlt).written
    refine ⟨_, by rw [exec_eNext, Encoder.next_of_eoi hc hsrc, hret]; rfl, ?_⟩
    exact ((List.prefix_append_right_inj _).2 (List.prefix_append _ _)).trans hwritten

end Sys2Proof.Machine
end

section
/-! The start of an encoder and its performance monitor (spec/43_encoder.md R191, R197 to R199; spec/45_commands.md
R250). -/

namespace Sys2Proof.Machine

/-! ### `ENC_START` (R191) -/

section
variable {e : Encoder} {m : BitVec 5} {port : Port}

/-- What `ENC_START` leaves once its header byte was accepted. -/
theorem Encoder.initialise_eq_started (m : BitVec 5) (port : Port) (e : Encoder) :
    ((e.initialise m.toNat).setCodec { (e.initialise m.toNat).codec with port := port }).goto .eFirst =
      e.started m port := by
  have hdict : (e.codec.dict.configure m.toNat).clear =
      { e.codec.dict with
        maxbits := m, max := BitVec.ofNat 17 (2 ^ m.toNat), nextFree := 258, full := false, cursor := 258, n := 258 } := by
    rw [Dict.configure, BitVec.ofNat_toNat, BitVec.setWidth_eq, Nat.one_shiftLeft]
    rfl
  rw [Encoder.started, ← hdict]
  rfl

/-- With a legal operand `ENC_START` is one sink transaction on the initialised encoder. -/
theorem Encoder.start_of_legal (hm : isLegalMaxbits m.toNat = true) :
    e.start m.toNat =
      ((e.initialise m.toNat).onCodec fun c => c.sinkPush (m.setWidth 8)).bind fun _ f => .ok () (f.goto .eFirst) := by
  rw [Encoder.start, if_pos hm, BitVec.ofNat_toNat]

theorem Encoder.start_of_accepted (hm : isLegalMaxbits m.toNat = true)
    (h : e.codec.port.push (m.setWidth 8) = (true, port)) : e.start m.toNat = .ok () (e.started m port) := by
  have hpush : (e.initialise m.toNat).codec.port.push (m.setWidth 8) = (true, port) := h
  rw [Encoder.start_of_legal hm, Encoder.onCodec, Codec.sinkPush_of_accepted hpush, ← Encoder.initialise_eq_started]
  rfl

theorem Encoder.start_of_refused (hm : isLegalMaxbits m.toNat = true)
    (h : e.codec.port.push (m.setWidth 8) = (false, port)) :
    e.start m.toNat =
      .failed ((e.initialise m.toNat).setCodec
        ({ (e.initialise m.toNat).codec with port := port }.raiseFail .sinkFail)) := by
  have hpush : (e.initialise m.toNat).codec.port.push (m.setWidth 8) = (false, port) := h
  rw [Encoder.start_of_legal hm, Encoder.onCodec, Codec.sinkPush_of_refused hpush]
  rfl

theorem Encoder.start_of_illegal (hm : isLegalMaxbits m.toNat = false) :
    e.start m.toNat = .failed (e.setCodec (e.codec.raiseFail .badHeader)) := if_neg (Bool.eq_false_iff.1 hm)

end

theorem exec_encStart (m : BitVec 5) (s : State) :
    exec (.encStart m) s = (s.enc.start m.toNat).toStep (fun e => { s with enc := e }) fun _ => .unit := rfl

/-- An accepted `COMPRESS` writes the command register and is `ENC_START` (R250). -/
theorem exec_compress_of_not_busy {s : State} (h : s.enc.codec.busy = false) (m : BitVec 5) (ig : BitVec 2) :
    exec (.compress m ig) s =
      ((s.enc.setCodec (s.enc.codec.acceptCmd (ig ++ m ++ 0#1))).start m.toNat).toStep (fun e => { s with enc := e })
        fun _ => .unit := if_neg (Bool.eq_false_iff.1 h)

/-- Settles O4: `COMPRESS` starts the encoder as `ENC_START` does; the header is accepted, refused, or never pushed
(`Encoder.start_of_accepted`, `Encoder.start_of_refused`, `Encoder.start_of_illegal`). -/
theorem encoderStarts : Obligations.EncoderStarts := by
  intro s m
  refine ⟨fun hm port h => ⟨?_, fun hb ig => ?_⟩, fun hm port h => ?_, fun hm port h hb ig => ?_,
    fun hm => ⟨?_, fun hb ig => ?_⟩⟩
  · rw [exec_encStart, Encoder.start_of_accepted hm h]
    rfl
  · have hobey := Encoder.start_of_accepted (e := s.enc.setCodec (s.enc.codec.acceptCmd (ig ++ m ++ 0#1))) hm h
    rw [exec_compress_of_not_busy hb, hobey]
    rfl
  · rw [exec_encStart, Encoder.start_of_refused hm h]
    exact ⟨_, rfl, rfl, rfl, rfl, rfl⟩
  · have hobey := Encoder.start_of_refused (e := s.enc.setCodec (s.enc.codec.acceptCmd (ig ++ m ++ 0#1))) hm h
    rw [exec_compress_of_not_busy hb, hobey]
    exact ⟨_, rfl, rfl, rfl, rfl, rfl⟩
  · rw [exec_encStart, Encoder.start_of_illegal hm]
    exact ⟨_, rfl, rfl, rfl, rfl, rfl⟩
  · rw [exec_compress_of_not_busy hb, Encoder.start_of_illegal hm]
    exact ⟨_, rfl, rfl, rfl, rfl, rfl⟩

/-! ### The performance monitor (R197 to R199) -/

section
variable {e : Encoder} {bytes bits : Nat}

/-- `mon_in` and `mon_out` add up as 32-bit registers do (R198). -/
theorem ofNat_add_toNat_eq_add_setWidth {k : Nat} (x : BitVec 32) (y : BitVec k) :
    BitVec.ofNat 32 (x.toNat + y.toNat) = x + y.setWidth 32 := by
  rw [BitVec.ofNat_add, BitVec.ofNat_toNat, BitVec.ofNat_toNat, BitVec.setWidth_eq]

/-- A window policy: the counters add up, and at the end of a window they are compared and zeroed (R198). -/
theorem Encoder.monUpdate_of_window (hp : e.policy = .window bytes bits) (mlen : BitVec 16) (wd : BitVec 5) :
    e.monUpdate mlen.toNat wd.toNat =
      if bytes ≤ (e.monIn + mlen.setWidth 32).toNat then
        (decide (e.codec.dict.full = true ∧
            8 * (e.monIn + mlen.setWidth 32).toNat + bits < (e.monOut + wd.setWidth 32).toNat),
          { e with monIn := 0, monOut := 0 })
      else (false, { e with monIn := e.monIn + mlen.setWidth 32, monOut := e.monOut + wd.setWidth 32 }) := by
  rw [Encoder.monUpdate, hp]
  dsimp only
  rw [ofNat_add_toNat_eq_add_setWidth, ofNat_add_toNat_eq_add_setWidth, Bool.decide_and, Bool.decide_eq_true]

end

theorem exec_monReset (s : State) : exec .monReset s = .next { s with enc := s.enc.monReset, result := .unit } := rfl

/-- Settles O32: the sums of a window policy (`Encoder.monUpdate_of_window`), and the frame of any policy
(`Encoder.monUpdate_cases`). -/
theorem monitorCountsAndAsksForFlush : Obligations.MonitorCountsAndAsksForFlush := by
  refine ⟨exec_monReset, fun s bytes bits mlen wd hp => ?_, rfl, fun s mlen wd => ?_⟩
  · rw [exec_monUpdate, Encoder.monUpdate_of_window hp]
    split <;> rfl
  · obtain ⟨flush, monIn, monOut, monOther, heq, hfull⟩ := s.enc.monUpdate_cases mlen.toNat wd.toNat
    exact ⟨monIn, monOut, monOther, flush, by rw [exec_monUpdate, heq], hfull⟩

end Sys2Proof.Machine
end

section
/-! Strings (spec/10_state.md R30) as a relation of a code and its bytes, free of the number of prefixes followed: it has
the cases of the rule, and two dictionaries that agree on a code's chain spell it alike. -/

namespace Sys2Proof.Machine

/-- `string(c)` is `s` (R30): a literal is its byte; an assigned string code adds its `term` to its prefix's string. -/
inductive Dict.Spells (d : Dict) : Code → List Byte → Prop
  | literal {c : Code} (h : c.toNat ≤ 255) : Dict.Spells d c [c.setWidth 8]
  | string {c p : Code} {b : Byte} {s : List Byte} (h : d.isAssignedString c = true)
      (hp : readMem d.pfx c.toNat = some p) (hb : readMem d.term c.toNat = some b) (hs : Dict.Spells d p s) :
      Dict.Spells d c (s ++ [b])

section
variable {d t : Dict} {c p : Code} {b : Byte} {s u : List Byte} {k l : Nat}

/-! ### The model's strings -/

theorem Dict.stringIn_of_literal (h : c.toNat ≤ 255) (k : Nat) : d.stringIn k c = some [c.setWidth 8] := by
  cases k <;> exact if_pos h

theorem Dict.denotes_of_isAssignedString_not_literal (h : d.isAssignedString c = true) :
    ¬ c.toNat ≤ 255 ∧ d.denotes c = true := by
  refine ⟨?_, Dict.denotes_of_isAssignedString h⟩
  rw [Dict.isAssignedString_iff] at h
  omega

theorem Dict.stringIn_of_pair (h : d.isAssignedString c = true) (hp : readMem d.pfx c.toNat = some p)
    (hb : readMem d.term c.toNat = some b) (k : Nat) :
    d.stringIn (k + 1) c = (d.stringIn k p).map (· ++ [b]) := by
  obtain ⟨hlit, hden⟩ := Dict.denotes_of_isAssignedString_not_literal h
  rw [Dict.stringIn, if_neg hlit, if_pos hden, hp, hb]

/-- A string found was found at a literal, or at a string code after its prefix's. -/
theorem Dict.stringIn_eq_some (h : d.stringIn k c = some s) :
    (c.toNat ≤ 255 ∧ s = [c.setWidth 8]) ∨
      ∃ j p b u, k = j + 1 ∧ d.isAssignedString c = true ∧ readMem d.pfx c.toNat = some p ∧
        readMem d.term c.toNat = some b ∧ d.stringIn j p = some u ∧ s = u ++ [b] := by
  by_cases hlit : c.toNat ≤ 255
  · rw [Dict.stringIn_of_literal hlit] at h
    exact .inl ⟨hlit, (Option.some.inj h).symm⟩
  · have hsome : (d.stringIn k c).isSome = true := by rw [h]; rfl
    cases k with
    | zero => exact absurd (Dict.stringIn_zero_isSome.1 hsome) hlit
    | succ j =>
      obtain ⟨hden, p, b, hp, hb, -⟩ := (Dict.stringIn_succ_isSome.1 hsome).resolve_left hlit
      have has := Dict.isAssignedString_of_not_literal hden hlit
      rw [Dict.stringIn_of_pair has hp hb, Option.map_eq_some_iff] at h
      obtain ⟨u, hu, rfl⟩ := h
      exact .inr ⟨j, p, b, u, rfl, has, hp, hb, hu, rfl⟩

theorem Dict.spells_of_stringIn (h : d.stringIn k c = some s) : d.Spells c s := by
  induction k generalizing c s with
  | zero =>
    obtain ⟨hlit, rfl⟩ | ⟨j, p, b, u, hk, -⟩ := Dict.stringIn_eq_some h
    · exact .literal hlit
    · cases hk
  | succ k ih =>
    obtain ⟨hlit, rfl⟩ | ⟨j, p, b, u, hk, has, hp, hb, hu, rfl⟩ := Dict.stringIn_eq_some h
    · exact .literal hlit
    · cases hk
      exact .string has hp hb (ih hu)

/-- A string is found by following its prefixes, and where more may be followed it is the same. -/
theorem Dict.Spells.exists_stringIn (h : d.Spells c s) : ∃ k, ∀ l, k ≤ l → d.stringIn l c = some s := by
  induction h with
  | literal hlit => exact ⟨0, fun l _ => Dict.stringIn_of_literal hlit l⟩
  | string has hp hb _ ih =>
    obtain ⟨k, hk⟩ := ih
    refine ⟨k + 1, fun l hl => ?_⟩
    obtain ⟨l, rfl⟩ := Nat.exists_eq_add_of_le' (Nat.succ_pos k |>.trans_le hl)
    rw [Dict.stringIn_of_pair has hp hb, hk l (Nat.le_of_succ_le_succ hl)]
    rfl

/-- A code has one string. -/
theorem Dict.Spells.unique (h : d.Spells c s) (h' : d.Spells c u) : s = u := by
  obtain ⟨k, hk⟩ := h.exists_stringIn
  obtain ⟨l, hl⟩ := h'.exists_stringIn
  exact Option.some.inj ((hk (k + l) (Nat.le_add_right _ _)).symm.trans (hl _ (Nat.le_add_left _ _)))

/-- In a dictionary that meets its invariant `MAX - 258` prefixes are enough for every string (R46 item 1). -/
theorem Dict.Inv.string_eq_some_iff (h : d.Inv) : d.string c = some s ↔ d.Spells c s := by
  refine ⟨Dict.spells_of_stringIn, fun hs => ?_⟩
  obtain ⟨k, hk⟩ := hs.exists_stringIn
  have hsome : (d.stringIn k c).isSome = true := by rw [hk k (Nat.le_refl k)]; rfl
  have hfree := Dict.stringIn_isSome_of_exists ⟨k, hsome⟩
  obtain ⟨u, hu⟩ := Option.isSome_iff_exists.1
    (Dict.stringIn_isSome_mono (Nat.sub_le_sub_right h.free_hi Config.firstString) hfree)
  rw [Dict.string, hu, hs.unique (Dict.spells_of_stringIn hu)]

/-- In a well-founded forest every code that denotes a string has one. -/
theorem Dict.forest_iff : d.Forest ↔ ∀ c, d.denotes c = true → ∃ s, d.Spells c s := by
  refine forall₂_congr fun c _ => ⟨fun h => ?_, fun ⟨s, hs⟩ => ?_⟩
  · obtain ⟨s, hs⟩ := Option.isSome_iff_exists.1 h
    exact ⟨s, Dict.spells_of_stringIn hs⟩
  · obtain ⟨k, hk⟩ := hs.exists_stringIn
    exact Dict.stringIn_isSome_of_exists ⟨k, by rw [hk k (Nat.le_refl k)]; rfl⟩

/-! ### Cases of a string -/

theorem Dict.Spells.denotes (h : d.Spells c s) : d.denotes c = true := by
  cases h with
  | literal hlit => rw [Dict.denotes_iff]; omega
  | string has => exact Dict.denotes_of_isAssignedString has

theorem Dict.Spells.of_literal (h : d.Spells c s) (hc : c.toNat ≤ 255) : s = [c.setWidth 8] :=
  h.unique (.literal hc)

/-- The string of a string code is its prefix's, and its byte. -/
theorem Dict.Spells.of_string (h : d.Spells c s) (hc : 258 ≤ c.toNat) :
    ∃ p b u, readMem d.pfx c.toNat = some p ∧ readMem d.term c.toNat = some b ∧ d.Spells p u ∧ s = u ++ [b] := by
  cases h with
  | literal hlit => omega
  | string _ hp hb hs => exact ⟨_, _, _, hp, hb, hs, rfl⟩

theorem Dict.Spells.ne_nil (h : d.Spells c s) : s ≠ [] := by
  cases h <;> simp

/-- A string has a first byte. -/
theorem Dict.Spells.exists_head (h : d.Spells c s) : ∃ fb, s.head? = some fb :=
  ⟨_, List.head?_eq_some_head h.ne_nil⟩

/-- A string made longer begins with the same byte. -/
theorem Dict.Spells.head?_append (h : d.Spells c s) (u : List Byte) : (s ++ u).head? = s.head? :=
  List.head?_append_of_ne_nil _ h.ne_nil

/-- Two dictionaries that agree on the codes of a set closed under prefixes spell these codes alike. -/
theorem Dict.Spells.transfer {S : Code → Prop} (h : d.Spells c s) (hc : S c)
    (hS : ∀ c p b, S c → d.isAssignedString c = true → readMem d.pfx c.toNat = some p →
      readMem d.term c.toNat = some b →
      S p ∧ t.isAssignedString c = true ∧ readMem t.pfx c.toNat = some p ∧ readMem t.term c.toNat = some b) :
    t.Spells c s := by
  induction h with
  | literal hlit => exact .literal hlit
  | string has hp hb _ ih =>
    obtain ⟨hSp, has', hp', hb'⟩ := hS _ _ _ hc has hp hb
    exact .string has' hp' hb' (ih hSp)

/-- The strings are those of `prefix`, `term` and `next_free`: the alphabet size is not looked at. -/
theorem Dict.alphaStep_spells_iff : d.alphaStep.Spells c s ↔ d.Spells c s :=
  ⟨fun h => h.transfer (S := fun _ => True) trivial fun _ _ _ _ has hp hb => ⟨trivial, has, hp, hb⟩,
    fun h => h.transfer (S := fun _ => True) trivial fun _ _ _ _ has hp hb => ⟨trivial, has, hp, hb⟩⟩

theorem Dict.Forest.alphaStep (h : d.Forest) : d.alphaStep.Forest :=
  Dict.forest_iff.2 fun c hc =>
    let ⟨s, hs⟩ := Dict.forest_iff.1 h c hc
    ⟨s, Dict.alphaStep_spells_iff.2 hs⟩

/-- No string code has a string in an emptied dictionary, so its forest is well founded (R160). -/
theorem Dict.clear_forest (d : Dict) : d.clear.Forest :=
  Dict.forest_iff.2 fun c hc => by
    rw [Dict.denotes_iff, Dict.clear_nextFree] at hc
    exact ⟨_, .literal (by have : (258 : BitVec 17).toNat = 258 := rfl; omega)⟩

end

end Sys2Proof.Machine
end

section
/-! Strings under an insertion: the slot taken gets the new string, and every other code keeps its own (spec/42_dictionary.md
R168 to R172). -/

namespace Sys2Proof.Machine

section
variable {d : Dict} {c p v x : Code} {b : Byte} {s : List Byte}

/-- The slot an insertion takes is another code than the prefix, and no assigned code's prefix but maybe its own. -/
theorem Dict.Inv.pending_not_prefix (h : d.Inv) (hp : d.denotes p = true) (hv : d.pending p = some v) :
    v ≠ p ∧ ∀ x, x ≠ v → d.isAssignedString x = true → readMem d.pfx x.toNat ≠ some v := by
  cases hf : d.hasFree with
  | true =>
    rw [Dict.pending_of_hasFree hf] at hv
    cases hv
    have hfresh := h.freeHead_not_denotes hf
    refine ⟨?_, fun x _ => h.not_prefix_of_not_denotes hfresh⟩
    rintro rfl
    exact Bool.false_ne_true (hfresh.symm.trans hp)
  | false =>
    rw [Dict.pending_of_not_hasFree hf] at hv
    obtain ⟨hne, hleaf⟩ := h.victim_isLeaf (Dict.isDataCode_of_denotes hp) hv
    exact ⟨hne, fun x hx has => Dict.not_prefix_of_isLeaf hleaf has hx⟩

/-- An insertion with a slot writes the pair there and assigns that code (R168, R169). -/
theorem Dict.Inv.insert_of_pending (h : d.Inv) (hv : d.pending p = some v) (b : Byte) :
    (d.insert p b).2.pfx = writeMem d.pfx v.toNat p ∧ (d.insert p b).2.term = writeMem d.term v.toNat b ∧
      ∀ x, (d.insert p b).2.isAssignedString x = true ↔ x = v ∨ d.isAssignedString x = true := by
  cases hf : d.hasFree with
  | true =>
    rw [Dict.pending_of_hasFree hf] at hv
    cases hv
    rw [Dict.insert_of_hasFree hf]
    exact ⟨rfl, rfl, h.grow_isAssignedString hf p b⟩
  | false =>
    rw [Dict.pending_of_not_hasFree hf] at hv
    rw [Dict.insert_of_victim hf hv]
    refine ⟨rfl, rfl, fun x => ⟨.inr, ?_⟩⟩
    rintro (rfl | hx)
    · exact h.victim_assigned hf hv
    · exact hx

/-- An insertion without a slot changes nothing (R170). -/
theorem Dict.insert_of_no_pending (hv : d.pending p = none) (b : Byte) : (d.insert p b).2 = d := by
  cases hf : d.hasFree with
  | true => rw [Dict.pending_of_hasFree hf] at hv; cases hv
  | false =>
    rw [Dict.pending_of_not_hasFree hf] at hv
    rw [Dict.insert_of_no_victim hf hv]

/-- The code that takes the slot gets the string of the prefix with the byte at its end. -/
theorem Dict.Inv.insert_pair (h : d.Inv) (hv : d.pending p = some v) (b : Byte) :
    readMem (d.insert p b).2.pfx v.toNat = some p ∧ readMem (d.insert p b).2.term v.toNat = some b ∧
      (d.insert p b).2.isAssignedString v = true := by
  obtain ⟨hpfx, hterm, has⟩ := h.insert_of_pending hv b
  exact ⟨by rw [hpfx, readMem_writeMem_same], by rw [hterm, readMem_writeMem_same], (has v).2 (.inl rfl)⟩

/-- Every code but the one that takes the slot keeps its string, and gets no other. -/
theorem Dict.Inv.insert_spells_iff (h : d.Inv) (hp : d.denotes p = true) (hc : d.pending p ≠ some c) (b : Byte) :
    (d.insert p b).2.Spells c s ↔ d.Spells c s := by
  cases hv : d.pending p with
  | none => rw [Dict.insert_of_no_pending hv]
  | some v =>
    obtain ⟨hpfx, hterm, has⟩ := h.insert_of_pending hv b
    obtain ⟨-, hno⟩ := h.pending_not_prefix hp hv
    have hcv : c ≠ v := fun heq => hc (hv.trans (congrArg some heq.symm))
    have hread : ∀ x, x ≠ v → readMem (d.insert p b).2.pfx x.toNat = readMem d.pfx x.toNat ∧
        readMem (d.insert p b).2.term x.toNat = readMem d.term x.toNat := fun x hx => by
      have hne : x.toNat ≠ v.toNat := mt BitVec.eq_of_toNat_eq hx
      rw [hpfx, hterm, readMem_writeMem_other _ _ hne, readMem_writeMem_other _ _ hne]
      exact ⟨rfl, rfl⟩
    constructor
    · refine fun hs => hs.transfer (S := (· ≠ v)) hcv fun x q a hx hxas hq ha => ?_
      obtain ⟨hreadp, hreadt⟩ := hread x hx
      have hxas' := ((has x).1 hxas).resolve_left hx
      rw [hreadp] at hq
      rw [hreadt] at ha
      refine ⟨?_, hxas', hq, ha⟩
      rintro rfl
      exact hno x hx hxas' hq
    · refine fun hs => hs.transfer (S := (· ≠ v)) hcv fun x q a hx hxas hq ha => ?_
      obtain ⟨hreadp, hreadt⟩ := hread x hx
      refine ⟨?_, (has x).2 (.inr hxas), hreadp.trans hq, hreadt.trans ha⟩
      rintro rfl
      exact hno x hx hxas hq

/-- An insertion leaves its own prefix alone. -/
theorem Dict.Inv.insert_spells_prefix_iff (h : d.Inv) (hp : d.denotes p = true) (b : Byte) :
    (d.insert p b).2.Spells p s ↔ d.Spells p s :=
  h.insert_spells_iff hp (fun hv => (h.pending_not_prefix hp hv).1 rfl) b

end

end Sys2Proof.Machine
end

section
/-! What an expansion delivers (spec/44_decoder.md R229): the bytes of the string, first byte first, or a refused push. The
statements are triples for any sink; one that never refuses shuts the failure out (`Decoder.SinkFailed`). -/

namespace Sys2Proof.Machine

/-- Of the common part only the port changed; a sink that never refuses got exactly these bytes. -/
structure Codec.Delivered (c : Codec) (s : List Byte) (x : Codec) : Prop where
  frame : x = { c with port := x.port }
  never : c.neverRefused = true → x = c.pushed s

/-- The decoder delivered these bytes: beyond its common part only its stack changed. -/
structure Decoder.Delivered (d : Decoder) (s : List Byte) (g : Decoder) : Prop where
  codec : d.codec.Delivered s g.codec
  prev : g.prev = d.prev

/-- The decoder failed by a refused push: the sink is one that may refuse, the cause is `SINK_FAIL`, and the dictionary is
as it was (R274, R276). -/
structure Decoder.SinkFailed (d g : Decoder) : Prop where
  refused : d.codec.neverRefused = false
  dict : g.codec.dict = d.codec.dict
  phase : g.codec.phase = .failed
  cause : g.codec.cause = 4

/-- The stack in use holds these bytes, the one on top first (R37). -/
def Decoder.Holds (d : Decoder) (l : List Byte) : Prop :=
  d.sp.toNat = l.length ∧ ∀ i < l.length, readMem d.stk i = l.reverse[i]?

section
variable {d g k : Decoder} {c : Code} {b : Byte} {s u l : List Byte} {x y : Codec}

theorem Codec.Delivered.trans (h : x.Delivered s y) {z : Codec} (j : y.Delivered u z) : x.Delivered (s ++ u) z where
  frame := by rw [j.frame, h.frame]
  never hn := by
    have hy := h.never hn
    rw [j.never (by rw [hy]; exact hn), hy, Codec.pushed_pushed]

/-- The bytes of a sink that never refuses. -/
theorem Codec.Delivered.sink (h : x.Delivered s y) (hn : x.neverRefused = true) :
    y.port.sink = x.port.sink ++ s := by rw [h.never hn]; rfl

theorem Codec.Delivered.dict (h : x.Delivered s y) : y.dict = x.dict := by rw [h.frame]

theorem Decoder.Delivered.refl (d : Decoder) : d.Delivered [] d := ⟨⟨rfl, fun _ => d.codec.pushed_nil.symm⟩, rfl⟩

theorem Decoder.Delivered.trans (h : d.Delivered s g) (j : g.Delivered u k) : d.Delivered (s ++ u) k :=
  ⟨h.codec.trans j.codec, j.prev.trans h.prev⟩

/-- After bytes delivered, a refused push. -/
theorem Decoder.Delivered.sinkFailed (h : d.Delivered s g) (j : g.SinkFailed k) : d.SinkFailed k where
  refused := by
    refine Bool.eq_false_iff.2 fun hn => Bool.false_ne_true (j.refused.symm.trans ?_)
    rw [h.codec.never hn]
    exact hn
  dict := j.dict.trans h.codec.dict
  phase := j.phase
  cause := j.cause

/-- The decoder is the one there was, but for its common part and its stack. -/
theorem Decoder.Delivered.eq (h : d.Delivered s g) (hn : d.codec.neverRefused = true) :
    g = { d with codec := d.codec.pushed s, stk := g.stk, sp := g.sp } := by
  rw [← h.codec.never hn, ← h.prev]

/-- With a sink that never refuses, an operation that fails by a refused push only returns. -/
theorem Decoder.returns_of_never {α : Type} {P : α → Decoder → Prop} {a : Ans Decoder α} (h : a.Meets P d.SinkFailed)
    (hn : d.codec.neverRefused = true) : ∃ v g, a = .ok v g ∧ P v g := by
  cases a with
  | ok v g => exact ⟨v, g, rfl, h⟩
  | failed g => exact absurd (h.refused.symm.trans hn) Bool.false_ne_true
  | fault f => exact h.elim

/-! ### Pushing -/

/-- One byte is delivered, and only the common part is touched (R121). -/
theorem Decoder.sinkPush_delivers (b : Byte) (d : Decoder) :
    (d.sinkPush b).Meets (fun _ g => ∃ x, d.codec.Delivered [b] x ∧ g = d.setCodec x) d.SinkFailed := by
  rw [Decoder.sinkPush, Decoder.onCodec]
  rcases d.codec.sinkPush_cases b with h | ⟨h, hmay⟩ <;> rw [h]
  · refine ⟨_, ⟨rfl, fun hn => ?_⟩, rfl⟩
    rw [Codec.sinkPush_never hn] at h
    injection h with _ h
    exact h.symm
  · exact ⟨by rw [Codec.neverRefused, hmay]; rfl, rfl, rfl, rfl⟩

/-- A byte delivered after others. -/
theorem Decoder.Delivered.sinkPush_delivers {α : Type} (h : d.Delivered s g) (b : Byte) (a : α) :
    ((g.sinkPush b).bind fun _ k => .ok a k).Meets
      (fun v k => d.Delivered (s ++ [b]) k ∧ k.sp = g.sp ∧ v = a) d.SinkFailed := by
  refine ((g.sinkPush_delivers b).mono_failed fun _ => h.sinkFailed).bind ?_
  rintro - _ ⟨x, hx, rfl⟩
  exact ⟨h.trans ⟨hx, rfl⟩, rfl, rfl⟩

/-! ### The stack -/

theorem Decoder.Holds.nil (d : Decoder) : Decoder.Holds { d with sp := 0 } [] := ⟨rfl, nofun⟩

/-- A byte onto the stack (R229). -/
theorem Decoder.Holds.push (h : d.Holds l) (hroom : l.length + 1 < 131072) (b : Byte) :
    Decoder.Holds { d with stk := writeMem d.stk d.sp.toNat b, sp := BitVec.ofNat 17 (d.sp.toNat + 1) } (b :: l) := by
  obtain ⟨hsp, hread⟩ := h
  refine ⟨?_, fun i hi => ?_⟩
  · rw [BitVec.toNat_ofNat, hsp, Nat.mod_eq_of_lt (by omega), List.length_cons]
  · rw [List.length_cons] at hi
    rw [List.reverse_cons, readMem_writeMem, hsp]
    split
    · rename_i htop
      rw [htop, List.getElem?_append_right (by simp)]
      simp
    · rw [List.getElem?_append_left (by rw [List.length_reverse]; omega)]
      exact hread i (by omega)

/-- The byte on top, and the stack below it. -/
theorem Decoder.Holds.pop (h : d.Holds (b :: l)) (x : Codec) :
    readMem d.stk l.length = some b ∧
      Decoder.Holds { d with codec := x, sp := BitVec.ofNat 17 l.length } l := by
  obtain ⟨hsp, hread⟩ := h
  have hlt := d.sp.isLt
  rw [hsp, List.length_cons] at hlt
  refine ⟨?_, ?_, fun i hi => ?_⟩
  · rw [hread _ (by simp), List.reverse_cons, List.getElem?_append_right (by simp)]
    simp
  · rw [BitVec.toNat_ofNat, Nat.mod_eq_of_lt (by omega)]
  · rw [hread i (by rw [List.length_cons]; omega), List.reverse_cons,
      List.getElem?_append_left (by rw [List.length_reverse]; exact hi)]

/-- The stack is delivered from its top, and left empty. -/
theorem Decoder.popAll_delivers (h : d.Holds l) :
    (Decoder.popAll l.length d).Meets (fun _ g => d.Delivered l g ∧ g.sp = 0) d.SinkFailed := by
  induction l generalizing d with
  | nil => exact ⟨.refl d, BitVec.eq_of_toNat_eq h.1⟩
  | cons b l ih =>
    rw [List.length_cons, Decoder.popAll, (h.pop d.codec).1]
    refine ((Decoder.sinkPush_delivers b { d with sp := BitVec.ofNat 17 l.length }).mono_failed
      fun _ hg => (⟨hg.refused, hg.dict, hg.phase, hg.cause⟩ : d.SinkFailed _)).bind ?_
    rintro - _ ⟨x, hx, rfl⟩
    have hd : d.Delivered [b] { d with codec := x, sp := BitVec.ofNat 17 l.length } := ⟨hx, rfl⟩
    exact (ih (h.pop x).2).mono (fun _ g hg => ⟨hd.trans hg.1, hg.2⟩) fun _ => hd.sinkFailed

/-! ### Expansion -/

/-- The walk along a string of at most `k` prefixes puts all of it but the first byte on the stack, and answers the code
of that byte. -/
theorem Decoder.walk_of_stringIn {k fuel : Nat} (h : d.codec.dict.stringIn k c = some s) (hl : d.Holds l)
    (hmax : d.codec.dict.max.toNat ≤ 65536) (hroom : l.length + k ≤ d.codec.dict.max.toNat - 258) (hfuel : k ≤ fuel) :
    ∃ root g u, Decoder.walk fuel c d = .ok root g ∧ root.toNat ≤ 255 ∧ s = root.setWidth 8 :: u ∧ g.codec = d.codec ∧
      g.prev = d.prev ∧ g.Holds (u ++ l) := by
  induction k generalizing c d s l fuel with
  | zero =>
    obtain ⟨hlit, rfl⟩ | ⟨j, p, b, u, hk, -⟩ := Dict.stringIn_eq_some h
    · exact ⟨c, d, [], Decoder.walk_root (by omega) _ _, hlit, rfl, rfl, rfl, hl⟩
    · cases hk
  | succ k ih =>
    obtain ⟨hlit, rfl⟩ | ⟨j, p, b, u, hk, has, hp, hb, hu, rfl⟩ := Dict.stringIn_eq_some h
    · exact ⟨c, d, [], Decoder.walk_root (by omega) _ _, hlit, rfl, rfl, rfl, hl⟩
    · cases hk
      obtain ⟨fuel, rfl⟩ := Nat.exists_eq_add_of_le' (Nat.succ_pos k |>.trans_le hfuel)
      obtain ⟨hc, hnf⟩ := (Dict.isAssignedString_iff _ _).1 has
      have hstr : Config.firstString ≤ c.toNat := hc
      have hguard : ¬ d.sp.toNat = d.codec.dict.max.toNat - Config.firstString := by
        rw [hl.1, Config.firstString]
        omega
      have hpair : d.codec.dict.pair c = some (p, b) :=
        (Dict.pair_eq_some _ _ _ _).2 ⟨(Dict.assigned_iff _ _).2 (.inr hnf), hp, hb⟩
      rw [Decoder.walk, if_pos hstr, if_neg hguard, hpair]
      obtain ⟨root, g, u', hwalk, hroot, rfl, hcodec, hprev, hg⟩ :=
        ih (d := { d with stk := writeMem d.stk d.sp.toNat b, sp := BitVec.ofNat 17 (d.sp.toNat + 1) }) hu
          (hl.push (by omega) b) hmax (by rw [List.length_cons]; exact (Nat.add_right_comm _ _ _).trans_le hroom)
          (Nat.le_of_succ_le_succ hfuel)
      exact ⟨root, g, u' ++ [b], hwalk, hroot, rfl, hcodec, hprev, by rwa [List.append_assoc]⟩

/-- `EXPAND` of a code with a string delivers it, answers its first byte and leaves the stack empty (R229). -/
theorem Decoder.expand_delivers (hmax : d.codec.dict.max.toNat ≤ 65536) (h : d.codec.dict.string c = some s) :
    (d.expand c).Meets (fun fb g => d.Delivered s g ∧ g.sp = 0 ∧ s.head? = some fb) d.SinkFailed := by
  obtain ⟨root, g, u, hwalk, hroot, rfl, hcodec, hprev, hg⟩ :=
    Decoder.walk_of_stringIn (d := { d with sp := 0 }) (fuel := d.codec.dict.max.toNat - Config.firstString + 1) h
      (Decoder.Holds.nil d) hmax (by rw [List.length_nil, Nat.zero_add, Config.firstString]) (Nat.le_succ _)
  have hdata : isDataCode root = true := (isDataCode_iff root).2 (by omega)
  rw [List.append_nil] at hg
  have hd : d.Delivered [] g := ⟨by rw [hcodec]; exact (Decoder.Delivered.refl d).codec, hprev⟩
  rw [Decoder.expand, hwalk, Ans.bind_ok, if_pos hdata]
  refine ((g.sinkPush_delivers _).mono_failed fun _ => hd.sinkFailed).bind ?_
  rintro - _ ⟨x, hx, rfl⟩
  have hfirst : d.Delivered [root.setWidth 8] (g.setCodec x) := hd.trans ⟨hx, rfl⟩
  have hpop := Decoder.popAll_delivers (d := g.setCodec x) hg
  rw [← hg.1] at hpop
  exact (hpop.mono_failed fun _ => hfirst.sinkFailed).bind fun _ k hk => ⟨hfirst.trans hk.1, hk.2, rfl⟩

end

end Sys2Proof.Machine
end

section
/-! `EXPAND` and the tokens as instructions (spec/44_decoder.md R226 to R229, R234). -/

namespace Sys2Proof.Machine

theorem exec_expand (c : Code) (s : State) :
    exec (.expand c) s = (s.dec.expand c).toStep (fun d => { s with dec := d }) .byte := rfl

theorem exec_lit (b : Byte) (s : State) :
    exec (.lit b) s = (s.dec.lit b).toStep (fun d => { s with dec := d }) .byte := rfl

/-- The two rows of `STR` are one token (log entry 12). -/
theorem exec_str (c : Code) (s : State) :
    exec (.str c) s = (s.dec.strToken c).toStep (fun d => { s with dec := d }) .byte := rfl

theorem exec_strKwKwK (c : Code) (s : State) :
    exec (.strKwKwK c) s = (s.dec.strToken c).toStep (fun d => { s with dec := d }) .byte := rfl

section
variable {d g : Decoder} {c p : Code} {b : Byte} {s : List Byte}

/-! ### Which token (R225 to R228) -/

theorem Decoder.strToken_of_pending (h : d.isPending c = true) : d.strToken c = d.kwkwk := if_pos h

theorem Decoder.strToken_of_not_pending (h : d.isPending c = false) : d.strToken c = d.str c :=
  if_neg (Bool.eq_false_iff.1 h)

theorem Decoder.kwkwk_of_prev (h : d.prev = some p) :
    d.kwkwk = (d.expand p).bind fun fb g => (g.sinkPush fb).bind fun _ k => .ok fb k := by
  rw [Decoder.kwkwk, h]

theorem Decoder.str_of_assigned (h : d.codec.dict.assigned c = true) : d.str c = d.expand c := if_pos h

theorem Decoder.str_of_not_assigned (h : d.codec.dict.assigned c = false) : d.str c = .failed (d.raiseFail .badCode) :=
  if_neg (Bool.eq_false_iff.1 h)

/-- A code is not pending where no insertion would take it. -/
theorem Decoder.isPending_eq_false (h : ∀ p, d.prev = some p → d.codec.dict.pending p ≠ some c) :
    d.isPending c = false := by
  rw [Bool.eq_false_iff, Ne, Decoder.isPending_iff, Option.bind_eq_some_iff]
  rintro ⟨p, hp, hpend⟩
  exact h p hp hpend

theorem Decoder.isPending_of_prev (hp : d.prev = some p) (h : d.codec.dict.pending p = some c) :
    d.isPending c = true := by
  rw [Decoder.isPending_iff, hp]
  exact h

/-! ### What a token delivers -/

/-- `LIT` delivers its byte (R226). -/
theorem Decoder.lit_delivers (b : Byte) (d : Decoder) :
    (d.lit b).Meets (fun fb g => d.Delivered [b] g ∧ g.sp = d.sp ∧ fb = b) d.SinkFailed :=
  (Decoder.Delivered.refl d).sinkPush_delivers b b

/-- `KWKWK` delivers the string of `prev` and its first byte again (R228). -/
theorem Decoder.kwkwk_delivers (hprev : d.prev = some p) (hmax : d.codec.dict.max.toNat ≤ 65536)
    (h : d.codec.dict.string p = some s) :
    d.kwkwk.Meets (fun fb g => d.Delivered (s ++ [fb]) g ∧ g.sp = 0 ∧ s.head? = some fb) d.SinkFailed := by
  rw [Decoder.kwkwk_of_prev hprev]
  refine (Decoder.expand_delivers hmax h).bind ?_
  rintro fb g ⟨hg, hsp, hfb⟩
  refine (hg.sinkPush_delivers fb fb).mono_ok ?_
  rintro _ k ⟨hk, hsp', rfl⟩
  exact ⟨hk, hsp'.trans hsp, hfb⟩

/-! ### The bound of an expansion (R234) -/

theorem Decoder.expand_of_root (hc : c.toNat < 258) (hdata : isDataCode c = false) :
    d.expand c = .failed (Decoder.raiseFail .badCode { d with sp := 0 }) := by
  rw [Decoder.expand, Decoder.walk_root hc, Ans.bind_ok, if_neg (Bool.eq_false_iff.1 hdata)]

/-- The decoder after at most `k` more bytes reached its sink. -/
def Decoder.AtMost (d : Decoder) (k : Nat) (g : Decoder) : Prop :=
  g.codec.port.sink.length ≤ d.codec.port.sink.length + k

theorem Decoder.AtMost.mono {i m : Nat} (h : d.AtMost i g) (hm : i ≤ m) : d.AtMost m g :=
  Nat.le_trans h (Nat.add_le_add_left hm _)

/-- Bytes after bytes. -/
theorem Decoder.AtMost.trans {k : Decoder} {i j m : Nat} (h : d.AtMost i g) (hk : g.AtMost j k) (hm : i + j ≤ m) :
    d.AtMost m k := by
  unfold Decoder.AtMost at *
  omega

/-- What holds after a sequence follows from what holds after its first statement. -/
theorem Ans.All.bind_of {σ α β : Type} {P Q : σ → Prop} {x : Ans σ α} {f : α → σ → Ans σ β} (hx : x.All P)
    (hfail : ∀ s, P s → Q s) (hf : ∀ a s, P s → (f a s).All Q) : (x.bind f).All Q := by
  cases x with
  | ok a s => exact hf a s hx
  | failed s => exact hfail s hx
  | fault e => trivial

/-- A push adds at most the byte, whatever the sink answers and keeps, and leaves the stack alone (R121). -/
theorem Decoder.sinkPush_atMost (b : Byte) (d : Decoder) : (d.sinkPush b).All fun g => d.AtMost 1 g ∧ g.sp = d.sp := by
  have hport : (d.codec.port.push b).2.sink.length ≤ d.codec.port.sink.length + 1 := by
    unfold Port.push
    split <;> simp
    split <;> simp
  rw [Decoder.sinkPush, Decoder.onCodec]
  rcases d.codec.sinkPush_cases b with h | ⟨h, -⟩ <;> rw [h] <;> exact ⟨hport, rfl⟩

theorem Decoder.popAll_atMost (k : Nat) (d : Decoder) : (Decoder.popAll k d).All (d.AtMost k) := by
  induction k generalizing d with
  | zero => exact Nat.le_refl _
  | succ k ih =>
    rw [Decoder.popAll, Nat.add_comm k]
    split
    · refine (Decoder.sinkPush_atMost _ { d with sp := BitVec.ofNat 17 k }).bind_of (fun g hg => ?_) fun _ g hg => ?_
      · exact Decoder.AtMost.mono hg.1 (Nat.le_add_right 1 k)
      · exact (ih g).mono fun x hx => Decoder.AtMost.trans hg.1 hx (Nat.le_refl _)
    · trivial

/-- Whatever the dictionary holds, the walk stacks at most `MAX - 258` bytes and pushes none. -/
theorem Decoder.walk_bounded (fuel : Nat) (c : Code) (hmax : d.codec.dict.max.toNat ≤ 65536)
    (hsp : d.sp.toNat ≤ d.codec.dict.max.toNat - 258) :
    (Decoder.walk fuel c d).All
      fun g => g.codec.port = d.codec.port ∧ g.sp.toNat ≤ d.codec.dict.max.toNat - 258 := by
  induction fuel generalizing c d with
  | zero =>
    rw [Decoder.walk]
    split <;> exact ⟨rfl, hsp⟩
  | succ fuel ih =>
    rw [Decoder.walk]
    split
    · split
      · exact ⟨rfl, hsp⟩
      · rename_i hfull
        have hfull' : d.sp.toNat ≠ d.codec.dict.max.toNat - 258 := hfull
        split
        · rename_i p b _
          refine ih (d := { d with stk := writeMem d.stk d.sp.toNat b, sp := BitVec.ofNat 17 (d.sp.toNat + 1) }) p hmax ?_
          rw [BitVec.toNat_ofNat, Nat.mod_eq_of_lt (by omega)]
          exact Nat.lt_of_le_of_ne hsp hfull'
        · trivial
    · exact ⟨rfl, hsp⟩

/-- One byte for the root, and the stack. -/
theorem Decoder.expand_atMost (c : Code) (hlo : 258 ≤ d.codec.dict.max.toNat) (hmax : d.codec.dict.max.toNat ≤ 65536) :
    (d.expand c).All (d.AtMost (d.codec.dict.max.toNat - 257)) := by
  have hwalk : (Decoder.walk (d.codec.dict.max.toNat - Config.firstString + 1) c { d with sp := 0 }).All
      fun g => g.codec.port = d.codec.port ∧ g.sp.toNat ≤ d.codec.dict.max.toNat - 258 :=
    Decoder.walk_bounded (d := { d with sp := 0 }) _ c hmax (Nat.zero_le _)
  have hsame : ∀ g : Decoder, g.codec.port = d.codec.port → d.AtMost 0 g := fun g hport => by
    rw [Decoder.AtMost, hport]
    exact Nat.le_refl _
  refine hwalk.bind_of (fun g hg => (hsame g hg.1).mono (Nat.zero_le _)) fun root g ⟨hport, hsp⟩ => ?_
  split
  · refine (Decoder.sinkPush_atMost _ g).bind_of (fun k hk => ?_) fun _ k hk => ?_
    · exact (hsame g hport).trans hk.1 (by omega)
    · have hk1 : d.AtMost 1 k := (hsame g hport).trans hk.1 (Nat.le_refl _)
      refine Ans.All.bind ((Decoder.popAll_atMost _ k).mono fun x hx => hk1.trans hx ?_) fun _ x hx => hx
      rw [hk.2]
      omega
  · exact (hsame (g.raiseFail .badCode) hport).mono (Nat.zero_le _)

end

/-! ### The statements -/

/-- Settles O38: the walk stacks the string and the pops deliver it (`Decoder.expand_delivers`). -/
theorem expandPushesString : Obligations.ExpandPushesString := by
  intro s c string hnever hmax hstr
  obtain ⟨fb, g, hret, hg, hsp, hfb⟩ := Decoder.returns_of_never (Decoder.expand_delivers hmax hstr) hnever
  refine ⟨g.stk, fb, ?_, hfb⟩
  rw [exec_expand, hret, hg.eq hnever, hsp]
  rfl

/-- Settles O39: 256 and 257 are roots that are no literal; and of any expansion the root is one byte, the others were
on the stack, which has `MAX - 258` entries (`Decoder.expand_atMost`). -/
theorem expandIsGuarded : Obligations.ExpandIsGuarded := by
  refine ⟨fun s c hc => ?_, fun s c t h hlo hmax => ?_⟩
  · have hdata : isDataCode c = false := by
      rw [Bool.eq_false_iff, Ne, isDataCode_iff]
      omega
    rw [exec_expand, Decoder.expand_of_root (by omega) hdata]
    rfl
  · have hall := Decoder.expand_atMost c hlo hmax
    rw [exec_expand] at h
    rcases Ans.toStep_eq_next.1 h with ⟨fb, g, hret, rfl⟩ | ⟨g, hret, rfl⟩ <;> rw [hret] at hall <;> exact hall

/-- Settles O40: the state selects the token, and each delivers its string (`Decoder.lit_delivers`,
`Decoder.kwkwk_delivers`, `Decoder.expand_delivers`). -/
theorem tokensPushTheirStrings : Obligations.TokensPushTheirStrings := by
  refine ⟨fun s b hnever => ?_, fun s c p string _ hprev hpend hnever hmax hstr => ?_,
    fun s c string _ hno has hnever hmax hstr => ?_, fun s c _ hno has => ?_⟩
  · rw [exec_lit, Decoder.lit, Decoder.sinkPush, Decoder.onCodec, Codec.sinkPush_never hnever]
    rfl
  · obtain ⟨fb, g, hret, hg, hsp, hfb⟩ := Decoder.returns_of_never (Decoder.kwkwk_delivers hprev hmax hstr) hnever
    refine ⟨g.stk, fb, ?_, hfb⟩
    rw [exec_strKwKwK, Decoder.strToken_of_pending (Decoder.isPending_of_prev hprev hpend), hret, hg.eq hnever, hsp]
    rfl
  · obtain ⟨fb, g, hret, hg, hsp, hfb⟩ := Decoder.returns_of_never (Decoder.expand_delivers hmax hstr) hnever
    refine ⟨g.stk, fb, ?_, hfb⟩
    rw [exec_str, Decoder.strToken_of_not_pending (Decoder.isPending_eq_false hno), Decoder.str_of_assigned has, hret,
      hg.eq hnever, hsp]
    rfl
  · rw [exec_str, Decoder.strToken_of_not_pending (Decoder.isPending_eq_false hno), Decoder.str_of_not_assigned has]
    rfl

end Sys2Proof.Machine
end

section
/-! Start, header, control tokens and growth of a decoder as instructions (spec/44_decoder.md R220 to R224, R230 to R232;
spec/45_commands.md R251). -/

namespace Sys2Proof.Machine

/-! ### The instructions -/

theorem exec_decStart (s : State) : exec .decStart s = .next { s with dec := s.dec.start, result := .unit } := rfl

/-- An accepted `DECOMPRESS` writes the command register and is `DEC_START` (R251). -/
theorem exec_decompress_of_not_busy {s : State} (h : s.dec.codec.busy = false) (ig : BitVec 7) :
    exec (.decompress ig) s =
      .next { s with dec := (s.dec.setCodec (s.dec.codec.acceptCmd (ig ++ 1#1))).start, result := .unit } :=
  if_neg (Bool.eq_false_iff.1 h)

theorem exec_hdr (b : Byte) (s : State) :
    exec (.hdr b) s = (s.dec.header b).toStep (fun d => { s with dec := d }) fun _ => .unit := rfl

theorem exec_dHdr (s : State) : exec .dHdr s = s.dec.hdr.toStep (fun d => { s with dec := d }) fun _ => .unit := rfl

theorem exec_endTok (s : State) :
    exec .endTok s = .next { s with dec := s.dec.setCodec s.dec.codec.finish, result := .unit } := rfl

theorem exec_clear (s : State) : exec .clear s = .next { s with dec := s.dec.clear, result := .unit } := rfl

theorem exec_pad (j : BitVec 3) (s : State) : exec (.pad j) s = .next s := rfl

theorem exec_decInsert (fb : Byte) (s : State) :
    exec (.decInsert fb) s = (s.dec.decInsert fb).toStep (fun d => { s with dec := d }) codeResult := rfl

theorem exec_decNext (c : Code) (s : State) :
    exec (.decNext c) s = .next { s with dec := s.dec.decNext c, result := .unit } := rfl

section
variable {d : Decoder} {b : Byte} {p : Code}

/-! ### The header (R221) -/

/-- The dictionary a header byte configures and empties, register by register. -/
theorem Dict.configure_clear_eq (b : Byte) (d : Dict) :
    (d.configure b.toNat).clear =
      { d with
        maxbits := b.setWidth 5, max := BitVec.ofNat 17 (2 ^ b.toNat), nextFree := 258, full := false,
        cursor := 258, n := 258 } := by
  rw [Dict.configure, BitVec.ofNat_toNat, Nat.one_shiftLeft]
  rfl

theorem Decoder.header_of_legal (h : isLegalMaxbits b.toNat = true) (d : Decoder) :
    d.header b =
      .ok () (d.setCodec { d.codec with dict := (d.codec.dict.configure b.toNat).clear, phase := .dSymbol }) := if_pos h

theorem Decoder.header_of_illegal (h : isLegalMaxbits b.toNat = false) (d : Decoder) :
    d.header b = .failed (d.raiseFail .badHeader) := if_neg (Bool.eq_false_iff.1 h)

theorem Decoder.hdr_of_byte {bs : List Byte} (h : d.codec.port.source = b :: bs) :
    d.hdr = (d.setCodec { d.codec with port := { d.codec.port with source := bs } }).header b := by
  rw [Decoder.hdr, Codec.srcPull_of_cons h]

theorem Decoder.hdr_of_eoi (h : d.codec.port.source = []) : d.hdr = .failed (d.raiseFail .truncated) := by
  rw [Decoder.hdr, Codec.srcPull_of_nil h]
  rfl

theorem two_pow_toNat_of_legal (h : isLegalMaxbits b.toNat = true) : (BitVec.ofNat 17 (2 ^ b.toNat)).toNat = 2 ^ b.toNat := by
  have hpow : 2 ^ b.toNat ≤ 2 ^ 16 := Nat.pow_le_pow_right (by decide) ((isLegalMaxbits_iff _).1 h).2
  rw [BitVec.toNat_ofNat, Nat.mod_eq_of_lt (by omega)]

theorem exec_dHdr_of_byte {s : State} {bs : List Byte} (h : s.dec.codec.port.source = b :: bs) :
    exec .dHdr s = exec (.hdr b) (s.setCodec .dec { s.dec.codec with port := { s.dec.codec.port with source := bs } }) := by
  rw [exec_dHdr, Decoder.hdr_of_byte h]
  rfl

theorem exec_hdr_of_legal (h : isLegalMaxbits b.toNat = true) (s : State) :
    exec (.hdr b) s =
      .next { s with
        dec := s.dec.setCodec { s.dec.codec with dict := (s.dec.codec.dict.configure b.toNat).clear, phase := .dSymbol }
        result := .unit } := by
  rw [exec_hdr, Decoder.header_of_legal h]
  rfl

/-! ### Growth (R230) -/

theorem Decoder.decInsert_of_none (h : d.prev = none) (fb : Byte) : d.decInsert fb = .ok none d := by
  rw [Decoder.decInsert, h]

theorem Decoder.decInsert_of_some (h : d.prev = some p) (fb : Byte) :
    d.decInsert fb = .ok (d.codec.dict.insert p fb).1 (d.setDict (d.codec.dict.insert p fb).2) := by
  rw [Decoder.decInsert, h]
  rfl

end

/-! ### The statements -/

/-- Settles O5: `DECOMPRESS` starts the decoder as `DEC_START` does, after the command byte. -/
theorem decompressStartsDecoder : Obligations.DecompressStartsDecoder :=
  ⟨exec_decStart, fun _ ig hb => exec_decompress_of_not_busy hb ig⟩

/-- Settles O36: the whole byte is compared (`Decoder.header_of_legal`, `Decoder.header_of_illegal`), and `D_HDR` is that
of the byte pulled (`Decoder.hdr_of_byte`, `Decoder.hdr_of_eoi`). -/
theorem headerByteIsChecked : Obligations.HeaderByteIsChecked := by
  refine ⟨fun s b hlo hhi => ?_, fun s b hb => ?_, fun s b bs => exec_dHdr_of_byte, fun s b bs hsrc hlo hhi => ?_,
    fun s hsrc => ?_⟩
  · rw [exec_hdr_of_legal ((isLegalMaxbits_iff _).2 ⟨hlo, hhi⟩), Dict.configure_clear_eq]
    rfl
  · have hbad : isLegalMaxbits b.toNat = false := by
      rw [Bool.eq_false_iff, Ne, isLegalMaxbits_iff]
      omega
    rw [exec_hdr, Decoder.header_of_illegal hbad]
    exact ⟨_, rfl, rfl, rfl, rfl, rfl⟩
  · have hm := (isLegalMaxbits_iff _).2 ⟨hlo, hhi⟩
    rw [exec_dHdr_of_byte hsrc, exec_hdr_of_legal hm, Dict.configure_clear_eq]
    exact ⟨_, rfl, rfl, rfl, two_pow_toNat_of_legal hm, rfl, rfl⟩
  · rw [exec_dHdr, Decoder.hdr_of_eoi hsrc]
    exact ⟨_, rfl, rfl, rfl, rfl, rfl⟩

/-- Settles O37: each control token, written out. -/
theorem controlTokens : Obligations.ControlTokens :=
  ⟨exec_endTok, exec_clear, fun s j => exec_pad j s⟩

/-- Settles O41: `prev` selects whether there is an insertion (`Decoder.decInsert_of_none`,
`Decoder.decInsert_of_some`). -/
theorem decoderGrowth : Obligations.DecoderGrowth := by
  refine ⟨fun s fb hprev => ?_, fun s fb p hprev _ => ?_, fun s c _ => exec_decNext c s⟩
  · rw [exec_decInsert, Decoder.decInsert_of_none hprev]
    rfl
  · rw [exec_decInsert, Decoder.decInsert_of_some hprev]
    exact ⟨rfl, _, rfl⟩

/-! ### `DATA` as its parts (R225) -/

section
variable {s t : State} {c : Code} {fb : Byte}

theorem exec_data (c : Code) (s : State) :
    exec (.data c) s = (s.dec.data c).toStep (fun d => { s with dec := d }) fun _ => .unit := rfl

/-- The instruction named for the token of `c` does what `DATA(c)` does first. -/
theorem exec_dataTokenOf (s : State) (c : Code) :
    exec (s.dec.dataTokenOf c) s = (s.dec.dataToken c).toStep (fun d => { s with dec := d }) .byte := by
  rw [Decoder.dataTokenOf, Decoder.dataToken]
  split
  · rename_i hpend
    have hpend' := (Decoder.isPending_iff c s.dec).2 hpend
    rw [exec_strKwKwK, Decoder.strToken_of_pending hpend', if_pos hpend']
  · rename_i hpend
    have hpend' := mt (Decoder.isPending_iff c s.dec).1 hpend
    rw [if_neg hpend']
    split
    · rw [exec_lit]
    · rw [exec_str, Decoder.strToken_of_not_pending (Bool.eq_false_iff.2 hpend')]

/-- A token that answers a byte returned. -/
theorem exec_dataTokenOf_eq_byte (h : exec (s.dec.dataTokenOf c) s = .next t) (hfb : t.result = .byte fb) :
    ∃ g, s.dec.dataToken c = .ok fb g ∧ t = { s with dec := g, result := .byte fb } := by
  rw [exec_dataTokenOf] at h
  rcases Ans.toStep_eq_next.1 h with ⟨x, g, hg, rfl⟩ | ⟨g, -, rfl⟩
  · cases hfb
    exact ⟨g, hg, rfl⟩
  · cases hfb

/-- `DEC_INSERT` that answers a next state returned: it never fails. -/
theorem exec_decInsert_eq_next (h : exec (.decInsert fb) s = .next t) :
    ∃ r g, s.dec.decInsert fb = .ok r g ∧ t = { s with dec := g, result := codeResult r } := by
  cases hprev : s.dec.prev with
  | none =>
    rw [exec_decInsert, Decoder.decInsert_of_none hprev] at h
    cases h
    exact ⟨_, _, Decoder.decInsert_of_none hprev fb, rfl⟩
  | some p =>
    rw [exec_decInsert, Decoder.decInsert_of_some hprev] at h
    cases h
    exact ⟨_, _, Decoder.decInsert_of_some hprev fb, rfl⟩

end

/-- Settles O42: each part that answers a next state returned on the decoder, so `DATA` runs through them. -/
theorem dataIsTokenInsertNext : Obligations.DataIsTokenInsertNext := by
  intro s c fb s1 s2 s3 _ _ htok hfb hins hnext
  obtain ⟨d1, hret1, rfl⟩ := exec_dataTokenOf_eq_byte htok hfb
  obtain ⟨r, d2, hret2, rfl⟩ := exec_decInsert_eq_next hins
  cases hnext
  have hret : d1.decInsert fb = .ok r d2 := hret2
  rw [exec_data, Decoder.data, hret1, Ans.bind_ok, hret]
  rfl

end Sys2Proof.Machine
end

section
/-! `DATA` at a symbol boundary (spec/44_decoder.md R225): the token delivers what its code spells once the pending insertion
is made. `Decoder.inserted` is that dictionary; a code is read with the string it has there, whether it is the pending code
or not. -/

namespace Sys2Proof.Machine

/-- The dictionary after `DEC_INSERT(fb)` (R230). -/
def Decoder.inserted (d : Decoder) (fb : Byte) : Dict :=
  match d.prev with
  | some p => (d.codec.dict.insert p fb).2
  | none => d.codec.dict

/-- Two triples of one operation, together. -/
theorem Ans.Meets.and {σ α : Type} {P P' : α → σ → Prop} {Q Q' : σ → Prop} {x : Ans σ α} (h : x.Meets P Q)
    (h' : x.Meets P' Q') : x.Meets (fun a s => P a s ∧ P' a s) fun s => Q s ∧ Q' s := by
  cases x with
  | ok a s => exact ⟨h, h'⟩
  | failed s => exact ⟨h, h'⟩
  | fault f => exact h.elim

section
variable {d g : Decoder} {c p : Code} {fb : Byte} {s : List Byte} {x : Codec}

theorem Decoder.inserted_of_none (h : d.prev = none) (fb : Byte) : d.inserted fb = d.codec.dict := by
  rw [Decoder.inserted, h]

theorem Decoder.inserted_of_some (h : d.prev = some p) (fb : Byte) :
    d.inserted fb = (d.codec.dict.insert p fb).2 := by
  rw [Decoder.inserted, h]

theorem Decoder.inserted_congr (hprev : g.prev = d.prev) (hdict : g.codec.dict = d.codec.dict) (fb : Byte) :
    g.inserted fb = d.inserted fb := by
  rw [Decoder.inserted, hprev, hdict, Decoder.inserted]

/-- `DEC_INSERT` changes the dictionary only. -/
theorem Decoder.decInsert_eq_inserted (fb : Byte) (d : Decoder) :
    ∃ r, d.decInsert fb = .ok r (d.setDict (d.inserted fb)) := by
  cases hp : d.prev with
  | none => exact ⟨none, by rw [Decoder.decInsert_of_none hp, Decoder.inserted_of_none hp]; rfl⟩
  | some p => exact ⟨_, by rw [Decoder.decInsert_of_some hp, Decoder.inserted_of_some hp]⟩

/-- Where the pending insertion takes no slot or another one, a code keeps its string. -/
theorem Decoder.inserted_spells_iff (h : d.codec.dict.Inv) (hsym : d.SymbolInv) (hc : d.isPending c = false)
    (fb : Byte) : (d.inserted fb).Spells c s ↔ d.codec.dict.Spells c s := by
  cases hp : d.prev with
  | none => rw [Decoder.inserted_of_none hp]
  | some p =>
    rw [Decoder.inserted_of_some hp]
    refine h.insert_spells_iff (hsym.of_some hp).1 (fun hpend => ?_) fb
    exact Bool.false_ne_true (hc.symm.trans (Decoder.isPending_of_prev hp hpend))

/-- The pending code's string is that of `prev`, with the byte at its end. -/
theorem Decoder.inserted_spells_pending (h : d.codec.dict.Inv) (hsym : d.SymbolInv) (hprev : d.prev = some p)
    (hpend : d.codec.dict.pending p = some c) (hs : (d.inserted fb).Spells c s) :
    ∃ u, d.codec.dict.Spells p u ∧ s = u ++ [fb] := by
  rw [Decoder.inserted_of_some hprev] at hs
  obtain ⟨hpfx, hterm, -⟩ := h.insert_pair hpend fb
  obtain ⟨p', b, u, hp', hb, hu, rfl⟩ := hs.of_string (h.pending_isString hpend)
  cases hpfx.symm.trans hp'
  cases hterm.symm.trans hb
  exact ⟨u, (h.insert_spells_prefix_iff (hsym.of_some hprev).1 fb).1 hu, rfl⟩

/-- A pending code is that of an insertion with the prefix `prev`. -/
theorem Decoder.exists_prev_of_pending (h : d.isPending c = true) :
    ∃ p, d.prev = some p ∧ d.codec.dict.pending p = some c := by
  rw [Decoder.isPending_iff, Option.bind_eq_some_iff] at h
  exact h

/-! ### The token -/

/-- The token of a code delivers the string it has after the insertion of that string's first byte, and answers that
byte (R225 to R228). -/
theorem Decoder.dataToken_delivers (h : d.codec.dict.Inv) (hsym : d.SymbolInv) (hsp : d.sp = 0)
    (hs : (d.inserted fb).Spells c s) (hfb : s.head? = some fb) :
    (d.dataToken c).Meets (fun v g => d.Delivered s g ∧ g.sp = 0 ∧ v = fb) d.SinkFailed := by
  have hmax := h.max_range.2
  rw [Decoder.dataToken]
  split
  · rename_i hpend
    obtain ⟨p, hprev, hpend⟩ := Decoder.exists_prev_of_pending hpend
    obtain ⟨u, hu, rfl⟩ := Decoder.inserted_spells_pending h hsym hprev hpend hs
    refine (Decoder.kwkwk_delivers hprev hmax (h.string_eq_some_iff.2 hu)).mono_ok ?_
    rintro v g ⟨hg, hsp', hv⟩
    rw [hu.head?_append, hv] at hfb
    cases hfb
    exact ⟨hg, hsp', rfl⟩
  · rename_i hpend
    rw [Decoder.inserted_spells_iff h hsym (Bool.eq_false_iff.2 hpend)] at hs
    split
    · rename_i hlit
      cases hs.of_literal hlit
      cases hfb
      refine (d.lit_delivers _).mono_ok ?_
      rintro v g ⟨hg, hsp', rfl⟩
      exact ⟨hg, hsp'.trans hsp, rfl⟩
    · rw [Decoder.str_of_assigned (Bool.and_eq_true_iff.1 hs.denotes).1]
      refine (Decoder.expand_delivers hmax (h.string_eq_some_iff.2 hs)).mono_ok ?_
      rintro v g ⟨hg, hsp', hv⟩
      cases hv.symm.trans hfb
      exact ⟨hg, hsp', rfl⟩

/-- A code below `n` that is not pending denotes a string (R174). -/
theorem Decoder.denotes_of_lt (h : d.codec.dict.Inv) (hsym : d.SymbolInv) (hdata : isDataCode c = true)
    (hc : c.toNat < d.codec.dict.n.toNat) (hpend : d.isPending c = false) : d.codec.dict.denotes c = true := by
  refine (Dict.denotes_iff _ _).2 ⟨?_, (isDataCode_iff c).1 hdata⟩
  cases hp : d.prev with
  | none =>
    obtain ⟨hn, -⟩ := hsym.of_none hp
    rw [hn] at hc
    exact .inl hc
  | some p =>
    obtain ⟨-, hn⟩ := hsym.of_some hp
    rw [hn] at hc
    by_contra hno
    have hhead : c.toNat = d.codec.dict.nextFree.toNat := by omega
    have hf := Dict.hasFree_of_lt (d := d.codec.dict) (by omega)
    have hslot : d.codec.dict.pending p = some c := by
      rw [Dict.pending_of_hasFree hf]
      exact congrArg some (BitVec.eq_of_toNat_eq ((h.freeHead_toNat hf).trans hhead.symm))
    exact Bool.false_ne_true (hpend.symm.trans (Decoder.isPending_of_prev hp hslot))

/-- Every data code below `n` has a string after the insertion of that string's first byte. -/
theorem Decoder.exists_inserted_spells (h : d.codec.dict.Inv) (hforest : d.codec.dict.Forest) (hsym : d.SymbolInv)
    (hdata : isDataCode c = true) (hc : c.toNat < d.codec.dict.n.toNat) :
    ∃ s fb, (d.inserted fb).Spells c s ∧ s.head? = some fb := by
  cases hpend : d.isPending c with
  | true =>
    obtain ⟨p, hprev, hpend⟩ := Decoder.exists_prev_of_pending hpend
    obtain ⟨hpd, -⟩ := hsym.of_some hprev
    obtain ⟨u, hu⟩ := Dict.forest_iff.1 hforest p hpd
    obtain ⟨fb, hfb⟩ := hu.exists_head
    obtain ⟨hpfx, hterm, has⟩ := h.insert_pair hpend fb
    refine ⟨u ++ [fb], fb, ?_, (hu.head?_append _).trans hfb⟩
    rw [Decoder.inserted_of_some hprev]
    exact .string has hpfx hterm ((h.insert_spells_prefix_iff hpd fb).2 hu)
  | false =>
    obtain ⟨s, hs⟩ := Dict.forest_iff.1 hforest c (Decoder.denotes_of_lt h hsym hdata hc hpend)
    obtain ⟨fb, hfb⟩ := hs.exists_head
    exact ⟨s, fb, (Decoder.inserted_spells_iff h hsym hpend fb).2 hs, hfb⟩

/-! ### `DATA` -/

/-- The insertion keeps the forest well founded (R173). -/
theorem Decoder.inserted_forest (h : d.codec.dict.Inv) (hforest : d.codec.dict.Forest) (hsym : d.SymbolInv) (fb : Byte) :
    (d.inserted fb).Forest := by
  cases hp : d.prev with
  | none => rw [Decoder.inserted_of_none hp]; exact hforest
  | some p => rw [Decoder.inserted_of_some hp]; exact insertKeepsForest _ p fb h hforest (hsym.of_some hp).1

/-- `g` is `d` after `DATA(c)` that delivered `s`, of which `fb` is the first byte: the pending insertion is made, `n` is
stepped, `c` is the new `prev`. -/
structure Decoder.DataDone (d : Decoder) (c : Code) (s : List Byte) (fb : Byte) (g : Decoder) : Prop where
  codec : ∃ x, d.codec.Delivered s x ∧ g.codec = x.setDict (d.inserted fb).alphaStep
  prev : g.prev = some c
  sp : g.sp = 0

theorem Decoder.DataDone.dict (h : d.DataDone c s fb g) : g.codec.dict = (d.inserted fb).alphaStep := by
  obtain ⟨x, -, hg⟩ := h.codec
  rw [hg, Codec.setDict_dict]

/-- With a sink that never refuses, the whole of the common part. -/
theorem Decoder.DataDone.codec_of_never (h : d.DataDone c s fb g) (hn : d.codec.neverRefused = true) :
    g.codec = (d.codec.pushed s).setDict (d.inserted fb).alphaStep := by
  obtain ⟨x, hx, hg⟩ := h.codec
  rw [hg, hx.never hn]

/-- `DATA(c)` delivers the string `c` has after the insertion of that string's first byte. -/
theorem Decoder.data_delivers (h : d.codec.dict.Inv) (hsym : d.SymbolInv) (hsp : d.sp = 0)
    (hs : (d.inserted fb).Spells c s) (hfb : s.head? = some fb) :
    (d.data c).Meets (fun _ => d.DataDone c s fb) d.SinkFailed := by
  refine (Decoder.dataToken_delivers h hsym hsp hs hfb).bind ?_
  rintro v g ⟨hg, hsp', hv⟩
  subst v
  obtain ⟨r, hins⟩ := g.decInsert_eq_inserted fb
  have hdict : g.inserted fb = d.inserted fb := Decoder.inserted_congr hg.prev hg.codec.dict fb
  rw [hins, Ans.bind_ok, hdict]
  exact ⟨⟨g.codec, hg.codec, rfl⟩, rfl, hsp'⟩

end

/-! ### The statements -/

section
variable {d g : Decoder} {c : Code} {fb : Byte} {s : List Byte} {x : Codec}

/-- `DATA` of a data code keeps the invariant (R225). -/
theorem Decoder.Inv.data_meets (h : d.Inv) (hp : d.codec.phase = .dSymbol) (hdata : isDataCode c = true) :
    (d.data c).Meets (fun _ => Decoder.Inv) Decoder.Inv := by
  rw [← h.symbol_eq_data hp hdata]
  exact h.symbol_meets hp c

/-- In a running decoder `DATA` delivers its string and keeps the invariant; it fails by a refused push only. -/
theorem Decoder.Inv.data_delivers (h : d.Inv) (hp : d.codec.phase = .dSymbol) (hs : (d.inserted fb).Spells c s)
    (hfb : s.head? = some fb) (hdata : isDataCode c = true) :
    (d.data c).Meets (fun _ g => d.DataDone c s fb g ∧ g.Inv) d.SinkFailed :=
  ((Decoder.data_delivers h.dict (h.symbol hp) (h.stack (Codec.busy_of_phase hp)) hs hfb).and
    (h.data_meets hp hdata)).mono_failed fun _ => And.left

/-- The string delivered is the one `c` has in the dictionary `DATA` leaves. -/
theorem Decoder.DataDone.string (hg : d.DataDone c s fb g) (hi : g.Inv) (hs : (d.inserted fb).Spells c s) :
    g.codec.dict.string c = some s := by
  rw [hi.dict.string_eq_some_iff, hg.dict]
  exact Dict.alphaStep_spells_iff.2 hs

/-- With a well-founded forest and a code below `n`, `DATA` returns or a push is refused; the forest stays. -/
theorem Decoder.Inv.data_of_lt (h : d.Inv) (hforest : d.codec.dict.Forest) (hp : d.codec.phase = .dSymbol)
    (hdata : isDataCode c = true) (hc : c.toNat < d.codec.dict.n.toNat) :
    ∃ s fb, (d.data c).Meets
      (fun _ g => d.DataDone c s fb g ∧ g.Inv ∧ g.codec.dict.Forest ∧ g.codec.dict.string c = some s) d.SinkFailed := by
  obtain ⟨s, fb, hs, hfb⟩ := Decoder.exists_inserted_spells h.dict hforest (h.symbol hp) hdata hc
  refine ⟨s, fb, (h.data_delivers hp hs hfb hdata).mono_ok fun _ g ⟨hg, hi⟩ => ⟨hg, hi, ?_, hg.string hi hs⟩⟩
  rw [hg.dict]
  exact (Decoder.inserted_forest h.dict hforest (h.symbol hp) fb).alphaStep

end

/-- Settles O43: below `n` a code has a string after the insertion (`Decoder.exists_inserted_spells`), and `DATA` delivers
it (`Decoder.Inv.data_delivers`). -/
theorem dataCompletes : Obligations.DataCompletes := by
  intro s c h hforest hp hdata hc hnever
  obtain ⟨string, fb, hmeets⟩ := h.data_of_lt hforest hp hdata hc
  obtain ⟨_, g, hret, hg, hi, hforest', hstr⟩ := Decoder.returns_of_never hmeets hnever
  refine ⟨g, string, by rw [exec_data, hret]; rfl, hi, hforest', hg.prev, hstr, ?_⟩
  rw [hg.codec_of_never hnever]
  rfl

end Sys2Proof.Machine
end

section
/-! `D_SYMBOL` in a running decoder (spec/44_decoder.md R222, R233): what the bits ahead select, and how it can fail. -/

namespace Sys2Proof.Machine

theorem exec_dSymbol (s : State) :
    exec .dSymbol s = s.dec.dSymbol.toStep (fun d => { s with dec := d }) fun _ => .unit := rfl

section
variable {d g : Decoder} {c : Code} {x : Codec} {s : List Byte} {fb : Byte} {v : Nat}

theorem Codec.Took.neverRefused {c d : Codec} (h : c.Took d) : d.neverRefused = c.neverRefused := by rw [h.frame]; rfl

theorem Codec.Took.sink {c d : Codec} (h : c.Took d) : d.port.sink = c.port.sink := by rw [h.frame]

/-- The code a codeword carries, as a register of 16 bits. -/
theorem ofNat_toNat_of_lt_alphabet (h : d.codec.dict.Inv) (hv : v < d.codec.dict.n.toNat) :
    (BitVec.ofNat 16 v).toNat = v := by
  have := h.alphabet.2
  rw [BitVec.toNat_ofNat, Nat.mod_eq_of_lt (by omega)]

/-- `D_SYMBOL` does what the codeword ahead stands for, on the decoder that has read it; where none is ahead it reads the
source to its end and fails with `TRUNCATED` (R142, R222). -/
theorem Decoder.Inv.dSymbol_cases (h : d.Inv) (hp : d.codec.phase = .dSymbol) :
    (∃ v x, readCodeword d.codec.dict.n.toNat d.codec.ahead = some (v, x.ahead) ∧ v < d.codec.dict.n.toNat ∧
        d.codec.Took x ∧ d.dSymbol = (d.setCodec x).symbol (BitVec.ofNat 16 v)) ∨
      (readCodeword d.codec.dict.n.toNat d.codec.ahead = none ∧
        ∃ buf, d.dSymbol = .failed (d.setCodec
          (({ d.codec with buf := buf, port := { d.codec.port with source := [] } } : Codec).raiseFail .truncated))) := by
  obtain ⟨hlo, hhi⟩ := h.dict.alphabet
  have hbuf := h.unpacker (Codec.busy_of_phase hp)
  rcases Codec.readCode_cases hlo hhi hbuf with ⟨v, x, hread, hok, htook⟩ | ⟨hread, -⟩
  · exact .inl ⟨v, x, hread, readCodeword_lt hlo hhi hread, htook, Decoder.dSymbol_of_readCode h.dict hok⟩
  · obtain ⟨buf, hfail⟩ := Codec.readCode_of_none hlo hhi hbuf hread
    refine .inr ⟨hread, buf, ?_⟩
    rw [Decoder.dSymbol, Decoder.onCodec, Codec.abDec_of_alphabet hlo hhi, hfail]
    rfl

/-- Of the common part `DATA` changes the port and the dictionary. -/
theorem Decoder.DataDone.phase (h : d.DataDone c s fb g) : g.codec.phase = d.codec.phase := by
  obtain ⟨x, hx, hg⟩ := h.codec
  rw [hg, hx.frame]
  rfl

/-- However `D_SYMBOL` ends, the forest is well founded; and it fails with `TRUNCATED` or `SINK_FAIL` (R173, R233). -/
theorem Decoder.Inv.dSymbol_keeps_forest (h : d.Inv) (hforest : d.codec.dict.Forest) (hp : d.codec.phase = .dSymbol) :
    d.dSymbol.Meets (fun _ g => g.codec.dict.Forest ∧ g.codec.phase ≠ .failed)
      fun g => g.codec.dict.Forest ∧ (g.codec.cause = 3 ∨ g.codec.cause = 4) := by
  rcases h.dSymbol_cases hp with ⟨v, x, -, hv, htook, heq⟩ | ⟨-, buf, heq⟩ <;> rw [heq]
  · have hi : (d.setCodec x).Inv := h.setCodec hp htook.returned
    have hforest' : (d.setCodec x).codec.dict.Forest := by rw [Decoder.setCodec_codec, htook.returned.dict]; exact hforest
    have hp' : (d.setCodec x).codec.phase = .dSymbol := htook.returned.phase.trans hp
    have hcode := ofNat_toNat_of_lt_alphabet h.dict hv
    by_cases hend : v = 257
    · rw [Decoder.symbol_eq_finish (hcode.trans hend)]
      exact ⟨hforest', nofun⟩
    by_cases hclear : v = 256
    · rw [Decoder.symbol_eq_clear hp' (hcode.trans hclear)]
      exact ⟨Dict.clear_forest _, fun hfail => Phase.noConfusion (hp'.symm.trans hfail)⟩
    have hdata : isDataCode (BitVec.ofNat 16 v) = true := by
      rw [isDataCode_iff, hcode]
      exact ⟨hclear, hend⟩
    obtain ⟨s, fb, hmeets⟩ := hi.data_of_lt hforest' hp' hdata
      (by rw [hcode, Decoder.setCodec_codec, htook.returned.dict]; exact hv)
    rw [hi.symbol_eq_data hp' hdata]
    refine hmeets.mono ?_ fun g hg => ⟨by rw [hg.dict]; exact hforest', .inr hg.cause⟩
    rintro - g ⟨hg, -, hgforest, -⟩
    exact ⟨hgforest, fun hfail => Phase.noConfusion ((hg.phase.trans hp').symm.trans hfail)⟩
  · exact ⟨hforest, .inl rfl⟩

end

/-- Settles O55, from the two ways `D_SYMBOL` ends (`Decoder.Inv.dSymbol_keeps_forest`). -/
theorem decoderNeverFailsWithBadCode : Obligations.DecoderNeverFailsWithBadCode := by
  intro s t h hforest hp hexec
  have hmeets := h.dSymbol_keeps_forest hforest hp
  rw [exec_dSymbol] at hexec
  rcases Ans.toStep_eq_next.1 hexec with ⟨_, g, hret, rfl⟩ | ⟨g, hret, rfl⟩ <;> rw [hret] at hmeets
  · exact ⟨hmeets.1, fun hfail => absurd hfail hmeets.2⟩
  · exact ⟨hmeets.1, fun _ => hmeets.2⟩

section
variable {d : Decoder} {x : Codec} {v : Nat}

/-- On the decoder that has read the codeword of a data code, `DATA` completes (R225). -/
theorem Decoder.Inv.symbol_data_completes (h : d.Inv) (hforest : d.codec.dict.Forest) (hp : d.codec.phase = .dSymbol)
    (hnever : d.codec.neverRefused = true) (hv : v < d.codec.dict.n.toNat) (hclear : v ≠ 256) (hend : v ≠ 257) :
    ∃ g s fb, d.symbol (BitVec.ofNat 16 v) = .ok () g ∧ d.DataDone (BitVec.ofNat 16 v) s fb g ∧
      g.codec.dict.string (BitVec.ofNat 16 v) = some s := by
  have hcode := ofNat_toNat_of_lt_alphabet h.dict hv
  have hdata : isDataCode (BitVec.ofNat 16 v) = true := by
    rw [isDataCode_iff, hcode]
    exact ⟨hclear, hend⟩
  obtain ⟨s, fb, hmeets⟩ := h.data_of_lt hforest hp hdata (by rw [hcode]; exact hv)
  obtain ⟨_, g, hret, hg, -, -, hstr⟩ := Decoder.returns_of_never hmeets hnever
  exact ⟨g, s, fb, (h.symbol_eq_data hp hdata).trans hret, hg, hstr⟩

end

/-- Settles O45: what the bits ahead select (`Decoder.Inv.dSymbol_cases`) is `END`, `CLEAR`, or `DATA` of a code below `n`,
which completes. -/
theorem symbolRunsCodewordAhead : Obligations.SymbolRunsCodewordAhead := by
  intro s h hforest hp hnever
  rw [exec_dSymbol]
  rcases h.dSymbol_cases hp with ⟨v, x, hread, hv, htook, heq⟩ | ⟨hread, buf, heq⟩ <;> rw [heq, hread]
  · refine ⟨?_, nofun⟩
    rintro _ _ ⟨⟩
    have hi : (s.dec.setCodec x).Inv := h.setCodec hp htook.returned
    have hp' : (s.dec.setCodec x).codec.phase = .dSymbol := htook.returned.phase.trans hp
    have hdict : (s.dec.setCodec x).codec.dict = s.dec.codec.dict := htook.returned.dict
    have hnever' : (s.dec.setCodec x).codec.neverRefused = true := htook.neverRefused.trans hnever
    have h7 : x.buf.nbits.toNat ≤ 7 := ((BitBuf.settled_iff _).1 htook.settled).1
    have hcode := ofNat_toNat_of_lt_alphabet h.dict hv
    by_cases hend : v = 257
    · rw [Decoder.symbol_eq_finish (hcode.trans hend)]
      exact ⟨_, rfl, rfl, h7, fun _ => ⟨rfl, hdict, rfl, htook.sink⟩, fun hclear => by omega, fun _ hne => absurd hend hne⟩
    by_cases hclear : v = 256
    · rw [Decoder.symbol_eq_clear hp' (hcode.trans hclear)]
      exact ⟨_, rfl, rfl, h7, fun hend' => absurd hend' hend, fun _ => ⟨hp', rfl, htook.sink, congrArg Dict.clear hdict⟩,
        fun hne => absurd hclear hne⟩
    obtain ⟨g, string, fb, hret, hg, hstr⟩ := hi.symbol_data_completes (by rw [hdict]; exact hforest) hp' hnever'
      (by rw [hdict]; exact hv) hclear hend
    have hcodec := hg.codec_of_never hnever'
    rw [hret]
    refine ⟨g, rfl, by rw [hcodec]; rfl, by rw [hcodec]; exact h7, fun hend' => absurd hend' hend,
      fun hclear' => absurd hclear' hclear, fun _ _ => ⟨hg.phase.trans hp', hg.prev, string, hstr, ?_⟩⟩
    rw [← htook.sink, hcodec]
    rfl
  · exact ⟨nofun, fun _ => ⟨_, rfl, rfl, rfl, rfl, rfl⟩⟩

end Sys2Proof.Machine
end

section
/-! Two dictionaries that the rules cannot tell apart (spec/42_dictionary.md R175, R176): the same registers, and the same
pair for every assigned string code. What slots hold that are not assigned, left by earlier runs, does not count. -/

namespace Sys2Proof.Machine

/-- The dictionaries agree in `MAX`, `next_free`, `cursor` and the pairs of the assigned string codes. -/
structure Dict.Alike (d t : Dict) : Prop where
  max : t.max = d.max
  nextFree : t.nextFree = d.nextFree
  cursor : t.cursor = d.cursor
  pairs : ∀ c, d.isAssignedString c = true →
    readMem t.pfx c.toNat = readMem d.pfx c.toNat ∧ readMem t.term c.toNat = readMem d.term c.toNat

section
variable {d t : Dict} {c p v : Code} {b : Byte} {s : List Byte}

theorem Dict.Alike.isAssignedString (h : d.Alike t) (c : Code) : t.isAssignedString c = d.isAssignedString c :=
  Dict.isAssignedString_congr h.nextFree c

theorem Dict.Alike.symm (h : d.Alike t) : t.Alike d where
  max := h.max.symm
  nextFree := h.nextFree.symm
  cursor := h.cursor.symm
  pairs c hc := by
    rw [h.isAssignedString] at hc
    exact ⟨(h.pairs c hc).1.symm, (h.pairs c hc).2.symm⟩

/-- Emptied dictionaries with one `MAX` are alike (R160). -/
theorem Dict.clear_alike (h : t.max = d.max) : d.clear.Alike t.clear :=
  ⟨h, rfl, rfl, fun c hc => absurd ((Dict.clear_isAssignedString d c).symm.trans hc) Bool.false_ne_true⟩

/-- The alphabet size is none of the registers compared. -/
theorem Dict.Alike.alphaStep (h : d.Alike t) : d.alphaStep.Alike t.alphaStep := ⟨h.max, h.nextFree, h.cursor, h.pairs⟩

/-- Alike dictionaries spell alike (R30). -/
theorem Dict.Alike.spells (h : d.Alike t) (hs : d.Spells c s) : t.Spells c s :=
  hs.transfer (S := fun _ => True) trivial fun x _ _ _ has hq ha =>
    ⟨trivial, (h.isAssignedString x).trans has, (h.pairs x has).1.trans hq, (h.pairs x has).2.trans ha⟩

/-! ### The slot of an insertion -/

theorem Dict.Alike.isLeaf_of (h : d.Alike t) (hd : d.Inv) (ht : t.Inv) (hl : d.isLeaf c = true) : t.isLeaf c = true := by
  rw [ht.isLeaf_iff]
  rintro ⟨x, hne, has, hread⟩
  rw [h.isAssignedString] at has
  rw [(h.pairs x has).1] at hread
  exact hd.isLeaf_iff.1 hl ⟨x, hne, has, hread⟩

theorem Dict.Alike.isLeaf (h : d.Alike t) (hd : d.Inv) (ht : t.Inv) (c : Code) : t.isLeaf c = d.isLeaf c :=
  Bool.eq_iff_iff.2 ⟨h.symm.isLeaf_of ht hd, h.isLeaf_of hd ht⟩

theorem Dict.Alike.succ (h : d.Alike t) (c : Code) : t.succ c = d.succ c := by
  rw [Dict.succ, h.max, Dict.succ]

theorem Dict.Alike.scan (h : d.Alike t) (hd : d.Inv) (ht : t.Inv) (excl : Code) (fuel : Nat) (c : Code) :
    t.scan excl fuel c = d.scan excl fuel c := by
  induction fuel generalizing c with
  | zero => rfl
  | succ fuel ih => rw [Dict.scan, Dict.scan, h.isLeaf hd ht, h.succ, ih]

theorem Dict.Alike.hasFree (h : d.Alike t) : t.hasFree = d.hasFree := by
  rw [Dict.hasFree, h.nextFree, h.max, Dict.hasFree]

/-- The victim is the same (R167). -/
theorem Dict.Alike.victim (h : d.Alike t) (hd : d.Inv) (ht : t.Inv) (hp : isDataCode p = true) :
    t.victim p = d.victim p := by
  rw [Dict.victim_of_data hp, Dict.victim_of_data hp, h.scan hd ht, h.max, h.cursor]

/-- A pair into one slot of both. -/
theorem Dict.Alike.pairs_store {d' t' : Dict} (h : d.Alike t) (hdp : d'.pfx = writeMem d.pfx v.toNat p)
    (hdt : d'.term = writeMem d.term v.toNat b) (htp : t'.pfx = writeMem t.pfx v.toNat p)
    (htt : t'.term = writeMem t.term v.toNat b) (hold : c ≠ v → d.isAssignedString c = true) :
    readMem t'.pfx c.toNat = readMem d'.pfx c.toNat ∧ readMem t'.term c.toNat = readMem d'.term c.toNat := by
  rw [hdp, hdt, htp, htt]
  by_cases hcv : c = v
  · rw [hcv]
    simp only [readMem_writeMem_same, and_self]
  · have hne : c.toNat ≠ v.toNat := mt BitVec.eq_of_toNat_eq hcv
    rw [readMem_writeMem_other _ _ hne, readMem_writeMem_other _ _ hne, readMem_writeMem_other _ _ hne,
      readMem_writeMem_other _ _ hne]
    exact h.pairs c (hold hcv)

/-- Insertions of one pair leave alike dictionaries alike (R168 to R170). -/
theorem Dict.Alike.insert (h : d.Alike t) (hd : d.Inv) (ht : t.Inv) (hp : d.denotes p = true) (b : Byte) :
    (d.insert p b).2.Alike (t.insert p b).2 := by
  have hvictim := h.victim hd ht (Dict.isDataCode_of_denotes hp)
  rcases d.insert_cases p b with ⟨hf, heq⟩ | ⟨hf, v, hv, heq⟩ | ⟨hf, hv, heq⟩ <;> rw [heq]
  · rw [Dict.insert_of_hasFree (h.hasFree.trans hf)]
    have hhead : t.freeHead = d.freeHead := by rw [Dict.freeHead, h.nextFree, Dict.freeHead]
    refine ⟨h.max, by rw [Dict.grow_nextFree, h.nextFree, Dict.grow_nextFree], h.cursor, fun c hc => ?_⟩
    exact h.pairs_store (Dict.grow_pfx _ _ _) (Dict.grow_term _ _ _) (by rw [← hhead]; exact Dict.grow_pfx _ _ _)
      (by rw [← hhead]; exact Dict.grow_term _ _ _)
      fun hne => ((hd.grow_isAssignedString hf p b c).1 hc).resolve_left hne
  · rw [Dict.insert_of_victim (h.hasFree.trans hf) (hvictim.trans hv)]
    exact ⟨h.max, h.nextFree, h.succ v, fun c hc => h.pairs_store (Dict.recycle_pfx _ _ _ _) (Dict.recycle_term _ _ _ _)
      (Dict.recycle_pfx _ _ _ _) (Dict.recycle_term _ _ _ _) fun _ => hc⟩
  · rw [Dict.insert_of_no_victim (h.hasFree.trans hf) (hvictim.trans hv)]
    exact h

end

end Sys2Proof.Machine
end

section
/-! The decoder's half of the round trip (spec/44_decoder.md R235): bits that a decoder reads back as bytes, when it follows
an encoder's dictionary one insertion behind. -/

namespace Sys2Proof.Machine

/-- The decoder is at a symbol boundary with the alphabet size of the dictionary `e` of an encoder, and its pending insertion,
if its byte is `fb`, makes its dictionary like `e` (R175). -/
structure Decoder.Follows (d : Decoder) (e : Dict) (fb : Byte) : Prop where
  inv : d.Inv
  phase : d.codec.phase = .dSymbol
  never : d.codec.neverRefused = true
  n : d.codec.dict.n = e.n
  alike : e.Alike (d.inserted fb)

/-- The decoder's rules, run on their own, end with success: the sink got these bytes, and the source is at its end. -/
def State.DecodesTo (s : State) (bytes : List Byte) : Prop :=
  ∃ fuel u, runDecoder fuel s = some u ∧ u.dec.codec.phase = .done ∧
    u.dec.codec.port.sink = s.dec.codec.port.sink ++ bytes ∧ u.dec.codec.port.source = []

/-- A decoder that follows `e`, with these bits and less than a byte more ahead, delivers these bytes and ends. -/
def Dict.ReadBack (e : Dict) (fb : Byte) (bits : List Bool) (bytes : List Byte) : Prop :=
  ∀ (s : State) (rest : List Bool), s.dec.Follows e fb → s.dec.codec.ahead = bits ++ rest → rest.length < 8 → s.DecodesTo bytes

section
variable {d g : Decoder} {e : Dict} {fb b : Byte} {bits rest : List Bool} {s t : State} {w : Code} {str bytes : List Byte}
  {v : Nat}

/-! ### The run -/

theorem runDecoder_of_done (h : s.dec.codec.phase = .done) : runDecoder 1 s = some s := by
  rw [runDecoder, Codec.busy_of_phase h]
  rfl

/-- One step of the run is the rule of the phase (R40). -/
theorem runDecoder_step {ph : Phase} {i : Instr} (hp : s.dec.codec.phase = ph) (hi : phaseInstr .dec ph = some i)
    (h : exec i s = .next t) (fuel : Nat) : runDecoder (fuel + 1) s = runDecoder fuel t := by
  have hrule : (if ph = .dHdr then Instr.dHdr else .dSymbol) = i ∧ ph.busy = true := by
    cases ph <;> cases hi <;> exact ⟨rfl, rfl⟩
  rw [runDecoder, Codec.busy_of_phase hp, hrule.2, if_pos rfl, hp, hrule.1, h]

/-- A symbol that delivers bytes, and then the rest of the run. -/
theorem State.DecodesTo.of_symbol (hp : s.dec.codec.phase = .dSymbol) (hret : s.dec.dSymbol = .ok () g)
    (hsink : g.codec.port.sink = s.dec.codec.port.sink ++ str)
    (h : ({ s with dec := g, result := .unit } : State).DecodesTo bytes) : s.DecodesTo (str ++ bytes) := by
  obtain ⟨fuel, u, hrun, hdone, hout, hsrc⟩ := h
  refine ⟨fuel + 1, u, ?_, hdone, ?_, hsrc⟩
  · rw [runDecoder_step hp rfl (by rw [exec_dSymbol, hret, Ans.toStep_ok]), hrun]
  · rw [← List.append_assoc, ← hsink]
    exact hout

/-! ### One symbol -/

/-- What the pending insertion leaves of the registers, and the invariant it keeps. -/
theorem Decoder.inserted_inv (h : d.codec.dict.Inv) (hsym : d.SymbolInv) (fb : Byte) :
    (d.inserted fb).Inv ∧ (d.inserted fb).n = d.codec.dict.n ∧ (d.inserted fb).max = d.codec.dict.max := by
  cases hp : d.prev with
  | none => rw [Decoder.inserted_of_none hp]; exact ⟨h, rfl, rfl⟩
  | some p =>
    obtain ⟨hi, -, hn, hmax, -⟩ := h.insert (hsym.of_some hp).1 fb
    rw [Decoder.inserted_of_some hp]
    exact ⟨hi, hn, hmax⟩

/-- A codeword read leaves a decoder that follows the same dictionary, to do what its code stands for (R222). -/
theorem Decoder.Follows.read (h : d.Follows e fb) (hv : v < e.n.toNat)
    (hahead : d.codec.ahead = codewordBits e.n.toNat v ++ rest) :
    ∃ g : Decoder, g.Follows e fb ∧ g.codec.ahead = rest ∧ g.codec.port.sink = d.codec.port.sink ∧
      d.dSymbol = g.symbol (BitVec.ofNat 16 v) := by
  obtain ⟨hlo, hhi⟩ := h.inv.dict.alphabet
  have hread : readCodeword d.codec.dict.n.toNat d.codec.ahead = some (v, rest) := by
    rw [h.n] at hlo hhi ⊢
    rw [hahead, readCodeword_codewordBits hlo hhi hv]
  rcases h.inv.dSymbol_cases h.phase with ⟨v', x, hread', -, htook, heq⟩ | ⟨hnone, -⟩
  · rw [hread] at hread'
    obtain ⟨rfl, rfl⟩ := Prod.mk.inj (Option.some.inj hread')
    have hdict : (d.setCodec x).codec.dict = d.codec.dict := htook.returned.dict
    exact ⟨d.setCodec x,
      { inv := h.inv.setCodec h.phase htook.returned
        phase := htook.returned.phase.trans h.phase
        never := htook.neverRefused.trans h.never
        n := by rw [hdict, h.n]
        alike := by rw [Decoder.inserted_congr (g := d.setCodec x) (d := d) rfl hdict]; exact h.alike },
      rfl, htook.sink, heq⟩
  · rw [hread] at hnone
    cases hnone

/-- With an emptied dictionary and no `prev` a decoder follows the emptied dictionary with the same `MAX`, whatever byte
comes. -/
theorem Decoder.follows_of_clear {u : Dict} (h : d.Inv) (hp : d.codec.phase = .dSymbol)
    (hnever : d.codec.neverRefused = true) (hprev : d.prev = none) (hdict : d.codec.dict = u.clear) (hmax : u.max = e.max)
    (fb : Byte) : d.Follows e.clear fb where
  inv := h
  phase := hp
  never := hnever
  n := by rw [hdict]; rfl
  alike := by
    rw [Decoder.inserted_of_none hprev, hdict]
    exact Dict.clear_alike hmax

/-- After `CLEAR` (R224). -/
theorem Decoder.Follows.clear (h : d.Follows e fb) (b : Byte) : d.clear.Follows e.clear b := by
  have hinv := h.inv.symbol_meets h.phase 256
  rw [Decoder.symbol_eq_clear h.phase rfl] at hinv
  obtain ⟨-, -, hmax⟩ := Decoder.inserted_inv h.inv.dict (h.inv.symbol h.phase) fb
  exact Decoder.follows_of_clear hinv h.phase h.never rfl rfl (hmax.symm.trans h.alike.max) b

/-- `DATA` of a code that the encoder's dictionary spells: the decoder delivers that string, and follows the dictionary after
the encoder's insertion for that code (R175, R176, R225). -/
theorem Decoder.Follows.data (h : d.Follows e fb) (he : e.Inv) (hw : e.Spells w str) (hfb : str.head? = some fb)
    (b : Byte) :
    ∃ g, d.symbol w = .ok () g ∧ g.Follows (e.alphaStep.insert w b).2 b ∧ g.codec.ahead = d.codec.ahead ∧
      g.codec.port.sink = d.codec.port.sink ++ str := by
  have hden : e.alphaStep.denotes w = true := hw.denotes
  have hdata := Dict.isDataCode_of_denotes hw.denotes
  obtain ⟨-, hn, hmax⟩ := Decoder.inserted_inv h.inv.dict (h.inv.symbol h.phase) fb
  obtain ⟨_, g, hret, hg, hi⟩ :=
    Decoder.returns_of_never (h.inv.data_delivers h.phase (h.alike.spells hw) hfb hdata) h.never
  have hcodec := hg.codec_of_never h.never
  obtain ⟨-, -, hn', -, -⟩ := he.alphaStep.insert hden b
  refine ⟨g, (h.inv.symbol_eq_data h.phase hdata).trans hret, ⟨hi, hg.phase.trans h.phase, ?_, ?_, ?_⟩, ?_, ?_⟩
  · rw [hcodec]
    exact h.never
  · rw [hg.dict, hn', Dict.alphaStep_n, Dict.alphaStep_n, h.alike.max, hn, h.n]
  · have halike := h.alike.alphaStep
    rw [← hg.dict] at halike
    rw [Decoder.inserted_of_some hg.prev]
    exact halike.insert he.alphaStep hi.dict hden b
  · rw [hcodec]
    rfl
  · rw [hcodec]
    rfl

/-! ### Bits read back -/

/-- `END` ends the run; less than a byte is left in hand, so the source is at its end (R223). -/
theorem Dict.Inv.readBack_end (he : e.Inv) (fb : Byte) : e.ReadBack fb (codewordBits e.n.toNat 257) [] := by
  intro s rest h hahead hrest
  obtain ⟨g, hg, hrest', hsink, heq⟩ := h.read he.n_lo hahead
  have hsrc : g.codec.port.source = [] := by
    have hlen := congrArg List.length hrest'
    rw [Codec.ahead, List.length_append, length_bytesBits] at hlen
    exact List.length_eq_zero_iff.1 (by omega)
  have hret : s.dec.dSymbol = .ok () (g.setCodec g.codec.finish) := heq.trans (Decoder.symbol_eq_finish rfl)
  exact State.DecodesTo.of_symbol (str := []) h.phase hret (by rw [List.append_nil]; exact hsink)
    ⟨1, _, runDecoder_of_done rfl, rfl, (List.append_nil _).symm, hsrc⟩

/-- `CLEAR`, and what is read back with the emptied dictionary. -/
theorem Dict.ReadBack.clear (h : e.clear.ReadBack b bits bytes) (he : e.Inv) (fb : Byte) :
    e.ReadBack fb (codewordBits e.n.toNat 256 ++ bits) bytes := by
  intro s rest hs hahead hrest
  rw [List.append_assoc] at hahead
  obtain ⟨g, hg, hrest', hsink, heq⟩ := hs.read (Nat.lt_of_lt_of_le (by decide) he.n_lo) hahead
  have hret : s.dec.dSymbol = .ok () g.clear := heq.trans (Decoder.symbol_eq_clear hg.phase rfl)
  exact State.DecodesTo.of_symbol (str := []) hs.phase hret (by rw [List.append_nil]; exact hsink)
    (h _ rest (hg.clear b) hrest' hrest)

/-- The codeword of a code, and what is read back after the insertion that follows it. -/
theorem Dict.ReadBack.data (h : (e.alphaStep.insert w b).2.ReadBack b bits bytes) (he : e.Inv) (hw : e.Spells w str)
    (hfb : str.head? = some fb) (hlt : w.toNat < e.n.toNat) :
    e.ReadBack fb (codewordBits e.n.toNat w.toNat ++ bits) (str ++ bytes) := by
  intro s rest hs hahead hrest
  rw [List.append_assoc] at hahead
  obtain ⟨g, hg, hrest', hsink, heq⟩ := hs.read hlt hahead
  rw [BitVec.ofNat_toNat, BitVec.setWidth_eq] at heq
  obtain ⟨k, hret, hk, hkahead, hksink⟩ := hg.data he hw hfb b
  exact State.DecodesTo.of_symbol hs.phase (heq.trans hret) (by rw [hksink, hsink])
    (h _ rest hk (hkahead.trans hrest') hrest)

end

end Sys2Proof.Machine
end

section
/-! The encoder's half of the round trip (spec/43_encoder.md R192 to R201): the bits an encoder writes from a source are read
back as that source, by a decoder that follows its dictionary. -/

namespace Sys2Proof.Machine

/-- From `e` to `f` the encoder wrote these bits and no more; it is in the same phase, and its ports are as they were but for
the sink's bytes. -/
structure Encoder.WroteJust (e : Encoder) (bits : List Bool) (f : Encoder) : Prop where
  written : f.codec.written = e.codec.written ++ bits
  phase : f.codec.phase = e.codec.phase
  source : f.codec.port.source = e.codec.port.source
  status : f.codec.port.status = e.codec.port.status

/-- The encoder's rules, run on their own, end with success and leave the decoder alone; the sink's bits are those written so
far, bits that are read back as these bytes, and the padding of the last byte. -/
def State.EncodesTo (s : State) (fb : Byte) (bytes : List Byte) : Prop :=
  ∃ fuel t bits pad, runEncoder fuel s = some t ∧ t.dec = s.dec ∧ t.enc.codec.phase = .done ∧ pad < 8 ∧
    bytesBits t.enc.codec.port.sink = s.enc.codec.written ++ bits ++ List.replicate pad false ∧
    s.enc.codec.dict.ReadBack fb bits bytes

section
variable {e f g : Encoder} {w x : Code} {b fb : Byte} {bits more : List Bool} {s t : State} {str bytes bytes' : List Byte}
  {u : Dict}

/-! ### What a miss writes (R195) -/

/-- Bytes and a buffer that append bits, whatever the dictionary and the other registers. -/
theorem Encoder.WroteJust.of_appended {out : List Byte} {buf : BitBuf}
    (h : bytesBits out ++ buf.bits = e.codec.buf.bits ++ bits)
    (hf : f.codec = { e.codec.pushed out with dict := u, buf := buf }) : e.WroteJust bits f where
  written := by
    have hw : f.codec.written = bytesBits (e.codec.port.sink ++ out) ++ buf.bits := by rw [hf]; rfl
    rw [hw, bytesBits_append, List.append_assoc, h, ← List.append_assoc]
    rfl
  phase := by rw [hf]; rfl
  source := by rw [hf]; rfl
  status := by rw [hf]; rfl

theorem Encoder.WroteJust.trans (h : e.WroteJust bits f) (k : f.WroteJust more g) : e.WroteJust (bits ++ more) g where
  written := by rw [k.written, h.written, List.append_assoc]
  phase := k.phase.trans h.phase
  source := k.source.trans h.source
  status := k.status.trans h.status

theorem Encoder.WroteJust.neverRefused (h : e.WroteJust bits f) (hnever : e.codec.neverRefused = true) :
    f.codec.neverRefused = true := by
  rw [Codec.neverRefused_iff] at hnever ⊢
  exact h.status.trans hnever

/-- The index beside it, an encoder's insertion is the dictionary's (R168 to R170). -/
theorem Encoder.dictInsert_codec_eq {r : Option Code} (h : e.dictInsert w b = .ok r f) :
    f.codec = e.codec.setDict (e.codec.dict.insert w b).2 := by
  rcases e.dictInsert_cases w b with ⟨hf, heq⟩ | ⟨hf, v, hv, heq⟩ | ⟨hf, hv, heq⟩ <;> rw [heq] at h
  · cases h
    rw [Dict.insert_of_hasFree hf]
    rfl
  · rcases e.insertRecycling_cases v w b with ⟨q, a, -, -, heq⟩ | ⟨heq, -⟩ <;> rw [heq] at h <;> cases h
    rw [Dict.insert_of_victim hf hv]
    rfl
  · cases h
    rw [Dict.insert_of_no_victim hf hv]
    rfl

/-- The flush after a miss writes nothing, or `CLEAR` before the dictionary is emptied (R200). -/
theorem Encoder.Running.flushIf_writes (h : e.Running) (hnever : e.codec.neverRefused = true) (flush : Bool) :
    ∃ f, e.flushIf flush = .ok () f ∧
      ((f.codec.dict = e.codec.dict ∧ e.WroteJust [] f) ∨
        (f.codec.dict = e.codec.dict.clear ∧ e.WroteJust (codewordBits e.codec.dict.n.toNat 256) f)) := by
  cases flush with
  | false => exact ⟨e, rfl, .inl ⟨rfl, (List.append_nil _).symm, rfl, rfl, rfl⟩⟩
  | true =>
    obtain ⟨h1, h2⟩ := h.sound.dict.alphabet
    obtain ⟨out, buf, hret, hbits, -⟩ := Encoder.flushDict_eq hnever h.settled h1 h2
    exact ⟨_, hret, .inr ⟨rfl, .of_appended hbits (u := e.codec.dict.clear) rfl⟩⟩

/-- `ENC_MISS` in a running encoder: the codeword of the match, the insertion, and the flush if there is one. -/
theorem Encoder.Running.miss_writes (h : e.Running) (hnever : e.codec.neverRefused = true) (hc : e.wCode = some w)
    (hw : e.codec.dict.denotes w = true) (hnew : e.lookup w b = none) :
    ∃ f, e.miss b = .ok () f ∧ f.Running ∧ f.wCode = some (b.setWidth 16) ∧
      ((f.codec.dict = (e.codec.dict.alphaStep.insert w b).2 ∧
          e.WroteJust (codewordBits e.codec.dict.n.toNat w.toNat) f) ∨
        (f.codec.dict = (e.codec.dict.alphaStep.insert w b).2.clear ∧
          e.WroteJust (codewordBits e.codec.dict.n.toNat w.toNat ++
            codewordBits (e.codec.dict.alphaStep.insert w b).2.n.toNat 256) f)) := by
  obtain ⟨h1, h2⟩ := h.sound.dict.alphabet
  obtain ⟨out, buf, hemit, hbits, hs⟩ := Encoder.emitData_emits hnever h.settled h1 h2 (h.lt_n_of_denotes hw)
  obtain ⟨r, g, hins, hg⟩ := h.dictInsert_after_emit hw hnew hs out
  have hcodec := Encoder.dictInsert_codec_eq hins
  have hdict : g.codec.dict = (e.codec.dict.alphaStep.insert w b).2 := by rw [hcodec]; rfl
  have hwrote : e.WroteJust (codewordBits e.codec.dict.n.toNat w.toNat) g := .of_appended hbits hcodec
  obtain ⟨flush, i, o, k, hmon, -⟩ := g.monUpdate_cases g.mlen.toNat (codewordBits e.codec.dict.n.toNat w.toNat).length
  have hm : ({ g with monIn := i, monOut := o, monOther := k } : Encoder).Running := hg.congr rfl rfl
  obtain ⟨f, hflush, hf⟩ := hm.flushIf_writes (hwrote.neverRefused hnever) flush
  have hret : e.miss b = .ok () (f.setMatch (b.setWidth 16) 1) := by
    rw [Encoder.miss_of_inserted hc hemit hins, hmon, hflush]
    rfl
  have hinv := h.miss_meets hc hw hnew
  rw [hret] at hinv
  refine ⟨_, hret, hinv.1, hinv.2, ?_⟩
  rcases hf with ⟨hfd, hfw⟩ | ⟨hfd, hfw⟩
  · have hall := hwrote.trans (g := f.setMatch (b.setWidth 16) 1) ⟨hfw.written, hfw.phase, hfw.source, hfw.status⟩
    rw [List.append_nil] at hall
    exact .inl ⟨hfd.trans hdict, hall⟩
  · have hall := hwrote.trans (g := f.setMatch (b.setWidth 16) 1) ⟨hfw.written, hfw.phase, hfw.source, hfw.status⟩
    refine .inr ⟨hfd.trans (congrArg Dict.clear hdict), ?_⟩
    rw [← hdict]
    exact hall

/-! ### The run -/

theorem runEncoder_of_done (h : s.enc.codec.phase = .done) : runEncoder 1 s = some s := by
  rw [runEncoder, Codec.busy_of_phase h]
  rfl

/-- One step of the run is the rule of the phase (R40). -/
theorem runEncoder_step {ph : Phase} {i : Instr} (hp : s.enc.codec.phase = ph) (hi : phaseInstr .enc ph = some i)
    (h : exec i s = .next t) (fuel : Nat) : runEncoder (fuel + 1) s = runEncoder fuel t := by
  have hrule : (if ph = .eFirst then Instr.eFirst else .eNext) = i ∧ ph.busy = true := by
    cases ph <;> cases hi <;> exact ⟨rfl, rfl⟩
  rw [runEncoder, Codec.busy_of_phase hp, hrule.2, if_pos rfl, hp, hrule.1, h]

/-- A rule that writes bits, and then the rest of the run. -/
theorem State.EncodesTo.of_rule {ph : Phase} {i : Instr} {fb' : Byte} (h : t.EncodesTo fb' bytes')
    (hp : s.enc.codec.phase = ph) (hi : phaseInstr .enc ph = some i) (hexec : exec i s = .next t) (hdec : t.dec = s.dec)
    (hw : t.enc.codec.written = s.enc.codec.written ++ more)
    (hread : ∀ bits, t.enc.codec.dict.ReadBack fb' bits bytes' → s.enc.codec.dict.ReadBack fb (more ++ bits) bytes) :
    s.EncodesTo fb bytes := by
  obtain ⟨fuel, z, bits, pad, hrun, hzdec, hdone, hpad, hbits, hback⟩ := h
  refine ⟨fuel + 1, z, more ++ bits, pad, (runEncoder_step hp hi hexec fuel).trans hrun, hzdec.trans hdec, hdone, hpad, ?_,
    hread bits hback⟩
  rw [hbits, hw, ← List.append_assoc]

/-- A rule that ends the run. -/
theorem State.encodesTo_of_ends {ph : Phase} {i : Instr} {a : Ans Encoder Unit} (hends : s.enc.Ends u bits a)
    (hp : s.enc.codec.phase = ph) (hi : phaseInstr .enc ph = some i)
    (hexec : exec i s = a.toStep (fun e => { s with enc := e }) fun _ => .unit)
    (hread : s.enc.codec.dict.ReadBack fb bits bytes) : s.EncodesTo fb bytes := by
  obtain ⟨out, rfl, pad, hpad, hbits⟩ := hends
  refine ⟨2, _, bits, pad, (runEncoder_step hp hi hexec 1).trans (runEncoder_of_done rfl), rfl, rfl, hpad, ?_, hread⟩
  show bytesBits (s.enc.codec.port.sink ++ out) = _
  rw [bytesBits_append, hbits, ← List.append_assoc, ← List.append_assoc]
  rfl

/-! ### The matching loop (R193 to R195) -/

/-- At the end of the source: the last match, then `END` with the stepped alphabet size. A decoder that has read the match
waits for an insertion that never comes, whatever its byte. -/
theorem Dict.Inv.readBack_last (h : u.Inv) (hw : u.Spells w str) (hfb : str.head? = some fb) (hlt : w.toNat < u.n.toNat) :
    u.ReadBack fb (codewordBits u.n.toNat w.toNat ++ codewordBits u.alphaStep.n.toNat 257) str := by
  obtain ⟨hi, -, hn, -, -⟩ := h.alphaStep.insert (p := w) hw.denotes 0
  have hend := hi.readBack_end 0
  rw [hn] at hend
  have hlast := hend.data h hw hfb hlt
  rwa [List.append_nil] at hlast

/-- A byte, as a code, spells itself. -/
theorem Dict.spells_byte (u : Dict) (b : Byte) : u.Spells (b.setWidth 16) [b] := by
  have hb := b.isLt
  have hcode : (b.setWidth 16).toNat = b.toNat := by rw [BitVec.toNat_setWidth, Nat.mod_eq_of_lt (by omega)]
  have hback : (b.setWidth 16).setWidth 8 = b := by
    apply BitVec.eq_of_toNat_eq
    rw [BitVec.toNat_setWidth, hcode, Nat.mod_eq_of_lt hb]
  have hlit := Dict.Spells.literal (d := u) (c := b.setWidth 16) (by omega)
  rwa [hback] at hlit

/-- A running encoder whose match spells `str` encodes that and the rest of its source. -/
theorem State.encodesTo_of_eNext {src : List Byte} (hrun : s.enc.Running) (hp : s.enc.codec.phase = .eNext)
    (hnever : s.enc.codec.neverRefused = true) (hc : s.enc.wCode = some w) (hw : s.enc.codec.dict.Spells w str)
    (hfb : str.head? = some fb) (hsrc : s.enc.codec.port.source = src) : s.EncodesTo fb (str ++ src) := by
  have hlt := hrun.lt_n_of_denotes hw.denotes
  have hi := hrun.sound.dict
  induction src generalizing s w str fb with
  | nil =>
    rw [List.append_nil]
    refine State.encodesTo_of_ends (Encoder.lastEmit_ends hnever hrun.settled hi hlt) hp rfl ?_
      (hi.readBack_last hw hfb hlt)
    rw [exec_eNext, Encoder.next_of_eoi hc hsrc]
  | cons b bs ih =>
    have hpulled : (s.enc.pulled bs).Running := hrun.pulled bs
    cases hlook : s.enc.lookup w b with
    | some x =>
      obtain ⟨has, hpfx, hterm⟩ := (hrun.sound.index_exact w b x).1 hlook
      have hx : s.enc.codec.dict.Spells x (str ++ [b]) := .string has hpfx hterm hw
      have hrun' : (((s.enc.pulled bs).extend x).goto .eNext).Running :=
        ⟨hpulled.sound.congr rfl rfl, hrun.settled, hrun.n_eq⟩
      have hrest := ih (s := { s with enc := ((s.enc.pulled bs).extend x).goto .eNext, result := .unit }) hrun' rfl
        hnever rfl hx ((hw.head?_append _).trans hfb) rfl (hrun'.lt_n_of_denotes hx.denotes) hi
      rw [List.append_assoc] at hrest
      refine hrest.of_rule (more := []) hp rfl ?_ rfl (List.append_nil _).symm fun _ => id
      rw [exec_eNext, Encoder.next_of_extended hc hsrc hlook]
      rfl
    | none =>
      obtain ⟨f, hmiss, hf, hfw, hcase⟩ := hpulled.miss_writes hnever hc hw.denotes hlook
      have hexec : exec .eNext s = .next { s with enc := f.goto .eNext, result := .unit } := by
        rw [exec_eNext, Encoder.next_of_missed hc hsrc hlook, hmiss]
        rfl
      have hfrun : (f.goto .eNext).Running := ⟨hf.sound.congr rfl rfl, hf.settled, hf.n_eq⟩
      have hrest : ∀ {more}, (s.enc.pulled bs).WroteJust more f →
          ({ s with enc := f.goto .eNext, result := .unit } : State).EncodesTo b ([b] ++ bs) := fun hwrote =>
        ih (s := { s with enc := f.goto .eNext, result := .unit }) hfrun rfl (hwrote.neverRefused hnever) hfw
          (Dict.spells_byte _ b) rfl hwrote.source (hfrun.lt_n_of_denotes (Dict.denotes_byte _ b)) hf.sound.dict
      obtain ⟨hi', -⟩ := hi.alphaStep.insert (p := w) hw.denotes b
      rcases hcase with ⟨hdict, hwrote⟩ | ⟨hdict, hwrote⟩
      · refine (hrest hwrote).of_rule hp rfl hexec rfl hwrote.written fun bits hback => ?_
        have hback' : f.codec.dict.ReadBack b bits ([b] ++ bs) := hback
        rw [hdict] at hback'
        exact hback'.data hi hw hfb hlt
      · refine (hrest hwrote).of_rule hp rfl hexec rfl hwrote.written fun bits hback => ?_
        have hback' : f.codec.dict.ReadBack b bits ([b] ++ bs) := hback
        rw [hdict] at hback'
        rw [List.append_assoc]
        exact (hback'.clear hi' b).data hi hw hfb hlt

/-- A running encoder before its first byte encodes its source. -/
theorem State.encodesTo_of_eFirst (hrun : s.enc.Running) (hp : s.enc.codec.phase = .eFirst)
    (hnever : s.enc.codec.neverRefused = true) : ∃ fb, s.EncodesTo fb s.enc.codec.port.source := by
  obtain ⟨hlo, hhi⟩ := hrun.sound.dict.alphabet
  cases hsrc : s.enc.codec.port.source with
  | nil =>
    refine ⟨0, State.encodesTo_of_ends (Encoder.end_ends hnever hrun.settled hlo hhi) hp rfl ?_
      (hrun.sound.dict.readBack_end 0)⟩
    rw [exec_eFirst, Encoder.first_of_eoi hsrc]
  | cons b bs =>
    have hpulled : (s.enc.pulled bs).Running := hrun.pulled bs
    have hrun' : (((s.enc.pulled bs).setMatch (b.setWidth 16) 1).goto .eNext).Running :=
      ⟨hpulled.sound.congr rfl rfl, hrun.settled, hrun.n_eq⟩
    have hrest := State.encodesTo_of_eNext
      (s := { s with enc := ((s.enc.pulled bs).setMatch (b.setWidth 16) 1).goto .eNext, result := .unit }) hrun' rfl hnever
      rfl (Dict.spells_byte _ b) rfl rfl
    refine ⟨b, hrest.of_rule (more := []) hp rfl ?_ rfl (List.append_nil _).symm fun _ => id⟩
    rw [exec_eFirst, Encoder.first_of_byte hsrc]
    rfl

end

end Sys2Proof.Machine
end

section
/-! The round trip (spec/44_decoder.md R235): header, encoder's run, decoder's run. -/

namespace Sys2Proof.Machine

section
variable {e : Encoder} {d : Decoder} {m : BitVec 5} {s : State} {b : Byte} {fb : Byte} {bits : List Bool}
  {bytes : List Byte} {l : List Bool}

/-- Bytes whose bits begin with those of a byte begin with that byte. -/
theorem bytesBits_eq_cons (h : bytesBits bytes = bitsOf 8 b.toNat ++ l) : ∃ bs, bytes = b :: bs ∧ bytesBits bs = l := by
  cases bytes with
  | nil =>
    have hlen := congrArg List.length h
    rw [List.length_append, length_bitsOf, length_bytesBits, List.length_nil] at hlen
    omega
  | cons a bs =>
    obtain ⟨hbyte, hrest⟩ := List.append_inj h (by rw [length_bitsOf, length_bitsOf])
    have hval := congrArg ofBits hbyte
    rw [ofBits_bitsOf, ofBits_bitsOf, Nat.mod_eq_of_lt a.isLt, Nat.mod_eq_of_lt b.isLt] at hval
    exact ⟨bs, by rw [BitVec.eq_of_toNat_eq hval], hrest⟩

/-- An encoder that `ENC_START` started runs: its dictionary and its index are empty (R191). -/
theorem Encoder.started_running (h : e.codec.dict.Inv) (hm : isLegalMaxbits m.toNat = true) (port : Port) :
    (e.started m port).Running := by
  rw [← Encoder.initialise_eq_started]
  exact ⟨Encoder.sound_of_clear (h.configure_clear hm) rfl rfl, BitBuf.settled_empty, rfl⟩

theorem Encoder.started_dict (m : BitVec 5) (port : Port) (e : Encoder) :
    (e.started m port).codec.dict = (e.codec.dict.configure m.toNat).clear := by
  rw [← Encoder.initialise_eq_started]
  rfl

/-- `COMPRESS` pushes the header byte and leaves an encoder that runs, before its first byte (R191, R250). -/
theorem exec_compress_starts (hb : s.enc.codec.busy = false) (hm : isLegalMaxbits m.toNat = true)
    (hnever : s.enc.codec.neverRefused = true) (hsink : s.enc.codec.port.sink = []) (hi : s.enc.codec.dict.Inv)
    (ig : BitVec 2) :
    ∃ s1, exec (.compress m ig) s = .next s1 ∧ s1.dec = s.dec ∧ s1.enc.Running ∧ s1.enc.codec.phase = .eFirst ∧
      s1.enc.codec.neverRefused = true ∧ s1.enc.codec.port.source = s.enc.codec.port.source ∧
      s1.enc.codec.dict = (s.enc.codec.dict.configure m.toNat).clear ∧
      s1.enc.codec.written = bitsOf 8 (m.setWidth 8 : Byte).toNat := by
  have hport := Port.push_neverRefuses ((Codec.neverRefused_iff _).1 hnever) (m.setWidth 8)
  refine ⟨_, ((encoderStarts s m).1 hm _ hport).2 hb ig, rfl,
    Encoder.started_running (e := { s.enc with codec := { s.enc.codec with cmd := ig ++ m ++ 0#1, cause := 0 } }) hi hm _, rfl,
    hnever, rfl, Encoder.started_dict m _ _, ?_⟩
  show bytesBits (s.enc.codec.port.sink ++ [m.setWidth 8]) ++ [] = _
  rw [hsink, List.append_nil]
  exact List.append_nil _

/-- `COMPRESS` and the encoder's rules: the sink that was empty holds the header byte and bytes whose bits, padded, are read
back as the source. -/
theorem exec_compress_encodes (hb : s.enc.codec.busy = false) (hm : isLegalMaxbits m.toNat = true)
    (hnever : s.enc.codec.neverRefused = true) (hsink : s.enc.codec.port.sink = []) (hi : s.enc.codec.dict.Inv)
    (ig : BitVec 2) :
    ∃ s1 t fuel fb bits pad out, exec (.compress m ig) s = .next s1 ∧ runEncoder fuel s1 = some t ∧
      t.enc.codec.phase = .done ∧ t.dec = s.dec ∧ t.enc.codec.port.sink = m.setWidth 8 :: out ∧ pad < 8 ∧
      bytesBits out = bits ++ List.replicate pad false ∧
      (s.enc.codec.dict.configure m.toNat).clear.ReadBack fb bits s.enc.codec.port.source := by
  obtain ⟨s1, hexec, hdec1, hrun, hp, hnever1, hsrc, hdict, hwritten⟩ := exec_compress_starts hb hm hnever hsink hi ig
  obtain ⟨fb, fuel, t, bits, pad, hfuel, hdec, hdone, hpad, hbits, hback⟩ := State.encodesTo_of_eFirst hrun hp hnever1
  rw [hwritten, List.append_assoc] at hbits
  obtain ⟨out, hout, hrest⟩ := bytesBits_eq_cons hbits
  rw [hdict, hsrc] at hback
  exact ⟨s1, t, fuel, fb, bits, pad, out, hexec, hfuel, hdone, hdec.trans hdec1, hout, hpad, hrest, hback⟩

/-! ### The decoder -/

/-- A started decoder that has read a legal header byte follows the encoder's emptied dictionary (R221). -/
theorem Decoder.follows_after_header (h : d.Inv) (hp : d.codec.phase = .dHdr) (hnever : d.codec.neverRefused = true)
    {bs : List Byte} (hsrc : d.codec.port.source = b :: bs) (hm : isLegalMaxbits b.toNat = true) (e : Dict) (fb : Byte) :
    ∃ g, d.hdr = .ok () g ∧ g.Follows (e.configure b.toNat).clear fb ∧ g.codec.buf = d.codec.buf ∧
      g.codec.port.source = bs ∧ g.codec.port.sink = d.codec.port.sink := by
  have hret := (Decoder.hdr_of_byte hsrc).trans (Decoder.header_of_legal hm _)
  have hinv := h.hdr_meets hp
  rw [hret] at hinv
  exact ⟨_, hret, Decoder.follows_of_clear (e := e.configure b.toNat) (u := d.codec.dict.configure b.toNat) hinv rfl hnever
    (h.header hp).1 rfl rfl fb, rfl, rfl, rfl⟩

/-- `DECOMPRESS` and the decoder's rules on a header byte and bytes that are read back. -/
theorem exec_decompress_decodes {out : List Byte} {pad : Nat} {e : Dict} (hb : s.dec.codec.busy = false)
    (hm : isLegalMaxbits b.toNat = true) (hnever : s.dec.codec.neverRefused = true) (hsink : s.dec.codec.port.sink = [])
    (hi : s.dec.codec.dict.Inv) (hstk : Mem.wf s.dec.stk) (hsrc : s.dec.codec.port.source = b :: out) (hpad : pad < 8)
    (hout : bytesBits out = bits ++ List.replicate pad false)
    (hback : (e.configure b.toNat).clear.ReadBack fb bits bytes) (ig : BitVec 7) :
    ∃ s2 u fuel, exec (.decompress ig) s = .next s2 ∧ runDecoder fuel s2 = some u ∧ u.dec.codec.phase = .done ∧
      u.dec.codec.port.sink = bytes ∧ u.dec.codec.port.source = [] := by
  have hinv : (s.dec.setCodec (s.dec.codec.acceptCmd (ig ++ 1#1))).start.Inv := Decoder.start_inv hi hstk
  obtain ⟨g, hret, hg, hgbuf, hgsrc, hgsink⟩ := Decoder.follows_after_header hinv rfl hnever hsrc hm e fb
  have hahead : g.codec.ahead = bits ++ List.replicate pad false := by
    rw [Codec.ahead, hgsrc, hgbuf, hout]
    rfl
  obtain ⟨fuel, u, hrun, hdone, husink, husrc⟩ := hback { s with dec := g, result := .unit } _ hg hahead
    (by rw [List.length_replicate]; exact hpad)
  refine ⟨_, u, fuel + 1, exec_decompress_of_not_busy hb ig, ?_, hdone, ?_, husrc⟩
  · refine (runDecoder_step (ph := .dHdr) rfl rfl ?_ fuel).trans hrun
    rw [exec_dHdr, hret]
    rfl
  · rw [husink]
    show g.codec.port.sink ++ bytes = bytes
    rw [hgsink]
    show s.dec.codec.port.sink ++ bytes = bytes
    rw [hsink, List.nil_append]

end

/-- Settles O60: the encoder writes the header byte and bits that any decoder following its dictionary reads back as the
source (`exec_compress_encodes`), and a decoder that has read that header follows it (`exec_decompress_decodes`). -/
theorem roundTrip : Obligations.RoundTrip := by
  intro s m ig ig' heb hdb hm hen hdn hes hds hei hdi _ hstk
  obtain ⟨s1, t, fuel, fb, bits, pad, out, hexec, hrun, hdone, hdec, hsink, hpad, hout, hback⟩ :=
    exec_compress_encodes heb hm hen hes hei ig
  have hbyte : BitVec.toNat (m.setWidth 8) = m.toNat := by
    have := m.isLt
    rw [BitVec.toNat_setWidth, Nat.mod_eq_of_lt (by omega)]
  refine ⟨s1, t, fuel, hexec, hrun, hdone, ?_⟩
  rw [← hbyte] at hm hback
  rw [← hdec] at hdb hdn hds hdi hstk
  exact exec_decompress_decodes
    (s := t.setCodec .dec { t.dec.codec with port := { t.dec.codec.port with source := t.enc.codec.port.sink } })
    hdb hm hdn hds hdi hstk hsink hpad hout hback ig'

end Sys2Proof.Machine
end

section
/-! A write of `CMD` (spec/45_commands.md R252; spec/30_encoding.md R99): which command it is, and what obeying or
ignoring it does. -/

namespace Sys2Proof.Machine

section
variable {s : State} {side : Side} {b : Byte} {i : Instr} {rest : List Event}

/-! ### The command in a byte (R99) -/

/-- Bit 0 of a command byte is the operation; the bits above it are the operand and the ignored bits. -/
theorem cmdByte_eq_fields (b : Byte) :
    (b.getLsbD 0 = false → b = b.extractLsb' 6 2 ++ b.extractLsb' 1 5 ++ 0#1) ∧
      (b.getLsbD 0 = true → b = b.extractLsb' 1 7 ++ 1#1) := by
  revert b
  decide

/-- Bit 0 clear is `COMPRESS` with its operand, bit 0 set is `DECOMPRESS`. -/
theorem decodeCmd_cases (b : Byte) :
    (b.getLsbD 0 = false ∧ ∃ m ig, decodeCmd b = .compress m ig ∧ b = ig ++ m ++ 0#1) ∨
      (b.getLsbD 0 = true ∧ ∃ ig, decodeCmd b = .decompress ig ∧ b = ig ++ 1#1) := by
  cases hbit : b.getLsbD 0 with
  | false => exact .inl ⟨rfl, _, _, if_neg (Bool.eq_false_iff.1 hbit), (cmdByte_eq_fields b).1 hbit⟩
  | true => exact .inr ⟨rfl, _, if_pos hbit, (cmdByte_eq_fields b).2 hbit⟩

/-- A byte that asks for the command of its own side starts it. -/
theorem cmdInstr_of_own (h : b.getLsbD 0 = decide (side = .dec)) : cmdInstr side b = some (decodeCmd b) := by
  rcases decodeCmd_cases b with ⟨hbit, m, ig, hd, -⟩ | ⟨hbit, ig, hd, -⟩ <;> cases side
  · unfold cmdInstr; rw [hd]
  · cases hbit.symm.trans h
  · cases hbit.symm.trans h
  · unfold cmdInstr; rw [hd]

/-- A byte that asks for the other side's command starts none. -/
theorem cmdInstr_of_other (h : b.getLsbD 0 = decide (side = .enc)) : cmdInstr side b = none := by
  rcases decodeCmd_cases b with ⟨hbit, m, ig, hd, -⟩ | ⟨hbit, ig, hd, -⟩ <;> cases side
  · cases hbit.symm.trans h
  · unfold cmdInstr; rw [hd]
  · unfold cmdInstr; rw [hd]
  · cases hbit.symm.trans h

/-! ### Ignored (R252) -/

/-- A write of `CMD` that starts no command only comes off the schedule. -/
theorem step_writeCmd_ignored (hs : s.sched = .writeCmd side b :: rest) (hi : cmdInstr side b = none) :
    step s = .next { s with sched := rest } := by
  rw [step_of_no_instr ((State.nextInstr_of_writeCmd hs).trans hi), State.hostStep, hs, State.popped_of_cons hs]

/-- A busy instance ignores its command. -/
theorem exec_cmdInstr_of_busy (hi : cmdInstr side b = some i) (hb : (s.codec side).busy = true) :
    exec i s = .next s := by
  rcases cmdInstr_eq_some hi with ⟨rfl, m, ig, rfl⟩ | ⟨rfl, ig, rfl⟩
  · exact if_pos hb
  · exact if_pos hb

/-! ### Obeyed (R250 to R252) -/

/-- `ENC_START` answers a next state, and leaves the command register as it was, whether it succeeds or fails. -/
theorem Encoder.start_toStep_keeps_cmd (m : Nat) (e : Encoder) (s : State) (res : Unit → Result) :
    ∃ t, (e.start m).toStep (fun f => { s with enc := f }) res = .next t ∧ t.enc.codec.cmd = e.codec.cmd := by
  have hkeeps := Encoder.start_steps m e
  obtain ⟨t, ht⟩ := Ans.toStep_next (Encoder.start_runs m e) (fun f => { s with enc := f }) res
  refine ⟨t, ht, ?_⟩
  rcases Ans.toStep_eq_next.1 ht with ⟨_, f, hok, rfl⟩ | ⟨f, hfailed, rfl⟩
  · rw [hok] at hkeeps
    exact Encoder.Steps.cmd hkeeps
  · rw [hfailed] at hkeeps
    exact Encoder.Steps.cmd hkeeps

/-- An instance at rest takes its own command's byte into `CMD`, ignored bits included (log entry 19). -/
theorem exec_decodeCmd_writes_cmd (hown : b.getLsbD 0 = decide (side = .dec)) (hb : (s.codec side).busy = false) :
    ∃ t, exec (decodeCmd b) s = .next t ∧ (t.codec side).cmd = b := by
  rcases decodeCmd_cases b with ⟨hbit, m, ig, hd, hword⟩ | ⟨hbit, ig, hd, hword⟩ <;> cases side
  · rw [hd, exec_compress_of_not_busy hb, hword]
    exact Encoder.start_toStep_keeps_cmd _ _ _ _
  · cases hbit.symm.trans hown
  · cases hbit.symm.trans hown
  · rw [hd, exec_decompress_of_not_busy hb, hword]
    exact ⟨_, rfl, rfl⟩

end

/-- Settles O6: a byte starts the command of its own side or none (`cmdInstr_of_own`, `cmdInstr_of_other`), and a busy
instance ignores even its own (`exec_cmdInstr_of_busy`). -/
theorem commandWriteAcceptedWhenNotBusy : Obligations.CommandWriteAcceptedWhenNotBusy := by
  intro s side b rest hs
  have hcodec : State.codec { s with sched := rest } side = s.codec side := by cases side <;> rfl
  refine ⟨fun hb => ?_, fun hother => step_writeCmd_ignored hs (cmdInstr_of_other hother), fun hb hown => ?_⟩
  · cases hi : cmdInstr side b with
    | none => exact step_writeCmd_ignored hs hi
    | some i => rw [step_writeCmd hs hi, exec_cmdInstr_of_busy hi (hcodec ▸ hb)]
  · rw [step_writeCmd hs (cmdInstr_of_own hown)]
    exact ⟨rfl, exec_decodeCmd_writes_cmd hown (hcodec ▸ hb)⟩

end Sys2Proof.Machine
end

section
/-! Which part of the block an instruction acts on (R6, R70, R290), and the two instructions that end a run (R275 to
R277). -/

namespace Sys2Proof.Machine

/-! ### The end of a run -/

theorem exec_raiseFail (s : State) (side : Side) (cause : Cause) :
    exec (.raiseFail side cause) s =
      .next { s.setCodec side ((s.codec side).raiseFail cause) with result := .failed } := rfl

theorem exec_finish (s : State) (side : Side) :
    exec (.finish side) s = .next { s.setCodec side (s.codec side).finish with result := .unit } := rfl

/-- Settles O44: the two instructions, written out; the codes are those of the table in R275. -/
theorem failureAndEnd : Obligations.FailureAndEnd := by
  refine fun s side => ⟨fun cause => ?_, exec_finish s side⟩
  rw [exec_raiseFail]
  cases cause <;> rfl

/-! ### The instance an instruction acts on -/

/-- `t` is `s` but for the instance of this kind at the focus and the recorded result. -/
inductive State.ChangedAt (s : State) : Side → State → Prop
  | enc (e : Encoder) (r : Result) : State.ChangedAt s .enc { s with enc := e, result := r }
  | dec (d : Decoder) (r : Result) : State.ChangedAt s .dec { s with dec := d, result := r }

section
variable {s t : State} {side other : Side} {i : Instr} {α : Type} {res : α → Result}

theorem State.ChangedAt.refl (s : State) (side : Side) : s.ChangedAt side s := by
  cases side with
  | enc => exact .enc s.enc s.result
  | dec => exact .dec s.dec s.result

theorem State.ChangedAt.frame (h : s.ChangedAt side t) :
    t.encRest = s.encRest ∧ t.decRest = s.decRest ∧ t.sched = s.sched ∧ t.hostStatus = s.hostStatus ∧
      (side = .enc → t.dec = s.dec) ∧ (side = .dec → t.enc = s.enc) := by
  cases h with
  | enc e r => exact ⟨rfl, rfl, rfl, rfl, fun _ => rfl, nofun⟩
  | dec d r => exact ⟨rfl, rfl, rfl, rfl, nofun, fun _ => rfl⟩

theorem State.ChangedAt.codec_of_ne (h : s.ChangedAt side t) (hne : other ≠ side) : t.codec other = s.codec other := by
  cases h with
  | enc e r => exact State.codec_of_ne_enc rfl hne
  | dec d r => exact State.codec_of_ne_dec rfl hne

theorem report_changedAt {r : Result} (h : report s r = .next t) : s.ChangedAt side t := by
  cases h
  cases side with
  | enc => exact .enc s.enc r
  | dec => exact .dec s.dec r

theorem onEnc_changedAt {f : Encoder → Ans Encoder α} (h : onEnc s f res = .next t) : s.ChangedAt .enc t := by
  rcases Ans.toStep_eq_next.1 h with ⟨_, e, -, rfl⟩ | ⟨e, -, rfl⟩ <;> exact .enc e _

theorem onDec_changedAt {f : Decoder → Ans Decoder α} (h : onDec s f res = .next t) : s.ChangedAt .dec t := by
  rcases Ans.toStep_eq_next.1 h with ⟨_, d, -, rfl⟩ | ⟨d, -, rfl⟩ <;> exact .dec d _

theorem setCodec_changedAt (s : State) (side : Side) (c : Codec) (r : Result) :
    s.ChangedAt side { s.setCodec side c with result := r } := by
  cases side with
  | enc => exact .enc _ r
  | dec => exact .dec _ r

theorem onCodec_changedAt {f : Codec → Ans Codec α} (h : onCodec side s f res = .next t) : s.ChangedAt side t := by
  rcases Ans.toStep_eq_next.1 h with ⟨_, c, -, rfl⟩ | ⟨c, -, rfl⟩ <;> exact setCodec_changedAt s side c _

theorem dictInsertOn_changedAt {p : Code} {b : Byte} (h : dictInsertOn side p b s = .next t) : s.ChangedAt side t := by
  unfold dictInsertOn at h
  cases side with
  | enc => exact onEnc_changedAt h
  | dec => exact onDec_changedAt h

theorem execDictReset_changedAt (h : execDictReset side s = .next t) : s.ChangedAt side t := by
  unfold execDictReset at h
  cases side with
  | enc => exact onEnc_changedAt h
  | dec => exact onDec_changedAt h

theorem execCompress_changedAt {m : BitVec 5} {ig : BitVec 2} (h : execCompress m ig s = .next t) :
    s.ChangedAt .enc t := by
  unfold execCompress at h
  split at h
  · cases h; exact .refl s .enc
  · exact onEnc_changedAt h

theorem execDecompress_changedAt {ig : BitVec 7} (h : execDecompress ig s = .next t) : s.ChangedAt .dec t := by
  unfold execDecompress at h
  split at h
  · cases h; exact .refl s .dec
  · exact onDec_changedAt h

theorem execAbs_changedAt {p : Code} (h : execAbs side p s = .next t) : s.ChangedAt side t := by
  unfold execAbs at h
  dsimp only at h
  split at h
  · cases side with
    | enc => exact onCodec_changedAt h
    | dec => exact report_changedAt h
  · cases h

theorem execAbl_changedAt {p : Code} {e : BitVec 1} (h : execAbl side p e s = .next t) : s.ChangedAt side t := by
  unfold execAbl at h
  dsimp only at h
  split at h
  · cases side with
    | enc => exact onCodec_changedAt h
    | dec => exact report_changedAt h
  · cases h

/-- An instruction changes the instance that executes it and the recorded result, and no other part of the block. -/
theorem exec_changedAt (h : exec i s = .next t) : s.ChangedAt (runsOn i) t := by
  cases i with
  | compress => exact execCompress_changedAt h
  | decompress => exact execDecompress_changedAt h
  | abs => exact execAbs_changedAt h
  | abl => exact execAbl_changedAt h
  | pad => cases h; exact .refl s .dec
  | dictReset => exact execDictReset_changedAt h
  | dictInsertGrowing | dictInsertRecycling | dictInsertNoVictim => exact dictInsertOn_changedAt h
  | abParams | dictAssigned | dictLookup | dictIsLeaf | succ | dictVictim | dictPending => exact report_changedAt h
  | sinkPush | putBits | flushBits | abEnc | abDec => exact onCodec_changedAt h
  | srcPull | getBits | alphaStep | raiseFail | finish => cases h; exact setCodec_changedAt s _ _ _
  | encStart | eFirst | eNext | encMiss | emitData | encFlushDict | encFinish => exact onEnc_changedAt h
  | indexAdd | indexRemove | encExtend | monReset | monUpdate => cases h; exact .enc _ _
  | hdr | lit | str | strKwKwK | dHdr | dSymbol | data | expand | decInsert => exact onDec_changedAt h
  | clear | endTok | decStart | decNext => cases h; exact .dec _ _

end

/-- Settles O46: only the instance that executes the instruction changes (`exec_changedAt`). -/
theorem instancesShareNothing : Obligations.InstancesShareNothing := fun _ _ _ h => (exec_changedAt h).frame

end Sys2Proof.Machine
end

section
/-! What an operation does with the answers of a sink (spec/40_bitio.md R121; spec/60_exceptions.md R274, R276): while
it goes on every answer was `ok`; the first refusal is the last answer it asks for, and it fails with `SINK_FAIL`. -/

namespace Sys2Proof.Machine

/-- From `c` to `d` no push was refused: the answers used up are all `ok`, and the cause has not become `SINK_FAIL`. -/
structure Codec.Accepted (c d : Codec) : Prop where
  status : d.port.status = c.port.status
  answers : ∃ k, c.port.answers = List.replicate k .ok ++ d.port.answers
  cause : d.cause = causeCode .sinkFail → c.cause = causeCode .sinkFail

/-- From `c` to `d` the pushes were accepted up to one that was refused, and with that the run failed. -/
structure Codec.Refused (c d : Codec) : Prop where
  status : c.port.status = .mayRefuse
  answers : ∃ k, c.port.answers = List.replicate k .ok ++ .refuse :: d.port.answers
  phase : d.phase = .failed
  cause : d.cause = causeCode .sinkFail

/-- What an operation that starts from the common part `c` leaves of it, `view` being the common part of what is left:
where it returns no push was refused; where it fails none was, or one was and it is the last. -/
def Ans.HeedsSink {σ α : Type} (view : σ → Codec) (c : Codec) (x : Ans σ α) : Prop :=
  match x with
  | .ok _ s => c.Accepted (view s)
  | .failed s => c.Accepted (view s) ∨ c.Refused (view s)
  | .fault _ => True

/-- The same of a step of the block, `d` being the common part after it and `r` the recorded result. -/
def Codec.HeedsSink (c d : Codec) (r : Result) : Prop := c.Accepted d ∨ c.Refused d ∧ r = .failed

section
variable {σ α β : Type} {view : σ → Codec} {c d e : Codec}

theorem Codec.Accepted.of_port (hport : d.port = c.port) (hcause : d.cause = c.cause) : c.Accepted d :=
  ⟨by rw [hport], ⟨0, by rw [hport]; rfl⟩, by rw [hcause]; exact id⟩

theorem Codec.Accepted.refl (c : Codec) : c.Accepted c := .of_port rfl rfl

/-- Another buffer. -/
theorem Codec.Accepted.buf (c : Codec) (u : BitBuf) : c.Accepted { c with buf := u } := .of_port rfl rfl

theorem causeCode_injective : Function.Injective causeCode := fun k l => by cases k <;> cases l <;> decide

/-- A failure for another cause. -/
theorem Codec.Accepted.raised (cause : Cause) (c : Codec) (h : cause ≠ .sinkFail := by decide) :
    c.Accepted (c.raiseFail cause) :=
  ⟨rfl, ⟨0, rfl⟩, fun heq => absurd (causeCode_injective heq) h⟩

/-- An accepted command clears the cause (R252). -/
theorem Codec.Accepted.acceptCmd (b : Byte) (c : Codec) : c.Accepted (c.acceptCmd b) :=
  ⟨rfl, ⟨0, rfl⟩, fun heq => absurd heq (by decide : (0 : BitVec 3) ≠ causeCode .sinkFail)⟩

theorem Codec.Accepted.trans (h : c.Accepted d) (k : d.Accepted e) : c.Accepted e := by
  obtain ⟨i, hi⟩ := h.answers
  obtain ⟨j, hj⟩ := k.answers
  exact ⟨k.status.trans h.status, ⟨i + j, by rw [hi, hj, List.replicate_add, List.append_assoc]⟩, h.cause ∘ k.cause⟩

theorem Codec.Accepted.refused (h : c.Accepted d) (k : d.Refused e) : c.Refused e := by
  obtain ⟨i, hi⟩ := h.answers
  obtain ⟨j, hj⟩ := k.answers
  exact ⟨h.status.symm.trans k.status, ⟨i + j, by rw [hi, hj, List.replicate_add, List.append_assoc]⟩, k.phase, k.cause⟩

/-! ### Operations put together -/

/-- An operation after accepted pushes. -/
theorem Codec.Accepted.heedsSink {x : Ans σ α} (h : c.Accepted d) (hx : x.HeedsSink view d) : x.HeedsSink view c := by
  cases x with
  | ok a s => exact h.trans hx
  | failed s => exact hx.imp h.trans h.refused
  | fault f => trivial

/-- A statement after another: it starts from what the first returned with, and so from accepted pushes. -/
theorem Ans.HeedsSink.bind {x : Ans σ α} {f : α → σ → Ans σ β} (hx : x.HeedsSink view c)
    (hf : ∀ a s, (f a s).HeedsSink view (view s)) : (x.bind f).HeedsSink view c := by
  cases x with
  | ok a s => exact Codec.Accepted.heedsSink hx (hf a s)
  | failed s => exact hx
  | fault f => trivial

/-- An operation on the common part, seen from the whole. -/
theorem Ans.HeedsSink.within {x : Ans Codec α} {put : Codec → σ} (hx : x.HeedsSink id c)
    (hput : ∀ d, view (put d) = d) : (x.within put).HeedsSink view c := by
  cases x with
  | ok a d =>
    show c.Accepted (view (put d))
    rwa [hput]
  | failed d =>
    show c.Accepted (view (put d)) ∨ c.Refused (view (put d))
    rwa [hput]
  | fault f => trivial

end

/-! ### Ports and bits -/

/-- The one place where a refusal enters (R121). -/
theorem Codec.sinkPush_heedsSink (b : Byte) (c : Codec) : (c.sinkPush b).HeedsSink id c := by
  cases hs : c.port.status with
  | neverRefuses =>
    rw [Codec.sinkPush_of_accepted (Port.push_neverRefuses hs b)]
    exact ⟨rfl, ⟨0, rfl⟩, id⟩
  | mayRefuse =>
    cases ha : c.port.answers with
    | nil =>
      rw [Codec.sinkPush_of_accepted (Port.push_script_end hs ha b)]
      exact ⟨rfl, ⟨0, rfl⟩, id⟩
    | cons a as =>
      cases a with
      | ok =>
        rw [Codec.sinkPush_of_accepted (Port.push_script_ok hs ha b)]
        exact ⟨rfl, ⟨1, ha⟩, id⟩
      | refuse =>
        rw [Codec.sinkPush_of_refused (Port.push_script_refuse hs ha b)]
        exact .inr ⟨hs, ⟨0, ha⟩, rfl, rfl⟩

theorem Codec.drain_heedsSink (fuel : Nat) (c : Codec) : (c.drain fuel).HeedsSink id c := by
  induction fuel generalizing c with
  | zero => exact .refl c
  | succ fuel ih =>
    rw [Codec.drain]
    split
    · exact (c.sinkPush_heedsSink _).bind fun _ d => (Codec.Accepted.buf d _).heedsSink (ih _)
    · exact .refl c

theorem Codec.putBits_heedsSink (val wd : Nat) (c : Codec) : (c.putBits val wd).HeedsSink id c :=
  (Codec.Accepted.buf c _).heedsSink (Codec.drain_heedsSink 8 _)

theorem Codec.flushBits_heedsSink (c : Codec) : c.flushBits.HeedsSink id c := by
  unfold Codec.flushBits
  split
  · exact (c.sinkPush_heedsSink _).bind fun _ d => .buf d _
  · exact .refl c

theorem Codec.writeCode_heedsSink (v n : Nat) (c : Codec) : (c.writeCode v n).HeedsSink id c := by
  unfold Codec.writeCode
  dsimp only
  split
  · exact (c.putBits_heedsSink _ _).bind fun _ d => .refl d
  · exact (c.putBits_heedsSink _ _).bind fun _ d => (d.putBits_heedsSink _ _).bind fun _ e => .refl e

theorem Codec.abEnc_heedsSink (v n : Nat) (c : Codec) : (c.abEnc v n).HeedsSink id c := by
  unfold Codec.abEnc
  split
  · split <;> exact c.writeCode_heedsSink _ _
  · exact (c.putBits_heedsSink _ _).bind fun _ d => .refl d

/-! ### Reading pushes nothing -/

theorem Codec.srcPull_accepted (c : Codec) : c.Accepted c.srcPull.2 := by
  rcases c.srcPull_cases with ⟨-, h⟩ | ⟨b, bs, -, h⟩ <;> rw [h]
  · exact .refl c
  · exact ⟨rfl, ⟨0, rfl⟩, id⟩

theorem Codec.fill_accepted (wd fuel : Nat) (c : Codec) : c.Accepted (c.fill wd fuel).2 := by
  induction fuel generalizing c with
  | zero => exact .refl c
  | succ fuel ih =>
    rw [Codec.fill]
    split
    · have hpull := c.srcPull_accepted
      split
      · rename_i d h; rw [h] at hpull; exact hpull
      · rename_i b d h
        rw [h] at hpull
        exact hpull.trans ((Codec.Accepted.buf d _).trans (ih _))
    · exact .refl c

theorem Codec.getBits_accepted (wd : Nat) (c : Codec) : c.Accepted (c.getBits wd).2 := by
  have hfill := c.fill_accepted wd wd
  unfold Codec.getBits
  split
  · rename_i d h; rw [h] at hfill; exact hfill
  · rename_i d h; rw [h] at hfill; exact hfill.trans (.buf d _)

theorem Codec.getFree_accepted (x wd : Nat) (c : Codec) : c.Accepted (c.getFree x wd).2 := c.getBits_accepted _

theorem Codec.getField_accepted (wd : BitVec 5) (c : Codec) : c.Accepted (c.getField wd).2 := by
  unfold Codec.getField
  split
  · exact c.getBits_accepted _
  · exact c.getFree_accepted _ _

theorem Codec.readCode_heedsSink (n : Nat) (c : Codec) : (c.readCode n).HeedsSink id c := by
  unfold Codec.readCode
  dsimp only
  have h1 := c.getBits_accepted (abParams n).1
  split
  · rename_i d h; rw [h] at h1; exact .inl (h1.trans (.raised .truncated d))
  · rename_i p d h
    rw [h] at h1
    split
    · exact h1
    · have h2 := d.getBits_accepted 1
      split
      · rename_i e h'; rw [h'] at h2; exact .inl ((h1.trans h2).trans (.raised .truncated e))
      · rename_i x e h'; rw [h'] at h2; exact h1.trans h2

theorem Codec.abDec_heedsSink (n : Nat) (c : Codec) : (c.abDec n).HeedsSink id c := by
  unfold Codec.abDec
  split
  · exact c.readCode_heedsSink n
  · dsimp only
    have hget := c.getFree_accepted (Config.freeSymbol c.buf.acc c.buf.nbits n).1
      (Config.freeSymbol c.buf.acc c.buf.nbits n).2
    split
    · rename_i d h; rw [h] at hget; exact .inl (hget.trans (.raised .truncated d))
    · rename_i v d h; rw [h] at hget; exact hget

/-! ### Encoder -/

section
variable {α : Type} {e : Encoder}

theorem Encoder.onCodec_heedsSink {f : Codec → Ans Codec α} (h : (f e.codec).HeedsSink id e.codec) :
    (e.onCodec f).HeedsSink Encoder.codec e.codec := h.within fun _ => rfl

theorem Encoder.emitCtrl_heedsSink (c : Nat) (e : Encoder) : (e.emitCtrl c).HeedsSink Encoder.codec e.codec :=
  Encoder.onCodec_heedsSink (Codec.abEnc_heedsSink _ _ _)

theorem Encoder.emitData_heedsSink (c : Code) (e : Encoder) : (e.emitData c).HeedsSink Encoder.codec e.codec :=
  Encoder.onCodec_heedsSink ((Codec.abEnc_heedsSink _ _ _).bind fun _ _ => .of_port rfl rfl)

theorem Encoder.dictInsert_heedsSink (p : Code) (b : Byte) (e : Encoder) :
    (e.dictInsert p b).HeedsSink Encoder.codec e.codec := by
  rcases e.dictInsert_cases p b with ⟨-, h⟩ | ⟨-, v, -, h⟩ | ⟨-, -, h⟩ <;> rw [h]
  · exact .of_port rfl rfl
  · rcases e.insertRecycling_cases v p b with ⟨q, a, -, -, h⟩ | ⟨h, -⟩ <;> rw [h]
    · exact .of_port rfl rfl
    · trivial
  · exact .refl e.codec

theorem Encoder.monUpdate_codec (mlen wd : Nat) (e : Encoder) : (e.monUpdate mlen wd).2.codec = e.codec := by
  obtain ⟨q, i, o, z, h, -⟩ := e.monUpdate_cases mlen wd
  rw [h]

theorem Encoder.flushDict_heedsSink (e : Encoder) : e.flushDict.HeedsSink Encoder.codec e.codec :=
  (e.emitCtrl_heedsSink _).bind fun _ _ => .of_port rfl rfl

theorem Encoder.flushIf_heedsSink (flush : Bool) (e : Encoder) : (e.flushIf flush).HeedsSink Encoder.codec e.codec := by
  unfold Encoder.flushIf
  split
  · exact e.flushDict_heedsSink
  · exact .refl e.codec

theorem Encoder.encFinish_heedsSink (e : Encoder) : e.encFinish.HeedsSink Encoder.codec e.codec :=
  (Encoder.onCodec_heedsSink (Codec.flushBits_heedsSink _)).bind fun _ _ => .of_port rfl rfl

theorem Encoder.start_heedsSink (m : Nat) (e : Encoder) : (e.start m).HeedsSink Encoder.codec e.codec := by
  unfold Encoder.start
  split
  · have hpush := Encoder.onCodec_heedsSink (e := e.initialise m) (Codec.sinkPush_heedsSink (BitVec.ofNat 8 m) _)
    have hinit : e.codec.Accepted (e.initialise m).codec := .of_port rfl rfl
    exact (hinit.heedsSink hpush).bind fun _ _ => Codec.Accepted.of_port rfl rfl
  · exact .inl (.raised .badHeader _)

theorem Encoder.compress_heedsSink (m : BitVec 5) (ignored : BitVec 2) (e : Encoder) :
    (e.compress m ignored).HeedsSink Encoder.codec e.codec :=
  (Codec.Accepted.acceptCmd _ e.codec).heedsSink (Encoder.start_heedsSink m.toNat (e.setCodec _))

theorem Encoder.miss_heedsSink (b : Byte) (e : Encoder) : (e.miss b).HeedsSink Encoder.codec e.codec := by
  unfold Encoder.miss
  split
  · trivial
  · rename_i w _
    refine (e.emitData_heedsSink w).bind fun wd f => (f.dictInsert_heedsSink w b).bind fun _ g => ?_
    rw [← g.monUpdate_codec g.mlen.toNat wd]
    exact (Encoder.flushIf_heedsSink _ _).bind fun _ _ => .of_port rfl rfl

theorem Encoder.first_heedsSink (e : Encoder) : e.first.HeedsSink Encoder.codec e.codec := by
  unfold Encoder.first
  have hpull := e.codec.srcPull_accepted
  split
  · rename_i c h
    rw [h] at hpull
    exact hpull.heedsSink ((Encoder.emitCtrl_heedsSink _ (e.setCodec c)).bind fun _ f => f.encFinish_heedsSink)
  · rename_i b c h
    rw [h] at hpull
    exact hpull.trans (.of_port rfl rfl)

theorem Encoder.next_heedsSink (e : Encoder) : e.next.HeedsSink Encoder.codec e.codec := by
  unfold Encoder.next
  have hpull := e.codec.srcPull_accepted
  split
  · trivial
  · rename_i w c _ h
    rw [h] at hpull
    exact hpull.heedsSink ((Encoder.emitData_heedsSink w (e.setCodec c)).bind fun _ f =>
      (f.emitCtrl_heedsSink _).bind fun _ g => g.encFinish_heedsSink)
  · rename_i w b c _ h
    rw [h] at hpull
    dsimp only
    split
    · exact hpull.trans (.of_port rfl rfl)
    · exact hpull.heedsSink ((Encoder.miss_heedsSink b (e.setCodec c)).bind fun _ _ => .of_port rfl rfl)

end

/-! ### Decoder -/

section
variable {α : Type} {d : Decoder}

theorem Decoder.onCodec_heedsSink {f : Codec → Ans Codec α} (h : (f d.codec).HeedsSink id d.codec) :
    (d.onCodec f).HeedsSink Decoder.codec d.codec := h.within fun _ => rfl

theorem Decoder.sinkPush_heedsSink (b : Byte) (d : Decoder) : (d.sinkPush b).HeedsSink Decoder.codec d.codec :=
  Decoder.onCodec_heedsSink (Codec.sinkPush_heedsSink _ _)

theorem Decoder.walk_heedsSink (fuel : Nat) (c : Code) (d : Decoder) :
    (Decoder.walk fuel c d).HeedsSink Decoder.codec d.codec := by
  induction fuel generalizing c d with
  | zero =>
    rw [Decoder.walk]
    split
    · exact .inl (.raised .badCode _)
    · exact .refl d.codec
  | succ fuel ih =>
    rw [Decoder.walk]
    split
    · split
      · exact .inl (.raised .badCode _)
      · split
        · exact ih _ _
        · trivial
    · exact .refl d.codec

theorem Decoder.popAll_heedsSink (k : Nat) (d : Decoder) : (Decoder.popAll k d).HeedsSink Decoder.codec d.codec := by
  induction k generalizing d with
  | zero => exact .refl d.codec
  | succ k ih =>
    rw [Decoder.popAll]
    split
    · exact (Decoder.sinkPush_heedsSink _ { d with sp := BitVec.ofNat 17 k }).bind fun _ g => ih g
    · trivial

theorem Decoder.expand_heedsSink (c : Code) (d : Decoder) : (d.expand c).HeedsSink Decoder.codec d.codec := by
  unfold Decoder.expand
  refine (Decoder.walk_heedsSink _ c { d with sp := 0 }).bind fun root g => ?_
  split
  · exact (g.sinkPush_heedsSink _).bind fun _ x => (x.popAll_heedsSink _).bind fun _ y => .refl y.codec
  · exact .inl (.raised .badCode _)

theorem Decoder.lit_heedsSink (b : Byte) (d : Decoder) : (d.lit b).HeedsSink Decoder.codec d.codec :=
  (d.sinkPush_heedsSink b).bind fun _ g => .refl g.codec

theorem Decoder.str_heedsSink (c : Code) (d : Decoder) : (d.str c).HeedsSink Decoder.codec d.codec := by
  unfold Decoder.str
  split
  · exact d.expand_heedsSink c
  · exact .inl (.raised .badCode _)

theorem Decoder.kwkwk_heedsSink (d : Decoder) : d.kwkwk.HeedsSink Decoder.codec d.codec := by
  unfold Decoder.kwkwk
  split
  · exact (d.expand_heedsSink _).bind fun _ g => (g.sinkPush_heedsSink _).bind fun _ x => .refl x.codec
  · exact .inl (.raised .badCode _)

theorem Decoder.strToken_heedsSink (c : Code) (d : Decoder) : (d.strToken c).HeedsSink Decoder.codec d.codec := by
  unfold Decoder.strToken
  split
  · exact d.kwkwk_heedsSink
  · exact d.str_heedsSink c

theorem Decoder.dataToken_heedsSink (c : Code) (d : Decoder) : (d.dataToken c).HeedsSink Decoder.codec d.codec := by
  unfold Decoder.dataToken
  split
  · exact d.kwkwk_heedsSink
  · split
    · exact d.lit_heedsSink _
    · exact d.str_heedsSink c

theorem Decoder.decInsert_heedsSink (fb : Byte) (d : Decoder) : (d.decInsert fb).HeedsSink Decoder.codec d.codec := by
  unfold Decoder.decInsert
  split
  · exact .of_port rfl rfl
  · exact .refl d.codec

theorem Decoder.data_heedsSink (c : Code) (d : Decoder) : (d.data c).HeedsSink Decoder.codec d.codec :=
  (d.dataToken_heedsSink c).bind fun fb g => (g.decInsert_heedsSink fb).bind fun _ _ => .of_port rfl rfl

theorem Decoder.symbol_heedsSink (c : Code) (d : Decoder) : (d.symbol c).HeedsSink Decoder.codec d.codec := by
  unfold Decoder.symbol
  split
  · exact .of_port rfl rfl
  · split
    · exact .of_port rfl rfl
    · exact (d.data_heedsSink c).bind fun _ _ => .of_port rfl rfl

theorem Decoder.dSymbol_heedsSink (d : Decoder) : d.dSymbol.HeedsSink Decoder.codec d.codec :=
  (Decoder.onCodec_heedsSink (Codec.abDec_heedsSink _ _)).bind fun _ g => g.symbol_heedsSink _

theorem Decoder.decompress_accepted (ignored : BitVec 7) (d : Decoder) :
    d.codec.Accepted (d.decompress ignored).codec :=
  (Codec.Accepted.acceptCmd (ignored ++ 1#1) d.codec).trans (.of_port rfl rfl)

theorem Decoder.header_heedsSink (b : Byte) (d : Decoder) : (d.header b).HeedsSink Decoder.codec d.codec := by
  unfold Decoder.header
  split
  · exact .of_port rfl rfl
  · exact .inl (.raised .badHeader _)

theorem Decoder.hdr_heedsSink (d : Decoder) : d.hdr.HeedsSink Decoder.codec d.codec := by
  unfold Decoder.hdr
  have hpull := d.codec.srcPull_accepted
  split
  · rename_i c h; rw [h] at hpull; exact .inl (hpull.trans (.raised .truncated c))
  · rename_i b c h; rw [h] at hpull; exact hpull.heedsSink ((d.setCodec c).header_heedsSink b)

end

/-! ### Every instruction -/

section
variable {s t : State} {side : Side} {i : Instr} {α : Type} {res : α → Result}

/-- The step that an operation becomes. -/
theorem Ans.HeedsSink.toStep {σ : Type} {view : σ → Codec} {c : Codec} {x : Ans σ α} {put : σ → State}
    (hx : x.HeedsSink view c) (hput : ∀ a r, ({ put a with result := r } : State).codec side = view a)
    (h : x.toStep put res = .next t) : c.HeedsSink (t.codec side) t.result := by
  rcases Ans.toStep_eq_next.1 h with ⟨_, a, rfl, rfl⟩ | ⟨a, rfl, rfl⟩ <;> rw [hput]
  · exact .inl hx
  · exact hx.imp id fun hr => ⟨hr, rfl⟩

theorem onCodec_heedsSink {f : Codec → Ans Codec α} (h : onCodec side s f res = .next t)
    (hf : (f (s.codec side)).HeedsSink id (s.codec side)) : (s.codec side).HeedsSink (t.codec side) t.result :=
  hf.toStep (fun c _ => by cases side <;> rfl) h

theorem onEnc_heedsSink {f : Encoder → Ans Encoder α} (h : onEnc s f res = .next t)
    (hf : (f s.enc).HeedsSink Encoder.codec s.enc.codec) : s.enc.codec.HeedsSink t.enc.codec t.result :=
  hf.toStep (side := .enc) (fun _ _ => rfl) h

theorem onDec_heedsSink {f : Decoder → Ans Decoder α} (h : onDec s f res = .next t)
    (hf : (f s.dec).HeedsSink Decoder.codec s.dec.codec) : s.dec.codec.HeedsSink t.dec.codec t.result :=
  hf.toStep (side := .dec) (fun _ _ => rfl) h

theorem Codec.HeedsSink.of_eq {c d : Codec} (h : d = c) (r : Result) : c.HeedsSink d r := h ▸ .inl (.refl d)

theorem report_heedsSink {r : Result} (h : report s r = .next t) :
    (s.codec side).HeedsSink (t.codec side) t.result := by
  cases h
  exact .of_eq (by cases side <;> rfl) r

theorem execCompress_heedsSink {m : BitVec 5} {ig : BitVec 2} (h : execCompress m ig s = .next t) :
    s.enc.codec.HeedsSink t.enc.codec t.result := by
  unfold execCompress at h
  split at h
  · cases h; exact .of_eq rfl _
  · exact onEnc_heedsSink h (Encoder.compress_heedsSink m ig _)

theorem execDecompress_heedsSink {ig : BitVec 7} (h : execDecompress ig s = .next t) :
    s.dec.codec.HeedsSink t.dec.codec t.result := by
  unfold execDecompress at h
  split at h
  · cases h; exact .of_eq rfl _
  · cases h; exact .inl (Decoder.decompress_accepted ig _)

theorem execAbs_heedsSink {p : Code} (h : execAbs side p s = .next t) :
    (s.codec side).HeedsSink (t.codec side) t.result := by
  unfold execAbs at h
  dsimp only at h
  split at h
  · cases side with
    | enc => exact onCodec_heedsSink h ((Codec.putBits_heedsSink _ _ _).bind fun _ d => .refl d)
    | dec => exact report_heedsSink h
  · cases h

theorem execAbl_heedsSink {p : Code} {e : BitVec 1} (h : execAbl side p e s = .next t) :
    (s.codec side).HeedsSink (t.codec side) t.result := by
  unfold execAbl at h
  dsimp only at h
  split at h
  · cases side with
    | enc =>
      exact onCodec_heedsSink h ((Codec.putBits_heedsSink _ _ _).bind fun _ d =>
        (d.putBits_heedsSink _ _).bind fun _ e => .refl e)
    | dec => exact report_heedsSink h
  · cases h

theorem dictInsertOn_heedsSink {p : Code} {b : Byte} (h : dictInsertOn side p b s = .next t) :
    (s.codec side).HeedsSink (t.codec side) t.result := by
  unfold dictInsertOn at h
  cases side with
  | enc => exact onEnc_heedsSink h (Encoder.dictInsert_heedsSink p b _)
  | dec => cases h; exact .inl (.of_port rfl rfl)

theorem execDictReset_heedsSink (h : execDictReset side s = .next t) :
    (s.codec side).HeedsSink (t.codec side) t.result := by
  cases side with
  | enc => cases h; exact .inl (.of_port rfl rfl)
  | dec => cases h; exact .inl (.of_port rfl rfl)

/-- On the instance that executes it, every instruction but `raise Fail` goes on after accepted pushes only, and fails
with `SINK_FAIL` at the first refused one. -/
theorem exec_heedsSink (h : exec i s = .next t) (hraise : ∀ cause, i ≠ .raiseFail (runsOn i) cause) :
    (s.codec (runsOn i)).HeedsSink (t.codec (runsOn i)) t.result := by
  cases i with
  | compress => exact execCompress_heedsSink h
  | decompress => exact execDecompress_heedsSink h
  | abs => exact execAbs_heedsSink h
  | abl => exact execAbl_heedsSink h
  | pad => cases h; exact .of_eq rfl _
  | raiseFail side cause => exact absurd rfl (hraise cause)
  | abParams | dictAssigned | dictLookup | dictIsLeaf | succ | dictVictim | dictPending => exact report_heedsSink h
  | dictReset => exact execDictReset_heedsSink h
  | dictInsertGrowing | dictInsertRecycling | dictInsertNoVictim => exact dictInsertOn_heedsSink h
  | srcPull => rw [exec, execSrcPull] at h; exact onCodec_heedsSink h (Codec.srcPull_accepted _)
  | getBits => rw [exec, execGetBits] at h; exact onCodec_heedsSink h (Codec.getField_accepted _ _)
  | alphaStep => rw [exec, execAlphaStep] at h; exact onCodec_heedsSink h (.of_port rfl rfl)
  | finish => rw [exec, execFinish] at h; exact onCodec_heedsSink h (.of_port rfl rfl)
  | sinkPush => exact onCodec_heedsSink h (Codec.sinkPush_heedsSink _ _)
  | putBits => exact onCodec_heedsSink h (Codec.putBits_heedsSink _ _ _)
  | flushBits => exact onCodec_heedsSink h (Codec.flushBits_heedsSink _)
  | abEnc => exact onCodec_heedsSink h (Codec.abEnc_heedsSink _ _ _)
  | abDec => exact onCodec_heedsSink h (Codec.abDec_heedsSink _ _)
  | encStart => exact onEnc_heedsSink h (Encoder.start_heedsSink _ _)
  | eFirst => exact onEnc_heedsSink h (Encoder.first_heedsSink _)
  | eNext => exact onEnc_heedsSink h (Encoder.next_heedsSink _)
  | encMiss => exact onEnc_heedsSink h (Encoder.miss_heedsSink _ _)
  | emitData => exact onEnc_heedsSink h (Encoder.emitData_heedsSink _ _)
  | encFlushDict => exact onEnc_heedsSink h (Encoder.flushDict_heedsSink _)
  | encFinish => exact onEnc_heedsSink h (Encoder.encFinish_heedsSink _)
  | indexAdd | indexRemove | encExtend | monReset => cases h; exact .of_eq rfl _
  | monUpdate => cases h; exact .of_eq (Encoder.monUpdate_codec _ _ _) _
  | hdr => exact onDec_heedsSink h (Decoder.header_heedsSink _ _)
  | lit => exact onDec_heedsSink h (Decoder.lit_heedsSink _ _)
  | str | strKwKwK => exact onDec_heedsSink h (Decoder.strToken_heedsSink _ _)
  | dHdr => exact onDec_heedsSink h (Decoder.hdr_heedsSink _)
  | dSymbol => exact onDec_heedsSink h (Decoder.dSymbol_heedsSink _)
  | data => exact onDec_heedsSink h (Decoder.data_heedsSink _ _)
  | expand => exact onDec_heedsSink h (Decoder.expand_heedsSink _ _)
  | decInsert => exact onDec_heedsSink h (Decoder.decInsert_heedsSink _ _)
  | clear | endTok | decStart | decNext => cases h; exact .inl (.of_port rfl rfl)

/-- The same of either side: an instance that does not execute the instruction stays as it was. -/
theorem exec_side_heedsSink (h : exec i s = .next t) (hraise : ∀ cause, i ≠ .raiseFail side cause) :
    (s.codec side).HeedsSink (t.codec side) t.result := by
  by_cases hside : side = runsOn i
  · subst hside
    exact exec_heedsSink h hraise
  · exact .of_eq ((exec_changedAt h).codec_of_ne hside) _

end

/-- Settles O48: `SINK_FAIL` comes with a refusal (`exec_side_heedsSink`), which such a sink never answers. -/
theorem neverRefusingSinkNeverFails : Obligations.NeverRefusingSinkNeverFails := by
  intro i s t side h hraise hnever hcause
  rcases exec_side_heedsSink h hraise with haccepted | ⟨hrefused, -⟩
  · exact haccepted.cause hcause
  · rw [Codec.neverRefused_iff, hrefused.status] at hnever
    cases hnever

/-- Settles O49: the answers used up are those of accepted pushes, or of these and one refusal
(`exec_side_heedsSink`); `raise Fail` itself uses none. -/
theorem refusalEndsTheRun : Obligations.RefusalEndsTheRun := by
  intro i s t side h
  have hok (k : Nat) : ∀ a ∈ List.replicate k SinkAnswer.ok, a = .ok := fun _ => List.eq_of_mem_replicate
  by_cases hraise : ∃ cause, i = .raiseFail side cause
  · obtain ⟨cause, rfl⟩ := hraise
    cases h
    exact ⟨[], hok 0, .inl (by cases side <;> rfl)⟩
  · rw [not_exists] at hraise
    rcases exec_side_heedsSink h hraise with haccepted | ⟨hrefused, hresult⟩
    · obtain ⟨k, hk⟩ := haccepted.answers
      exact ⟨_, hok k, .inl hk⟩
    · obtain ⟨k, hk⟩ := hrefused.answers
      exact ⟨_, hok k, .inr ⟨hk, hrefused.phase, hrefused.cause, hresult⟩⟩

end Sys2Proof.Machine
end

section
/-! The reset input as an event of the schedule (spec/70_reset_and_hazards.md R310). -/

namespace Sys2Proof.Machine

section
variable {s : State} {side : Side} {rest : List Event}

/-- The next event being a reset, no instruction runs (log entry 10). -/
theorem step_assertReset (hs : s.sched = .assertReset side :: rest) :
    step s = resetStep side { s with sched := rest } := by
  rw [step_of_no_instr (by rw [State.nextInstr, hs]), State.hostStep, hs, State.popped_of_cons hs]

/-- In `IDLE` no flag is set, and the cause is not shown (R42). -/
theorem Codec.statusReg_of_idle {c : Codec} (h : c.phase = .idle) : c.statusReg = 0 := by
  have hbusy : c.busy = false := congrArg Phase.busy h
  have hdone : c.done = false := congrArg (· == Phase.done) h
  have hfailed : c.failed = false := congrArg (· == Phase.failed) h
  simp [Codec.statusReg, hbusy, hdone, hfailed]

end

/-- Settles O2: the step is the reset of that side (`step_assertReset`), which builds the instance anew around its
port; an instance at rest has no rule (`phaseInstr_of_not_busy`). -/
theorem resetInputAtAnyTime : Obligations.ResetInputAtAnyTime := by
  intro s side rest hs
  cases side with
  | enc =>
    exact ⟨_, step_assertReset hs, rfl, rfl, Codec.statusReg_of_idle rfl, rfl, fun _ => ⟨rfl, rfl⟩, nofun, rfl, rfl, rfl,
      rfl, phaseInstr_of_not_busy rfl⟩
  | dec =>
    exact ⟨_, step_assertReset hs, rfl, rfl, Codec.statusReg_of_idle rfl, rfl, nofun, fun _ => ⟨rfl, rfl⟩, rfl, rfl, rfl,
      rfl, phaseInstr_of_not_busy rfl⟩

end Sys2Proof.Machine
end
